-- ==== Sys2Proof/Word.lean ====
section
/-! DEFINITION. The 9000A's word types (00_scope.md R4, R5): 16-bit words and 4-bit nibbles. -/

namespace Sys2Proof

/-- A 16-bit word: A, B, P, M, and every memory word (R4 `WORD`, R10, R13, R14, R30). -/
abbrev Word := BitVec 16

/-- Four bits: the E register (R12) and one decimal digit of a mantissa (R19). -/
abbrev Nibble := BitVec 4

end Sys2Proof
end

