-- ==== Sys2Proof/Config.lean ====
section
/-! DEFINITION. The implementation parameters of 00_scope.md R4 as plain data, their default values, and the free
values. R4 gives the parameters to the model as arguments: a `Platform` is one choice of all of them, fixed for a
machine (R23: they are no state of the machine; log 1). -/

namespace Sys2Proof.Config

/-- `SP_ADDR`: the memory word that is the stack pointer (R4, R17). -/
def spAddr : Word := 0o1777#16

/-- `AR1_BASE`: arithmetic pseudo-register 1 is the words 0o1744 to 0o1747 (R4, R18). -/
def ar1Base : Word := 0o1744#16

/-- `AR2_BASE`: arithmetic pseudo-register 2 is the words 0o1754 to 0o1757 (R4, R18). -/
def ar2Base : Word := 0o1754#16

/-- The three kinds `MemMap` gives an address (20_memory.md R33). -/
inductive MemKind where
  | rw
  | rom
  | absent
  deriving DecidableEq, Repr

/-- One stretch of the memory map: the word addresses `first` to `last`, both included. -/
structure Region where
  first : Nat
  last : Nat
  kind : MemKind
  deriving DecidableEq, Repr

/-- `INDIRECT_CHAIN`: what bit 15 of an indirect pointer means (20_memory.md R37, D4). -/
inductive IndirectChain where
  | refuse
  | ignoreBit15
  | multilevel
  deriving DecidableEq, Repr

/-- `DASH_BITS`: what a decoder does with a 1 in a position the coding table prints as "-" (30_encoding.md R58, D8). -/
inductive DashBits where
  | strict
  | ignore
  deriving DecidableEq, Repr

/-- `MAC_UNLISTED_REGS`: A or B after a MAC instruction whose own "unchanged" list omits it (D19, U12). -/
inductive UnlistedRegs where
  | unchanged
  | anyValue
  deriving DecidableEq, Repr

/-- `DmaAgent`: whether Extended Memory's DMA control is there (43_complement_execute_dma.md R166, D22). What a fitted
one does is `dmaRelease`. -/
inductive DmaAgent where
  | absent
  | fitted
  deriving DecidableEq, Repr

/-- The 23 instructions the coding table gives no bits (30_encoding.md R66). -/
inductive Unencoded where
  | cma | cmb | tca | tcb | exa | exb | dma
  | ret | mov | clr | xfr | mrx | mry | mls | drs | dls | fxa | fmp | fdv | cmx | cmy | mdi | nrm
  deriving DecidableEq, Repr

/-- One entry of `ENC_UNKNOWN`: the instruction's words are those `w` with `w &&& mask = pattern` (R66). -/
structure EncRow where
  instr : Unencoded
  pattern : Word
  mask : Word
  deriving DecidableEq, Repr

/-- `MANT_LAYOUT`: where the parts of a four-word floating-point register stand (R18, R19, 93 U19; log 12). -/
structure MantLayout where
  /-- Which of the four words is the exponent word, counted from the base address. -/
  exponent : Fin 4
  /-- Entry i is the place of digit D(i+1) among the twelve nibbles of the three other words in ascending order, place 0
  being bits 15:12 of the first of them and place 11 bits 3:0 of the third. -/
  digits : List (Fin 12)
  deriving DecidableEq, Repr

/-- One choice of every open parameter of R4. -/
structure Platform where
  /-- `MemMap`: the first region that holds an address gives its kind; an address in none is RW (R33; log 13). -/
  memMap : List Region
  /-- `INDIRECT_CHAIN` (R37). -/
  indirectChain : IndirectChain
  /-- `DASH_BITS` (R58). -/
  dashBits : DashBits
  /-- `ENC_UNKNOWN` (R66; log 11). -/
  encUnknown : List EncRow
  /-- `MANT_LAYOUT` (R19; log 12). -/
  mantLayout : MantLayout
  /-- `MAC_UNLISTED_REGS` (D19). -/
  unlistedRegs : UnlistedRegs
  /-- `DmaAgent` (R166). -/
  dmaAgent : DmaAgent
  deriving DecidableEq, Repr

/-- R19's default layout: the exponent word at the base, D1 in bits 15:12 of the word after it, D12 in bits 3:0 of the
last. -/
def defaultLayout : MantLayout where
  exponent := 0
  digits := [0, 1, 2, 3, 4, 5, 6, 7, 8, 9, 10, 11]

/-- R4's defaults, with R33's "no platform at all": memory RW everywhere (log 31). -/
def defaultPlatform : Platform where
  memMap := []
  indirectChain := .refuse
  dashBits := .strict
  encUnknown := []
  mantLayout := defaultLayout
  unlistedRegs := .unchanged
  dmaAgent := .absent

/-- FREE VALUE (log 8): the n-th undetermined word drawn when `MAC_UNLISTED_REGS` is `any_value` (U12). Nothing
constrains it. -/
opaque freeWord : Nat → Word

/-- What a fitted DMA control leaves when it releases the processor: the registers, where execution goes on, and the
words it stored. -/
structure DmaRelease where
  a : Word
  b : Word
  e : Nibble
  p : Word
  writes : List (Word × Word)
  deriving DecidableEq, Repr

/-- FREE VALUE (log 9): what a fitted DMA control does at the n-th moment of waiting, given the words A and B it was
handed; `none` while it goes on inhibiting the processor. R166 assumes nothing about it; neither does the model. -/
opaque dmaRelease : Nat → Word → Word → Option DmaRelease

end Sys2Proof.Config
end

