-- ==== Sys2Proof/Syntax.lean ====
section
/-! DEFINITION. The 9000A's instructions: one constructor for each of the 75 rows of spec/opcode_table.json
(00_scope.md R2). A memory reference instruction has two rows, its memory form (format MR, here under the plain
mnemonic) and its register-reference form (format RR, here with `Reg` after it). -/

namespace Sys2Proof

/-- The two general registers, as an encoding's bit 11 chooses between them (10_state.md R10, 30_encoding.md R52). -/
inductive Reg where
  | A
  | B
  deriving DecidableEq, Repr

/-- The ZERO/CURRENT page bit of format MR (R51). -/
inductive Page where
  | zero
  | current
  deriving DecidableEq, Repr

/-- The operand of a memory form: DIRECT/INDIRECT bit, page bit and the 10-bit address field `m` (R51). -/
structure MemRef where
  indirect : Bool
  page : Page
  addr : BitVec 10
  deriving DecidableEq, Repr

/-- The instructions. `ref` is a memory operand; `r` and `i` are a register operand and its DIRECT/INDIRECT bit; `n` is
a shift count (R56) or a signed skip distance (R57); `s` and `c` are the set and clear alter bits (R131). -/
inductive Instr where
  -- Memory Reference Group, memory forms
  | ada (ref : MemRef)
  | adb (ref : MemRef)
  | cpa (ref : MemRef)
  | cpb (ref : MemRef)
  | lda (ref : MemRef)
  | ldb (ref : MemRef)
  | sta (ref : MemRef)
  | stb (ref : MemRef)
  | ior (ref : MemRef)
  | isz (ref : MemRef)
  | and (ref : MemRef)
  | dsz (ref : MemRef)
  | jsm (ref : MemRef)
  | jmp (ref : MemRef)
  -- Shift-Rotate Group
  | aar (n : Nat)
  | abr (n : Nat)
  | sar (n : Nat)
  | sbr (n : Nat)
  | sal (n : Nat)
  | sbl (n : Nat)
  | rar (n : Nat)
  | rbr (n : Nat)
  -- Alter-Skip Group
  | sza (n : Int)
  | szb (n : Int)
  | rza (n : Int)
  | rzb (n : Int)
  | sia (n : Int)
  | sib (n : Int)
  | ria (n : Int)
  | rib (n : Int)
  | sla (n : Int) (s c : Bool)
  | slb (n : Int) (s c : Bool)
  | sam (n : Int) (s c : Bool)
  | sbm (n : Int) (s c : Bool)
  | sap (n : Int) (s c : Bool)
  | sbp (n : Int) (s c : Bool)
  | ses (n : Int) (s c : Bool)
  | sec (n : Int) (s c : Bool)
  -- Memory Reference Group, register forms (the last six in the indirect form only, R63)
  | adaReg (r : Reg) (i : Bool)
  | adbReg (r : Reg) (i : Bool)
  | cpaReg (r : Reg) (i : Bool)
  | cpbReg (r : Reg) (i : Bool)
  | ldaReg (r : Reg) (i : Bool)
  | ldbReg (r : Reg) (i : Bool)
  | staReg (r : Reg)
  | stbReg (r : Reg)
  | iorReg (r : Reg) (i : Bool)
  | iszReg (r : Reg)
  | andReg (r : Reg) (i : Bool)
  | dszReg (r : Reg)
  | jsmReg (r : Reg)
  | jmpReg (r : Reg)
  -- Complement-Execute-DMA Group
  | cma
  | cmb
  | tca
  | tcb
  | exa
  | exb
  | dma
  -- MAC Instruction Group
  | ret
  | mov
  | clr
  | xfr
  | mrx
  | mry
  | mls
  | drs
  | dls
  | fxa
  | fmp
  | fdv
  | cmx
  | cmy
  | mdi
  | nrm
  deriving DecidableEq, Repr

end Sys2Proof
end

