-- ==== Sys2Proof/WellFormed.lean ====
section
/-! DEFINITION. Which instructions the assembler's operands can name (30_encoding.md R56, R57), which of them have a
word on a platform (R66), and which platforms R4 allows. -/

namespace Sys2Proof

/-- R56: a shift count is 1 to 16. -/
def shiftCountOk (n : Nat) : Bool := 1 ≤ n && n ≤ 16

/-- R57: a skip distance is -16 to 15. -/
def skipOk (n : Int) : Bool := -16 ≤ n && n ≤ 15

/-- The operands are in the range their field can hold. -/
def Instr.wf : Instr → Bool
  | .aar n | .abr n | .sar n | .sbr n | .sal n | .sbl n | .rar n | .rbr n => shiftCountOk n
  | .sza n | .szb n | .rza n | .rzb n | .sia n | .sib n | .ria n | .rib n => skipOk n
  | .sla n _ _ | .slb n _ _ | .sam n _ _ | .sbm n _ _ | .sap n _ _ | .sbp n _ _ | .ses n _ _ | .sec n _ _ => skipOk n
  | .ada _ | .adb _ | .cpa _ | .cpb _ | .lda _ | .ldb _ | .sta _ | .stb _ => true
  | .ior _ | .isz _ | .and _ | .dsz _ | .jsm _ | .jmp _ => true
  | .adaReg _ _ | .adbReg _ _ | .cpaReg _ _ | .cpbReg _ _ | .ldaReg _ _ | .ldbReg _ _ | .iorReg _ _ | .andReg _ _ => true
  | .staReg _ | .stbReg _ | .iszReg _ | .dszReg _ | .jsmReg _ | .jmpReg _ => true
  | .cma | .cmb | .tca | .tcb | .exa | .exb | .dma => true
  | .ret | .mov | .clr | .xfr | .mrx | .mry | .mls | .drs | .dls | .fxa | .fmp | .fdv | .cmx | .cmy | .mdi | .nrm => true

/-- The instruction as one of the 23 the coding table gives no bits, if it is one (R66). -/
def Instr.unencoded? : Instr → Option Config.Unencoded
  | .cma => some .cma
  | .cmb => some .cmb
  | .tca => some .tca
  | .tcb => some .tcb
  | .exa => some .exa
  | .exb => some .exb
  | .dma => some .dma
  | .ret => some .ret
  | .mov => some .mov
  | .clr => some .clr
  | .xfr => some .xfr
  | .mrx => some .mrx
  | .mry => some .mry
  | .mls => some .mls
  | .drs => some .drs
  | .dls => some .dls
  | .fxa => some .fxa
  | .fmp => some .fmp
  | .fdv => some .fdv
  | .cmx => some .cmx
  | .cmy => some .cmy
  | .mdi => some .mdi
  | .nrm => some .nrm
  | .ada _ | .adb _ | .cpa _ | .cpb _ | .lda _ | .ldb _ | .sta _ | .stb _ => none
  | .ior _ | .isz _ | .and _ | .dsz _ | .jsm _ | .jmp _ => none
  | .aar _ | .abr _ | .sar _ | .sbr _ | .sal _ | .sbl _ | .rar _ | .rbr _ => none
  | .sza _ | .szb _ | .rza _ | .rzb _ | .sia _ | .sib _ | .ria _ | .rib _ => none
  | .sla _ _ _ | .slb _ _ _ | .sam _ _ _ | .sbm _ _ _ | .sap _ _ _ | .sbp _ _ _ | .ses _ _ _ | .sec _ _ _ => none
  | .adaReg _ _ | .adbReg _ _ | .cpaReg _ _ | .cpbReg _ _ | .ldaReg _ _ | .ldbReg _ _ | .iorReg _ _ | .andReg _ _ => none
  | .staReg _ | .stbReg _ | .iszReg _ | .dszReg _ | .jsmReg _ | .jmpReg _ => none

/-- On this platform the instruction has a word: the coding table has a row for it, or ENC_UNKNOWN does (R66). -/
def Instr.hasWord (plat : Config.Platform) (i : Instr) : Bool :=
  match i.unencoded? with
  | none => true
  | some u => plat.encUnknown.any (fun row => row.instr == u)

/-- R19: a layout gives each of the twelve digits a place of its own. -/
def layoutOk (layout : Config.MantLayout) : Bool := layout.digits.length == 12 && decide layout.digits.Nodup

/-- R62: the coding table gives the word to no instruction: (a) bits 15:12 all ones; (b) bits 15:12 = 0111 with bits 3:0
among 0001, 0011, 0101, 0111, 1110; (c) a register-reference word whose operation is 1110 or 1111. -/
def unassignedWord (w : Word) : Bool :=
  w.extractLsb' 12 4 == 0b1111#4 ||
  (w.extractLsb' 12 4 == 0b0111#4 &&
    ([0b0001#4, 0b0011#4, 0b0101#4, 0b0111#4, 0b1110#4].contains (w.extractLsb' 0 4) ||
     (w.extractLsb' 0 4 == 0b1111#4 && (w.extractLsb' 4 4 == 0b1110#4 || w.extractLsb' 4 4 == 0b1111#4))))

/-- R58: a register-reference word with a 1 in its "-" positions 10 and 9. -/
def dashedRegisterWord (w : Word) : Bool :=
  w.extractLsb' 12 4 == 0b0111#4 && w.extractLsb' 0 4 == 0b1111#4 && w.extractLsb' 9 2 != 0b00#2

/-- R66: an entry of ENC_UNKNOWN has its fixed bits under its mask and all its words inside R62's unassigned space; its
canonical word, the pattern itself, has no 1 in a "-" position, where R60 would refuse it before the lookup (log 11). -/
abbrev Config.EncRow.wf (row : Config.EncRow) : Prop :=
  row.pattern &&& row.mask = row.pattern ∧ dashedRegisterWord row.pattern = false ∧
    ∀ w : Word, w &&& row.mask = row.pattern → unassignedWord w = true

/-- Two entries of ENC_UNKNOWN that no word matches both. -/
abbrev Config.EncRow.disjoint (x y : Config.EncRow) : Prop := x.pattern &&& y.mask ≠ y.pattern &&& x.mask

/-- R66: ENC_UNKNOWN is a partial map from mnemonics to words of the unassigned space, no word given twice (log 11). -/
abbrev encUnknownOk (rows : List Config.EncRow) : Prop :=
  (∀ row ∈ rows, row.wf) ∧ (rows.map Config.EncRow.instr).Nodup ∧ rows.Pairwise Config.EncRow.disjoint

/-- The platforms R4 allows: ENC_UNKNOWN inside the unassigned space and unambiguous, a layout that places every digit. -/
abbrev Config.Platform.wf (plat : Config.Platform) : Prop :=
  encUnknownOk plat.encUnknown ∧ layoutOk plat.mantLayout = true

end Sys2Proof
end

