-- ==== Sys2Proof/Decode.lean ====
section
/-! DEFINITION. The decoder (30_encoding.md R60, total on 16-bit words), the encoder written from the same formats (R51,
R53 to R57, R69), the opcode table's rows, and the host's `decodeTableWord`. -/

namespace Sys2Proof

/-- Why a word is no instruction (R58, R62, R63). -/
inductive DecodeError where
  | unassigned
  | dashBit
  | directRegisterRestricted
  | jmpDirectRegister
  deriving DecidableEq, Repr

/-- Bit `i` of a word (R5). -/
def wordBit (w : Word) (i : Nat) : Bool := w.getLsbD i

/-- R52: bit 11 chooses A (0) or B (1). -/
def regOf (w : Word) : Reg := if wordBit w 11 then .B else .A

/-- The operand fields of format MR (R51). -/
def memRefOf (w : Word) : MemRef where
  indirect := wordBit w 15
  page := if wordBit w 10 then .current else .zero
  addr := w.extractLsb' 0 10

/-- The shift code, bits 8:5 of format SR (R53). -/
def shiftCodeOf (w : Word) : BitVec 4 := w.extractLsb' 5 4

/-- The skip distance, bits 9:5 of format AS as a two's-complement number (R57). -/
def skipOf (w : Word) : Int := (w.extractLsb' 5 5).toInt

/-- R59: the memory forms by operation code. -/
def memForm (op : Nat) (ref : MemRef) : Option Instr :=
  match op with
  | 0 => some (.ada ref)
  | 1 => some (.adb ref)
  | 2 => some (.cpa ref)
  | 3 => some (.cpb ref)
  | 4 => some (.lda ref)
  | 5 => some (.ldb ref)
  | 6 => some (.sta ref)
  | 7 => some (.stb ref)
  | 8 => some (.ior ref)
  | 9 => some (.isz ref)
  | 10 => some (.and ref)
  | 11 => some (.dsz ref)
  | 12 => some (.jsm ref)
  | 13 => some (.jmp ref)
  | _ => none

/-- R56, R61: the shift-rotates by the type field, with the count the code stands for. -/
def shiftForm (type : Nat) (r : Reg) (code : BitVec 4) : Option Instr :=
  match type, r with
  | 0b0000, .A => some (.aar (code.toNat + 1))
  | 0b0000, .B => some (.abr (code.toNat + 1))
  | 0b0010, .A => some (.sar (code.toNat + 1))
  | 0b0010, .B => some (.sbr (code.toNat + 1))
  | 0b0100, .A => some (.sal (16 - code.toNat))
  | 0b0100, .B => some (.sbl (16 - code.toNat))
  | 0b0110, .A => some (.rar (code.toNat + 1))
  | 0b0110, .B => some (.rbr (code.toNat + 1))
  | _, _ => none

/-- R54, type 1000: bits 4 and 10 select test only or increment, and plain or reverse sense. -/
def zeroSkipForm (increment reverse : Bool) (r : Reg) (n : Int) : Instr :=
  match increment, reverse, r with
  | false, false, .A => .sza n
  | false, false, .B => .szb n
  | false, true, .A => .rza n
  | false, true, .B => .rzb n
  | true, false, .A => .sia n
  | true, false, .B => .sib n
  | true, true, .A => .ria n
  | true, true, .B => .rib n

/-- R54, types 1001 to 1011: the bit tests of A and B with their alter bits. -/
def bitSkipForm (type : Nat) (r : Reg) (n : Int) (s c : Bool) : Option Instr :=
  match type, r with
  | 0b1001, .A => some (.sla n s c)
  | 0b1001, .B => some (.slb n s c)
  | 0b1010, .A => some (.sam n s c)
  | 0b1010, .B => some (.sbm n s c)
  | 0b1011, .A => some (.sap n s c)
  | 0b1011, .B => some (.sbp n s c)
  | _, _ => none

/-- R55, R63: the register forms by operation code; STA, STB, ISZ, DSZ, JSM and JMP have no direct one. Operations 1110
and 1111 are none of them. -/
def registerForm (op : Nat) (r : Reg) (i : Bool) : Option (Except DecodeError Instr) :=
  match op with
  | 0 => some (.ok (.adaReg r i))
  | 1 => some (.ok (.adbReg r i))
  | 2 => some (.ok (.cpaReg r i))
  | 3 => some (.ok (.cpbReg r i))
  | 4 => some (.ok (.ldaReg r i))
  | 5 => some (.ok (.ldbReg r i))
  | 6 => some (if i then .ok (.staReg r) else .error .directRegisterRestricted)
  | 7 => some (if i then .ok (.stbReg r) else .error .directRegisterRestricted)
  | 8 => some (.ok (.iorReg r i))
  | 9 => some (if i then .ok (.iszReg r) else .error .directRegisterRestricted)
  | 10 => some (.ok (.andReg r i))
  | 11 => some (if i then .ok (.dszReg r) else .error .directRegisterRestricted)
  | 12 => some (if i then .ok (.jsmReg r) else .error .directRegisterRestricted)
  | 13 => some (if i then .ok (.jmpReg r) else .error .jmpDirectRegister)
  | _ => none

/-- The instruction one of the 23 names stands for (R66). -/
def instrOfUnencoded : Config.Unencoded → Instr
  | .cma => .cma
  | .cmb => .cmb
  | .tca => .tca
  | .tcb => .tcb
  | .exa => .exa
  | .exb => .exb
  | .dma => .dma
  | .ret => .ret
  | .mov => .mov
  | .clr => .clr
  | .xfr => .xfr
  | .mrx => .mrx
  | .mry => .mry
  | .mls => .mls
  | .drs => .drs
  | .dls => .dls
  | .fxa => .fxa
  | .fmp => .fmp
  | .fdv => .fdv
  | .cmx => .cmx
  | .cmy => .cmy
  | .mdi => .mdi
  | .nrm => .nrm

/-- R60 `Unassigned(w)`: the word is looked up in ENC_UNKNOWN; if it is not there it is refused (R62, R66). -/
def decodeUnassigned (plat : Config.Platform) (w : Word) : Except DecodeError Instr :=
  match plat.encUnknown.find? (fun row => w &&& row.mask == row.pattern) with
  | some row => .ok (instrOfUnencoded row.instr)
  | none => .error .unassigned

/-- R58: a 1 in a "-" position refuses the word under DASH_BITS = strict and is masked out under ignore. -/
def dashRefused (plat : Config.Platform) (dashes : Bool) : Bool :=
  dashes && (match plat.dashBits with | .strict => true | .ignore => false)

/-- R58: the "-" positions of a register-reference word, bits 10 and 9, masked out. -/
def withoutRegisterDashes (w : Word) : Word := w &&& 0xF9FF#16

/-- R60: formats SR, AS and RR, in the 07xxxx space, by bits 3:0 (R61). -/
def decodeRegisterSpace (plat : Config.Platform) (w : Word) : Except DecodeError Instr :=
  let type := (w.extractLsb' 0 4).toNat
  match type with
  | 0b0000 | 0b0010 | 0b0100 | 0b0110 =>
    if dashRefused plat (wordBit w 10 || wordBit w 9 || wordBit w 4) then .error .dashBit
    else match shiftForm type (regOf w) (shiftCodeOf w) with
      | some i => .ok i
      | none => .error .unassigned
  | 0b1000 => .ok (zeroSkipForm (wordBit w 4) (wordBit w 10) (regOf w) (skipOf w))
  | 0b1001 | 0b1010 | 0b1011 =>
    match bitSkipForm type (regOf w) (skipOf w) (wordBit w 10) (wordBit w 4) with
    | some i => .ok i
    | none => .error .unassigned
  | 0b1100 =>
    if dashRefused plat (wordBit w 11) then .error .dashBit
    else .ok (.ses (skipOf w) (wordBit w 10) (wordBit w 4))
  | 0b1101 =>
    if dashRefused plat (wordBit w 11) then .error .dashBit
    else .ok (.sec (skipOf w) (wordBit w 10) (wordBit w 4))
  | 0b1111 =>
    if dashRefused plat (wordBit w 10 || wordBit w 9) then .error .dashBit
    else match registerForm (w.extractLsb' 4 4).toNat (regOf w) (wordBit w 8) with
      | some result => result
      | none => decodeUnassigned plat (withoutRegisterDashes w)
  | _ => decodeUnassigned plat w

/-- R60: the decoder, total on 16-bit words. -/
def decode (plat : Config.Platform) (w : Word) : Except DecodeError Instr :=
  if w.extractLsb' 12 3 = 0b111#3 then
    if wordBit w 15 then decodeUnassigned plat w else decodeRegisterSpace plat w
  else
    match memForm (w.extractLsb' 11 4).toNat (memRefOf w) with
    | some i => .ok i
    | none => .error .unassigned

/-! ## The encoder -/

/-- R52: A is 0, B is 1. -/
def regBit : Reg → BitVec 1
  | .A => 0#1
  | .B => 1#1

/-- R52: zero page is 0, current page is 1. -/
def pageBit : Page → BitVec 1
  | .zero => 0#1
  | .current => 1#1

/-- Format MR (R51). -/
def mrWord (op : BitVec 4) (ref : MemRef) : Word :=
  BitVec.ofBool ref.indirect ++ op ++ pageBit ref.page ++ ref.addr

/-- Format SR (R53), the "-" positions 0. -/
def srWord (r : Reg) (code type : BitVec 4) : Word :=
  0b0111#4 ++ regBit r ++ 0b00#2 ++ code ++ 0b0#1 ++ type

/-- R56: the code of a count, for all but SAL and SBL. -/
def shiftCode (n : Nat) : BitVec 4 := BitVec.ofNat 4 (n - 1)

/-- R56: the complementary code of SAL and SBL. -/
def shiftCodeLeft (n : Nat) : BitVec 4 := BitVec.ofNat 4 (16 - n)

/-- Format AS (R54), the skip distance in five bits (R57). -/
def asWord (r : Reg) (s : Bool) (n : Int) (c : Bool) (type : BitVec 4) : Word :=
  0b0111#4 ++ regBit r ++ BitVec.ofBool s ++ BitVec.ofInt 5 n ++ BitVec.ofBool c ++ type

/-- Format RR (R55), the "-" positions 0. -/
def rrWord (op : BitVec 4) (r : Reg) (i : Bool) : Word :=
  0b0111#4 ++ regBit r ++ 0b00#2 ++ BitVec.ofBool i ++ op ++ 0b1111#4

/-- R66: the canonical word ENC_UNKNOWN gives one of the 23, if it gives one. -/
def unencodedWord (plat : Config.Platform) (u : Config.Unencoded) : Option Word :=
  (plat.encUnknown.find? (fun row => row.instr == u)).map Config.EncRow.pattern

/-- R69: the canonical word of an instruction; none for one of the 23 that ENC_UNKNOWN does not list. -/
def encode (plat : Config.Platform) : Instr → Option Word
  | .ada ref => some (mrWord 0b0000#4 ref)
  | .adb ref => some (mrWord 0b0001#4 ref)
  | .cpa ref => some (mrWord 0b0010#4 ref)
  | .cpb ref => some (mrWord 0b0011#4 ref)
  | .lda ref => some (mrWord 0b0100#4 ref)
  | .ldb ref => some (mrWord 0b0101#4 ref)
  | .sta ref => some (mrWord 0b0110#4 ref)
  | .stb ref => some (mrWord 0b0111#4 ref)
  | .ior ref => some (mrWord 0b1000#4 ref)
  | .isz ref => some (mrWord 0b1001#4 ref)
  | .and ref => some (mrWord 0b1010#4 ref)
  | .dsz ref => some (mrWord 0b1011#4 ref)
  | .jsm ref => some (mrWord 0b1100#4 ref)
  | .jmp ref => some (mrWord 0b1101#4 ref)
  | .aar n => some (srWord .A (shiftCode n) 0b0000#4)
  | .abr n => some (srWord .B (shiftCode n) 0b0000#4)
  | .sar n => some (srWord .A (shiftCode n) 0b0010#4)
  | .sbr n => some (srWord .B (shiftCode n) 0b0010#4)
  | .sal n => some (srWord .A (shiftCodeLeft n) 0b0100#4)
  | .sbl n => some (srWord .B (shiftCodeLeft n) 0b0100#4)
  | .rar n => some (srWord .A (shiftCode n) 0b0110#4)
  | .rbr n => some (srWord .B (shiftCode n) 0b0110#4)
  | .sza n => some (asWord .A false n false 0b1000#4)
  | .szb n => some (asWord .B false n false 0b1000#4)
  | .rza n => some (asWord .A true n false 0b1000#4)
  | .rzb n => some (asWord .B true n false 0b1000#4)
  | .sia n => some (asWord .A false n true 0b1000#4)
  | .sib n => some (asWord .B false n true 0b1000#4)
  | .ria n => some (asWord .A true n true 0b1000#4)
  | .rib n => some (asWord .B true n true 0b1000#4)
  | .sla n s c => some (asWord .A s n c 0b1001#4)
  | .slb n s c => some (asWord .B s n c 0b1001#4)
  | .sam n s c => some (asWord .A s n c 0b1010#4)
  | .sbm n s c => some (asWord .B s n c 0b1010#4)
  | .sap n s c => some (asWord .A s n c 0b1011#4)
  | .sbp n s c => some (asWord .B s n c 0b1011#4)
  | .ses n s c => some (asWord .A s n c 0b1100#4)
  | .sec n s c => some (asWord .A s n c 0b1101#4)
  | .adaReg r i => some (rrWord 0b0000#4 r i)
  | .adbReg r i => some (rrWord 0b0001#4 r i)
  | .cpaReg r i => some (rrWord 0b0010#4 r i)
  | .cpbReg r i => some (rrWord 0b0011#4 r i)
  | .ldaReg r i => some (rrWord 0b0100#4 r i)
  | .ldbReg r i => some (rrWord 0b0101#4 r i)
  | .staReg r => some (rrWord 0b0110#4 r true)
  | .stbReg r => some (rrWord 0b0111#4 r true)
  | .iorReg r i => some (rrWord 0b1000#4 r i)
  | .iszReg r => some (rrWord 0b1001#4 r true)
  | .andReg r i => some (rrWord 0b1010#4 r i)
  | .dszReg r => some (rrWord 0b1011#4 r true)
  | .jsmReg r => some (rrWord 0b1100#4 r true)
  | .jmpReg r => some (rrWord 0b1101#4 r true)
  | .cma => unencodedWord plat .cma
  | .cmb => unencodedWord plat .cmb
  | .tca => unencodedWord plat .tca
  | .tcb => unencodedWord plat .tcb
  | .exa => unencodedWord plat .exa
  | .exb => unencodedWord plat .exb
  | .dma => unencodedWord plat .dma
  | .ret => unencodedWord plat .ret
  | .mov => unencodedWord plat .mov
  | .clr => unencodedWord plat .clr
  | .xfr => unencodedWord plat .xfr
  | .mrx => unencodedWord plat .mrx
  | .mry => unencodedWord plat .mry
  | .mls => unencodedWord plat .mls
  | .drs => unencodedWord plat .drs
  | .dls => unencodedWord plat .dls
  | .fxa => unencodedWord plat .fxa
  | .fmp => unencodedWord plat .fmp
  | .fdv => unencodedWord plat .fdv
  | .cmx => unencodedWord plat .cmx
  | .cmy => unencodedWord plat .cmy
  | .mdi => unencodedWord plat .mdi
  | .nrm => unencodedWord plat .nrm

/-! ## The opcode table -/

/-- The `match` and `mask` of the instruction's row in spec/opcode_table.json (R69); none for the 23 rows without. -/
def opcodeRow : Instr → Option (Word × Word)
  | .ada _ => some (0x0000#16, 0x7800#16)
  | .adb _ => some (0x0800#16, 0x7800#16)
  | .cpa _ => some (0x1000#16, 0x7800#16)
  | .cpb _ => some (0x1800#16, 0x7800#16)
  | .lda _ => some (0x2000#16, 0x7800#16)
  | .ldb _ => some (0x2800#16, 0x7800#16)
  | .sta _ => some (0x3000#16, 0x7800#16)
  | .stb _ => some (0x3800#16, 0x7800#16)
  | .ior _ => some (0x4000#16, 0x7800#16)
  | .isz _ => some (0x4800#16, 0x7800#16)
  | .and _ => some (0x5000#16, 0x7800#16)
  | .dsz _ => some (0x5800#16, 0x7800#16)
  | .jsm _ => some (0x6000#16, 0x7800#16)
  | .jmp _ => some (0x6800#16, 0x7800#16)
  | .aar _ => some (0x7000#16, 0xFE1F#16)
  | .abr _ => some (0x7800#16, 0xFE1F#16)
  | .sar _ => some (0x7002#16, 0xFE1F#16)
  | .sbr _ => some (0x7802#16, 0xFE1F#16)
  | .sal _ => some (0x7004#16, 0xFE1F#16)
  | .sbl _ => some (0x7804#16, 0xFE1F#16)
  | .rar _ => some (0x7006#16, 0xFE1F#16)
  | .rbr _ => some (0x7806#16, 0xFE1F#16)
  | .sza _ => some (0x7008#16, 0xFC1F#16)
  | .szb _ => some (0x7808#16, 0xFC1F#16)
  | .rza _ => some (0x7408#16, 0xFC1F#16)
  | .rzb _ => some (0x7C08#16, 0xFC1F#16)
  | .sia _ => some (0x7018#16, 0xFC1F#16)
  | .sib _ => some (0x7818#16, 0xFC1F#16)
  | .ria _ => some (0x7418#16, 0xFC1F#16)
  | .rib _ => some (0x7C18#16, 0xFC1F#16)
  | .sla _ _ _ => some (0x7009#16, 0xF80F#16)
  | .slb _ _ _ => some (0x7809#16, 0xF80F#16)
  | .sam _ _ _ => some (0x700A#16, 0xF80F#16)
  | .sbm _ _ _ => some (0x780A#16, 0xF80F#16)
  | .sap _ _ _ => some (0x700B#16, 0xF80F#16)
  | .sbp _ _ _ => some (0x780B#16, 0xF80F#16)
  | .ses _ _ _ => some (0x700C#16, 0xF80F#16)
  | .sec _ _ _ => some (0x700D#16, 0xF80F#16)
  | .adaReg _ _ => some (0x700F#16, 0xF6FF#16)
  | .adbReg _ _ => some (0x701F#16, 0xF6FF#16)
  | .cpaReg _ _ => some (0x702F#16, 0xF6FF#16)
  | .cpbReg _ _ => some (0x703F#16, 0xF6FF#16)
  | .ldaReg _ _ => some (0x704F#16, 0xF6FF#16)
  | .ldbReg _ _ => some (0x705F#16, 0xF6FF#16)
  | .staReg _ => some (0x716F#16, 0xF7FF#16)
  | .stbReg _ => some (0x717F#16, 0xF7FF#16)
  | .iorReg _ _ => some (0x708F#16, 0xF6FF#16)
  | .iszReg _ => some (0x719F#16, 0xF7FF#16)
  | .andReg _ _ => some (0x70AF#16, 0xF6FF#16)
  | .dszReg _ => some (0x71BF#16, 0xF7FF#16)
  | .jsmReg _ => some (0x71CF#16, 0xF7FF#16)
  | .jmpReg _ => some (0x71DF#16, 0xF7FF#16)
  | .cma | .cmb | .tca | .tcb | .exa | .exb | .dma | .ret => none
  | .mov | .clr | .xfr | .mrx | .mry | .mls | .drs | .dls => none
  | .fxa | .fmp | .fdv | .cmx | .cmy | .mdi | .nrm => none

/-- The instruction the decoder reads, on the default platform, from an opcode-table word of `nbits` bits (every
instruction is one word, R50: bits above the word do not exist, and bits above `nbits` are 0). -/
def decodeTableWord (nbits w : Nat) : Option Instr :=
  match decode Config.defaultPlatform (BitVec.ofNat 16 (w % 2 ^ nbits)) with
  | .ok i => some i
  | .error _ => none

end Sys2Proof
end

