-- ==== Sys2Proof/Machine/State.lean ====
section
/-! DEFINITION. The machine's state (10_state.md R23), the reasons a step has no next state (60_exceptions.md R211) and
the state after reset (70_reset_and_hazards.md R230). -/

namespace Sys2Proof.Machine

/-- Memory (R21, R30): 2^15 words, each held as two cells, bits 15:8 of the word at address a under key 2a and bits 7:0
under 2a + 1. No instruction can observe the halves (R35; log 4). -/
abbrev Memory := List Host.Cell

/-- What a cell that the list does not name holds (log 3: DESIGN CHOICE, R230 leaves every word unspecified). -/
def unlistedByte : BitVec 8 := 0#8

/-- One more than the largest cell key: two cells for each of R31's 2^15 words. -/
def cellCount : Nat := 65536

/-- The canonical form from key `low` on: keys rising, below `cellCount`, and no cell that holds what an unlisted one
reads as. -/
def Memory.wfFrom (low : Nat) : Memory → Bool
  | [] => true
  | (k, v) :: rest => low ≤ k && k < cellCount && v != unlistedByte && Memory.wfFrom (k + 1) rest

/-- The canonical form of a memory: equal memories are equal lists. -/
def Memory.wf (mem : Memory) : Bool := Memory.wfFrom 0 mem

/-- The complete state. The first eight fields are R23's tuple; `plat` and `freeCount` are the model's own. -/
structure State where
  /-- A, a general register (R10). -/
  a : Word
  /-- B, a general register (R10). -/
  b : Word
  /-- E, the carry and overflow register (R12). -/
  e : Nibble
  /-- P, the program counter: between instructions and during one, the address of the instruction (R13). -/
  p : Word
  /-- M, the memory address register: equal to P between instructions (R14). -/
  m : Word
  /-- Memory, with the stack pointer word, AR1 and AR2 in it (R17, R18, R21). -/
  mem : Memory
  /-- `dma_wait`: a DMA instruction stopped the processor and nothing has released it yet (R20). -/
  dmaWait : Bool
  /-- The parameters of 00_scope.md R4, which no step changes (log 1). -/
  plat : Config.Platform
  /-- How many free values have been drawn (log 8). -/
  freeCount : Nat
  deriving DecidableEq, Repr

/-- The steps that never complete: R211's `Hang`, and the wait of R20. The machine stays as it is for ever, so no
statement about a later state is lost: safe. -/
inductive Fault where
  /-- FDV whose additions never overflow, an AR1 mantissa of zero (44_mac.md R191, D20). Raised by FDV. Safe. -/
  | hangFdv
  /-- EXA or EXB whose chain of executed words never leaves EXA and EXB (43 R164, D21). Raised by EXA, EXB. Safe. -/
  | hangExecute
  /-- A cycle of pointers under INDIRECT_CHAIN = multilevel (20_memory.md R37). Raised by every indirect form. Safe. -/
  | hangIndirect
  /-- `dma_wait` is set and no DMA control is fitted to clear it (R20). Raised by the step itself. Safe. -/
  | hangDma
  deriving DecidableEq, Repr

/-- The cases the spec gives no meaning, by R211's names. Each is safe: what the hardware does there, no statement says
(00_scope.md R6). `notModelled` names an instruction this model has no meaning for. -/
inductive Refusal where
  /-- Raised by exec for an instruction without a meaning. Safe. No arm raises it. -/
  | notModelled (mnemonic : String)
  /-- An access, the fetch included, at an address with bit 15 set (R31). Raised by every memory access. Safe. -/
  | addressBit15
  /-- A read of Absent memory, a write of ROM or Absent memory (R33). Raised by every memory access. Safe. -/
  | memmap
  /-- A pointer with bit 15 set under INDIRECT_CHAIN = refuse (R37). Raised by every indirect form. Safe. -/
  | indirectBit15
  /-- A word no instruction has (R62). Raised by the decoder: the step, EXA, EXB. Safe. -/
  | unassigned
  /-- A 1 in a "-" position under DASH_BITS = strict (R58). Raised by the decoder. Safe. -/
  | dashBit
  /-- STA, STB, ISZ, DSZ or JSM of a register, direct (R63, R96). Raised by the decoder. Safe. -/
  | directRegisterRestricted
  /-- JMP A or JMP B, direct (R63, R96). Raised by the decoder. Safe. -/
  | jmpDirectRegister
  /-- JSM with the stack pointer at 0o1777, RET with it at 0o2000 (R94, R180). Raised by JSM, RET. Safe. -/
  | stackAliasesSp
  /-- DMA with no DMA control fitted (R166). Raised by DMA. Safe. -/
  | dmaUnmodelled
  /-- A mantissa digit of 10 to 15 in decimal arithmetic (R196). Raised by FXA, FMP, FDV, CMX, CMY, MDI. Safe. -/
  | nonBcdDigit
  /-- A decimal carry-in from an E that is neither 0000 nor 1111 (R197). Raised by FXA, FMP, FDV. Safe. -/
  | dcUndefined
  /-- A shift count of zero (R184). Raised by MRX, MRY. Safe. -/
  | mrxCountZero
  /-- Source and destination partly overlap (R183). Raised by XFR. Safe. -/
  | xfrOverlap
  deriving DecidableEq, Repr

/-- R230 `InitialState`: any A, B, E, P, memory and parameters, with `dma_wait` false and M = P. -/
def State.initial (plat : Config.Platform) (a b : Word) (e : Nibble) (p : Word) (mem : Memory) : State where
  a := a
  b := b
  e := e
  p := p
  m := p
  mem := mem
  dmaWait := false
  plat := plat
  freeCount := 0

/-- The state after reset: R230 with R4's default parameters, and zero for what R230 leaves unspecified (log 2, log 3). -/
def State.reset : State := State.initial Config.defaultPlatform 0#16 0#16 0#4 0#16 []

end Sys2Proof.Machine
end

