-- ==== Sys2Proof/Machine/Ops.lean ====
section
/-! DEFINITION. The named operations over registers and memory: results that may stop, cells and words, MemMap and the
checked accesses of 20_memory.md (R31, R33, R34), the end of an instruction (R13), free values, and the words of the
four-word floating-point registers (R18, R19). The machine takes no exception and returns from none (R210, R214, R215):
there is no such operation. -/

namespace Sys2Proof.Machine

/-- Why an operation has no result: a fault or a refusal. -/
inductive Stop where
  | fault (f : Fault)
  | refused (r : Refusal)
  deriving DecidableEq, Repr

/-- A result, or the reason there is none. -/
abbrev Res (α : Type) := Except Stop α

/-- A step's outcome, in the host's three cases. -/
abbrev Out := Host.Outcome State Fault Refusal

/-- The operation is refused for a reason of R211. -/
def refuse {α : Type} (r : Refusal) : Res α := .error (.refused r)

/-- The operation never completes (R6 `raise Hang`). -/
def hang {α : Type} (f : Fault) : Res α := .error (.fault f)

/-- The outcome that a result stands for. -/
def outcome : Res State → Out
  | .ok s => .next s
  | .error (.fault f) => .fault f
  | .error (.refused r) => .refused r

/-! ## Registers -/

/-- R6 `x[r]`. -/
def State.reg (s : State) : Reg → Word
  | .A => s.a
  | .B => s.b

/-- R6 `x[r] <- v`. -/
def State.setReg (s : State) (r : Reg) (v : Word) : State :=
  match r with
  | .A => { s with a := v }
  | .B => { s with b := v }

/-- `E <- v` (R12). -/
def State.setE (s : State) (v : Nibble) : State := { s with e := v }

/-- The end of an instruction: `P <- NextP; M <- NextP` (R13, R14, R15). -/
def State.goto (s : State) (nextP : Word) : State := { s with p := nextP, m := nextP }

/-- R13: `NextP = P + 1`, modulo 2^16. -/
def State.advance (s : State) : State := s.goto (s.p + 1#16)

/-- R15: at the fetch, `M <- P`. -/
def State.loadM (s : State) : State := { s with m := s.p }

/-! ## Memory cells and words -/

/-- What a cell holds. -/
def Memory.readCell : Memory → Nat → BitVec 8
  | [], _ => unlistedByte
  | (k, v) :: rest, key => if k = key then v else Memory.readCell rest key

/-- Storing into a cell, in canonical form: a cell that would read as an unlisted one is not listed. -/
def Memory.writeCell : Memory → Nat → BitVec 8 → Memory
  | [], key, v => if v = unlistedByte then [] else [(key, v)]
  | (k, x) :: rest, key, v =>
    if key < k then (if v = unlistedByte then (k, x) :: rest else (key, v) :: (k, x) :: rest)
    else if key = k then (if v = unlistedByte then rest else (key, v) :: rest)
    else (k, x) :: Memory.writeCell rest key v

/-- The word at an address, whatever MemMap says of it: the one place that puts a word's two cells together (log 4). -/
def Memory.readWord (mem : Memory) (addr : Nat) : Word :=
  Memory.readCell mem (2 * addr) ++ Memory.readCell mem (2 * addr + 1)

/-- Storing a word at an address, whatever MemMap says of it. -/
def Memory.writeWord (mem : Memory) (addr : Nat) (v : Word) : Memory :=
  Memory.writeCell (Memory.writeCell mem (2 * addr) (v.extractLsb' 8 8)) (2 * addr + 1) (v.extractLsb' 0 8)

/-! ## MemMap and the checked accesses -/

/-- R33: the nine addresses MemMap must make RW: AR1, AR2 and the stack pointer. -/
def pinnedRw (addr : Nat) : Bool :=
  (0o1744 ≤ addr && addr ≤ 0o1747) || (0o1754 ≤ addr && addr ≤ 0o1757) || addr == 0o1777

/-- R33 `MemMap` (log 13). -/
def memKind (plat : Config.Platform) (addr : Nat) : Config.MemKind :=
  if pinnedRw addr then .rw
  else match plat.memMap.find? (fun region => region.first ≤ addr && addr ≤ region.last) with
    | some region => region.kind
    | none => .rw

/-- R6 `MemRead(addr, 1)`: refused at an address with bit 15 set (R31) and at Absent memory (R33). -/
def memRead (s : State) (addr : Word) : Res Word :=
  if wordBit addr 15 then refuse .addressBit15
  else match memKind s.plat addr.toNat with
    | .absent => refuse .memmap
    | .rw | .rom => .ok (s.mem.readWord addr.toNat)

/-- R6 `MemWrite(addr, 1, v)`: refused at an address with bit 15 set (R31) and at ROM or Absent memory (R33). -/
def memWrite (s : State) (addr v : Word) : Res State :=
  if wordBit addr 15 then refuse .addressBit15
  else match memKind s.plat addr.toNat with
    | .rw => .ok { s with mem := s.mem.writeWord addr.toNat v }
    | .rom | .absent => refuse .memmap

/-! ## Free values -/

/-- `any value` (93 U12): the register takes a value nothing determines, and the next free value is another (log 8). -/
def State.freeReg (s : State) (r : Reg) : State :=
  { s.setReg r (Config.freeWord s.freeCount) with freeCount := s.freeCount + 1 }

/-- A register that a MAC instruction's own "unchanged" list omits: by MAC_UNLISTED_REGS unchanged or any value (D19). -/
def State.unlisted (s : State) (r : Reg) : State :=
  match s.plat.unlistedRegs with
  | .unchanged => s
  | .anyValue => s.freeReg r

/-! ## The four-word floating-point registers -/

/-- R19: the address of mantissa word `i` (0, 1, 2) of the register at `base`: the words beside the exponent word, in
ascending order. -/
def mantAddr (layout : Config.MantLayout) (base : Word) (i : Nat) : Word :=
  base + BitVec.ofNat 16 (if i < layout.exponent.val then i else i + 1)

/-- The twelve nibbles of three mantissa words, the most significant of the first word first. -/
def nibblesOfWords (w1 w2 w3 : Word) : List Nibble :=
  [w1.extractLsb' 12 4, w1.extractLsb' 8 4, w1.extractLsb' 4 4, w1.extractLsb' 0 4,
   w2.extractLsb' 12 4, w2.extractLsb' 8 4, w2.extractLsb' 4 4, w2.extractLsb' 0 4,
   w3.extractLsb' 12 4, w3.extractLsb' 8 4, w3.extractLsb' 4 4, w3.extractLsb' 0 4]

/-- A word from its four nibbles, the most significant first. -/
def wordOfNibbles (n1 n2 n3 n4 : Nibble) : Word := n1 ++ n2 ++ n3 ++ n4

/-- R19: the digits D1 to D12 that twelve nibbles hold under a layout. -/
def digitsOfNibbles (layout : List (Fin 12)) (nibbles : List Nibble) : List Nibble :=
  layout.map (fun place => nibbles.getD place.val 0#4)

/-- R19: the nibble at a place that holds digits D1 to D12 under a layout. -/
def nibbleOfDigits (layout : List (Fin 12)) (digits : List Nibble) (place : Fin 12) : Nibble :=
  digits.getD (layout.idxOf place) 0#4

/-- R6 `Mant(b)`: the digits D1 to D12 of the floating-point register at `base`, three reads (R19). -/
def mant (s : State) (base : Word) : Res (List Nibble) := do
  let layout := s.plat.mantLayout
  let w1 ← memRead s (mantAddr layout base 0)
  let w2 ← memRead s (mantAddr layout base 1)
  let w3 ← memRead s (mantAddr layout base 2)
  pure (digitsOfNibbles layout.digits (nibblesOfWords w1 w2 w3))

/-- R6 `SetMant(b, d)`: writes the digits D1 to D12, three writes (R19). -/
def setMant (s : State) (base : Word) (digits : List Nibble) : Res State := do
  let layout := s.plat.mantLayout
  let at_ := nibbleOfDigits layout.digits digits
  let s ← memWrite s (mantAddr layout base 0) (wordOfNibbles (at_ 0) (at_ 1) (at_ 2) (at_ 3))
  let s ← memWrite s (mantAddr layout base 1) (wordOfNibbles (at_ 4) (at_ 5) (at_ 6) (at_ 7))
  memWrite s (mantAddr layout base 2) (wordOfNibbles (at_ 8) (at_ 9) (at_ 10) (at_ 11))

/-- R199: the unsigned integer D1 D2 ... D12 of a list of digits, the most significant first. -/
def digitsValue (digits : List Nibble) : Nat := digits.foldl (fun value digit => 10 * value + digit.toNat) 0

/-- The `count` low decimal digits of a number, the most significant first. -/
def decimalDigits : Nat → Nat → List Nibble
  | 0, _ => []
  | count + 1, value => decimalDigits count (value / 10) ++ [BitVec.ofNat 4 (value % 10)]

/-- R196: every digit is 0 to 9. -/
def allDecimal (digits : List Nibble) : Bool := digits.all (fun digit => decide (digit.toNat ≤ 9))

/-- R6 `MantVal(b)`, for the instructions that do decimal arithmetic: refused on a digit of 10 to 15 (R196). -/
def mantVal (s : State) (base : Word) : Res Nat := do
  let digits ← mant s base
  if allDecimal digits then pure (digitsValue digits) else refuse .nonBcdDigit

/-- R199 `SetMantVal(b, v)`: writes the twelve low decimal digits of `v`. -/
def setMantVal (s : State) (base : Word) (v : Nat) : Res State := setMant s base (decimalDigits 12 v)

/-- 10^12: one more than the largest mantissa (R199). -/
def mantModulus : Nat := 10 ^ 12

end Sys2Proof.Machine
end

