-- ==== Sys2Proof/Machine/Flags.lean ====
section
/-! DEFINITION. E (10_state.md R12), the machine's only flag-like state: the binary carry, the decimal carry-in and the
decimal overflow; and the tests and alterations of the skips (42_alter_skip.md R130, R131). -/

namespace Sys2Proof.Machine

/-- R82: the 17-bit sum of two words. -/
def sum17 (x y : Word) : BitVec 17 := x.setWidth 17 + y.setWidth 17

/-- R82: E after a binary add: 0001 when a carry leaves bit 15, else what it was. -/
def carryE (e : Nibble) (x y : Word) : Nibble := if (sum17 x y).getLsbD 16 then 0b0001#4 else e

/-- R189, R194: E after a decimal operation: 0001 on overflow, 0000 otherwise. -/
def overflowE (overflow : Bool) : Nibble := if overflow then 0b0001#4 else 0b0000#4

/-- R197: the decimal carry-in, given by the source for two values of E only. -/
def decimalCarryIn (e : Nibble) : Res Nat :=
  if e = 0b0000#4 then pure 0 else if e = 0b1111#4 then pure 1 else refuse .dcUndefined

/-- R131 `Alter(bit)`: set takes precedence over clear; neither leaves the bit. -/
def alterBit (set clear bit : Bool) : Bool := if set then true else if clear then false else bit

/-- R131 for one bit of a word: bit `i` altered, the others as they were. -/
def alterWordBit (set clear : Bool) (i : Nat) (w : Word) : Word :=
  if set then w ||| (1#16 <<< i) else if clear then w &&& ~~~(1#16 <<< i) else w

/-- R131, R146: the altered object of SES and SEC is all of E. -/
def alterE (set clear : Bool) (e : Nibble) : Nibble := if set then 0b1111#4 else if clear then 0b0000#4 else e

/-- R130: `NextP = cond ? P + n : P + 1`, modulo 2^16. -/
def skipTarget (p : Word) (cond : Bool) (n : Int) : Word := if cond then p + BitVec.ofInt 16 n else p + 1#16

/-- R84, R91: the compare and count skips go to P + 2 or P + 1. -/
def skipNextTarget (p : Word) (cond : Bool) : Word := if cond then p + 2#16 else p + 1#16

end Sys2Proof.Machine
end

