-- ==== Sys2Proof/Machine/AlterSkip.lean ====
section
/-! DEFINITION. The Alter-Skip Group (42_alter_skip.md R130 to R147). -/

namespace Sys2Proof.Machine

/-- R132 to R135: a skip that changes no register. -/
def testEffect (s : State) (cond : Bool) (n : Int) : State := s.goto (skipTarget s.p cond n)

/-- R136 to R139: the register is tested, then incremented, skip or not. -/
def testIncrementEffect (s : State) (r : Reg) (cond : Bool) (n : Int) : State :=
  (s.setReg r (s.reg r + 1#16)).goto (skipTarget s.p cond n)

/-- R140 to R145: a bit of the register is tested, then altered, skip or not (R131). -/
def testAlterEffect (s : State) (r : Reg) (bit : Nat) (cond set clear : Bool) (n : Int) : State :=
  (s.setReg r (alterWordBit set clear bit (s.reg r))).goto (skipTarget s.p cond n)

/-- R146, R147: bit 0 of E is tested, then all of E altered, skip or not (R131). -/
def testAlterEEffect (s : State) (cond set clear : Bool) (n : Int) : State :=
  (s.setE (alterE set clear s.e)).goto (skipTarget s.p cond n)

/-- SZA (R132): skip if A is zero. -/
def execSza (n : Int) (s : State) : Out := .next (testEffect s (s.a == 0#16) n)

/-- SZB (R133): skip if B is zero. -/
def execSzb (n : Int) (s : State) : Out := .next (testEffect s (s.b == 0#16) n)

/-- RZA (R134): skip if A is not zero. -/
def execRza (n : Int) (s : State) : Out := .next (testEffect s (s.a != 0#16) n)

/-- RZB (R135): skip if B is not zero. -/
def execRzb (n : Int) (s : State) : Out := .next (testEffect s (s.b != 0#16) n)

/-- SIA (R136): skip if A is zero, then increment A. -/
def execSia (n : Int) (s : State) : Out := .next (testIncrementEffect s .A (s.a == 0#16) n)

/-- SIB (R137): skip if B is zero, then increment B. -/
def execSib (n : Int) (s : State) : Out := .next (testIncrementEffect s .B (s.b == 0#16) n)

/-- RIA (R138): skip if A is not zero, then increment A. -/
def execRia (n : Int) (s : State) : Out := .next (testIncrementEffect s .A (s.a != 0#16) n)

/-- RIB (R139): skip if B is not zero, then increment B. -/
def execRib (n : Int) (s : State) : Out := .next (testIncrementEffect s .B (s.b != 0#16) n)

/-- SLA (R140): skip if bit 0 of A is zero; the tested bit is altered after the test. -/
def execSla (n : Int) (set clear : Bool) (s : State) : Out :=
  .next (testAlterEffect s .A 0 (!wordBit s.a 0) set clear n)

/-- SLB (R141): skip if bit 0 of B is zero; the tested bit is altered after the test. -/
def execSlb (n : Int) (set clear : Bool) (s : State) : Out :=
  .next (testAlterEffect s .B 0 (!wordBit s.b 0) set clear n)

/-- SAM (R142): skip if A is minus; the tested bit is altered after the test. -/
def execSam (n : Int) (set clear : Bool) (s : State) : Out :=
  .next (testAlterEffect s .A 15 (wordBit s.a 15) set clear n)

/-- SBM (R143): skip if B is minus; the tested bit is altered after the test. -/
def execSbm (n : Int) (set clear : Bool) (s : State) : Out :=
  .next (testAlterEffect s .B 15 (wordBit s.b 15) set clear n)

/-- SAP (R144): skip if A is positive; the tested bit is altered after the test. -/
def execSap (n : Int) (set clear : Bool) (s : State) : Out :=
  .next (testAlterEffect s .A 15 (!wordBit s.a 15) set clear n)

/-- SBP (R145): skip if B is positive; the tested bit is altered after the test. -/
def execSbp (n : Int) (set clear : Bool) (s : State) : Out :=
  .next (testAlterEffect s .B 15 (!wordBit s.b 15) set clear n)

/-- SES (R146): skip if bit 0 of E is set; all of E is altered after the test. -/
def execSes (n : Int) (set clear : Bool) (s : State) : Out :=
  .next (testAlterEEffect s (s.e.getLsbD 0) set clear n)

/-- SEC (R147): skip if bit 0 of E is clear; all of E is altered after the test. -/
def execSec (n : Int) (set clear : Bool) (s : State) : Out :=
  .next (testAlterEEffect s (!s.e.getLsbD 0) set clear n)

end Sys2Proof.Machine
end

