-- ==== Sys2Proof/Machine/Complement.lean ====
section
/-! DEFINITION. The complements and DMA of the Complement-Execute-DMA Group (43_complement_execute_dma.md R160 to R163,
R166). EXA and EXB, which run another instruction, are in Machine/Execute.lean. -/

namespace Sys2Proof.Machine

/-- R160, R161: every bit inverted. -/
def onesComplement (x : Word) : Word := ~~~x

/-- R162, R163: the one's complement incremented by one, modulo 2^16. -/
def twosComplement (x : Word) : Word := ~~~x + 1#16

/-- The register is replaced; E is left as it was (D7; log 17). -/
def replaceEffect (s : State) (r : Reg) (v : Word) : State := (s.setReg r v).advance

/-- CMA (R160): one's complement of A. -/
def execCma (s : State) : Out := .next (replaceEffect s .A (onesComplement s.a))

/-- CMB (R161): one's complement of B. -/
def execCmb (s : State) : Out := .next (replaceEffect s .B (onesComplement s.b))

/-- TCA (R162): two's complement of A. -/
def execTca (s : State) : Out := .next (replaceEffect s .A (twosComplement s.a))

/-- TCB (R163): two's complement of B. -/
def execTcb (s : State) : Out := .next (replaceEffect s .B (twosComplement s.b))

/-- R166: A, then B, handed over through M; the processor then waits, P still at the DMA instruction (log 9). -/
def dmaHandOver (s : State) : State := { s with m := s.b, dmaWait := true }

/-- DMA (R166): refused with no DMA control fitted, the default; with one, `dma_wait <- true`. -/
def execDma (s : State) : Out :=
  match s.plat.dmaAgent with
  | .absent => .refused .dmaUnmodelled
  | .fitted => .next (dmaHandOver s)

/-- The words a DMA control stored: an address outside memory (R31) or not RW (R33) keeps its content. -/
def dmaStores (plat : Config.Platform) (mem : Memory) : List (Word × Word) → Memory
  | [] => mem
  | (addr, v) :: rest =>
    if wordBit addr 15 then dmaStores plat mem rest
    else match memKind plat addr.toNat with
      | .rw => dmaStores plat (mem.writeWord addr.toNat v) rest
      | .rom | .absent => dmaStores plat mem rest

/-- The state a release of the DMA control leaves: registers, memory and the place to go on at are all the control's. -/
def dmaReleased (s : State) (r : Config.DmaRelease) : State :=
  { s with a := r.a, b := r.b, e := r.e, p := r.p, m := r.p, mem := dmaStores s.plat s.mem r.writes, dmaWait := false,
           freeCount := s.freeCount + 1 }

/-- R20: while `dma_wait` is set the processor has no step; only the DMA control can clear it. A fitted control goes on
waiting or releases, which of the two and how being free (log 9); without one nothing ever happens. -/
def dmaWaiting (s : State) : Out :=
  match s.plat.dmaAgent with
  | .absent => .fault .hangDma
  | .fitted =>
    match Config.dmaRelease s.freeCount s.a s.b with
    | none => .next { s with freeCount := s.freeCount + 1 }
    | some r => .next (dmaReleased s r)

end Sys2Proof.Machine
end

