-- ==== Sys2Proof/Machine/Mac.lean ====
section
/-! DEFINITION. The MAC Instruction Group (44_mac.md R180 to R199). -/

namespace Sys2Proof.Machine

/-! ## Return, overflow move, clear, transfer -/

/-- RET (R180): the word at the highest occupied stack address goes to P, which the end of the instruction increments. -/
def execRet (s : State) : Out := outcome do
  let sp ← memRead s Config.spAddr
  if sp - 1#16 = Config.spAddr then refuse .stackAliasesSp
  else
    let v ← memRead s (sp - 1#16)
    let s' ← memWrite s Config.spAddr (sp - 1#16)
    pure (s'.goto (v + 1#16))

/-- MOV (R181): E to A, zero-extended, and E cleared. -/
def execMov (s : State) : Out := .next ((s.setReg .A (s.e.setWidth 16)).setE 0b0000#4).advance

/-- R182, R198: zero into the four words from `base` on, in ascending order. -/
def clearFour (s : State) (base : Word) : Res State := do
  let s ← memWrite s base 0#16
  let s ← memWrite s (base + 1#16) 0#16
  let s ← memWrite s (base + 2#16) 0#16
  memWrite s (base + 3#16) 0#16

/-- CLR (R182): clears the floating-point register at the address in A. -/
def execClr (s : State) : Out := outcome do
  let s' ← clearFour s s.a
  pure s'.advance

/-- R183: one word copied. -/
def copyWord (s : State) (source dest : Word) : Res State := do
  let v ← memRead s source
  memWrite s dest v

/-- R183, R198: four words copied in ascending order (log 32). -/
def copyFour (s : State) (source dest : Word) : Res State := do
  let s ← copyWord s source dest
  let s ← copyWord s (source + 1#16) (dest + 1#16)
  let s ← copyWord s (source + 2#16) (dest + 2#16)
  copyWord s (source + 3#16) (dest + 3#16)

/-- R183: the two four-word ranges overlap without being equal, 0 < abs(A - B) < 4. -/
def partlyOverlap (x y : Word) : Bool := x != y && x.toNat < y.toNat + 4 && y.toNat < x.toNat + 4

/-- XFR (R183): copies the floating-point register at the address in A to the address in B. DESIGN CHOICE (log 35): the
partial overlap is tested before the first access, where R183 and R213 give the test no place among the accesses. -/
def execXfr (s : State) : Out := outcome do
  if partlyOverlap s.a s.b then refuse .xfrOverlap
  else
    let s' ← copyFour s s.a s.b
    pure ((s'.unlisted .A).unlisted .B).advance

/-! ## Mantissa shifts -/

/-- R184: `n` right shifts of the digits; the first takes `fill` into D1, the others zero; with the last digit shifted
out of D12 (`out` when there is no shift). -/
def shiftDigitsRight : Nat → Nibble → List Nibble → Nibble → List Nibble × Nibble
  | 0, _, digits, out => (digits, out)
  | n + 1, fill, digits, _ => shiftDigitsRight n 0#4 (fill :: digits.dropLast) (digits.getLastD 0#4)

/-- R184, R185: the mantissa at `base` shifted right B[3:0] times; the digit in is A[3:0], the digit out goes to A. -/
def shiftRightEffect (s : State) (base : Word) : Res State := do
  let n := (s.b.extractLsb' 0 4).toNat
  if n = 0 then refuse .mrxCountZero
  else
    let digits ← mant s base
    let shifted := shiftDigitsRight n (s.a.extractLsb' 0 4) digits 0#4
    let s' ← setMant s base shifted.1
    pure (((s'.setReg .A (shifted.2.setWidth 16)).setReg .B (s.b &&& 0xFFF0#16)).setE 0b0000#4).advance

/-- MRX (R184): AR1 mantissa shifted right n times. -/
def execMrx (s : State) : Out := outcome (shiftRightEffect s Config.ar1Base)

/-- MRY (R185): AR2 mantissa shifted right n times. -/
def execMry (s : State) : Out := outcome (shiftRightEffect s Config.ar2Base)

/-- R186, R188: the mantissa at `base` shifted left once, `fill` into D12, D1 to A; E cleared. -/
def shiftLeftEffect (s : State) (base : Word) (fill : Nibble) : Res State := do
  let digits ← mant s base
  let s' ← setMant s base (digits.tail ++ [fill])
  pure ((s'.setReg .A ((digits.headD 0#4).setWidth 16)).setE 0b0000#4).advance

/-- MLS (R186): AR2 mantissa shifted left once, zero into D12. -/
def execMls (s : State) : Out := outcome (shiftLeftEffect s Config.ar2Base 0#4)

/-- DRS (R187): AR1 mantissa shifted right once, zero into D1, D12 to A; E cleared. -/
def execDrs (s : State) : Out := outcome do
  let digits ← mant s Config.ar1Base
  let s' ← setMant s Config.ar1Base (0#4 :: digits.dropLast)
  pure ((s'.setReg .A ((digits.getLastD 0#4).setWidth 16)).setE 0b0000#4).advance

/-- DLS (R188): AR1 mantissa shifted left once, A[3:0] into D12. -/
def execDls (s : State) : Out := outcome (shiftLeftEffect s Config.ar1Base (s.a.extractLsb' 0 4))

/-! ## Decimal arithmetic -/

/-- FXA (R189): AR2 + AR1 + DC to AR2; overflow to E. -/
def execFxa (s : State) : Out := outcome do
  let dc ← decimalCarryIn s.e
  let v2 ← mantVal s Config.ar2Base
  let v1 ← mantVal s Config.ar1Base
  let v := v2 + v1 + dc
  let s' ← setMantVal s Config.ar2Base (v % mantModulus)
  pure ((s'.setE (overflowE (decide (mantModulus ≤ v)))).unlisted .A).advance

/-- FMP (R190): AR2 + B[3:0] * AR1 + DC to AR2; the number of overflows to A; E cleared. -/
def execFmp (s : State) : Out := outcome do
  let dc ← decimalCarryIn s.e
  let v2 ← mantVal s Config.ar2Base
  let v1 ← mantVal s Config.ar1Base
  let v := v2 + (s.b.extractLsb' 0 4).toNat * v1 + dc
  let s' ← setMantVal s Config.ar2Base (v % mantModulus)
  pure (((s'.setReg .A (BitVec.ofNat 16 (v / mantModulus))).setE 0b0000#4).unlisted .B).advance

/-- R191's loop as the spec writes it, at most `fuel` additions: the number of additions without overflow counted on
from `counted`, and AR2 at the end. -/
def fdvLoop : Nat → Nat → Nat → Nat → Nat → Option (Nat × Nat)
  | 0, _, _, _, _ => none
  | fuel + 1, v1, v2, c, counted =>
    let v := v2 + v1 + c
    if mantModulus ≤ v then some (counted, v % mantModulus)
    else fdvLoop fuel v1 (v % mantModulus) 0 (counted + 1)

/-- R191's closed form of the loop: additions counted and AR2 at the end, or none where the loop never ends. -/
def fdvResult (v1 v2 dc : Nat) : Option (Nat × Nat) :=
  let sum := v2 + dc
  if mantModulus ≤ sum then some (0, v1)
  else if v1 = 0 then none
  else
    let q := (mantModulus - 1 - sum) / v1
    some (q, sum + (q + 1) * v1 - mantModulus)

/-- FDV (R191): AR1 added to AR2 until the first overflow; B counts the additions without one; E cleared. -/
def execFdv (s : State) : Out := outcome do
  let dc ← decimalCarryIn s.e
  let v1 ← mantVal s Config.ar1Base
  let v2 ← mantVal s Config.ar2Base
  match fdvResult v1 v2 dc with
  | none => hang .hangFdv
  | some (counted, rest) =>
    let s' ← setMantVal s Config.ar2Base rest
    pure (((s'.setReg .B (s.b + BitVec.ofNat 16 counted)).setE 0b0000#4).unlisted .A).advance

/-- R192, R193: the mantissa at `base` replaced by its ten's complement; E cleared. -/
def tensComplementEffect (s : State) (base : Word) : Res State := do
  let v ← mantVal s base
  let s' ← setMantVal s base ((mantModulus - v) % mantModulus)
  pure ((s'.setE 0b0000#4).unlisted .A).advance

/-- CMX (R192): ten's complement of the AR1 mantissa. -/
def execCmx (s : State) : Out := outcome (tensComplementEffect s Config.ar1Base)

/-- CMY (R193): ten's complement of the AR2 mantissa. -/
def execCmy (s : State) : Out := outcome (tensComplementEffect s Config.ar2Base)

/-- R198: the four words of the register at `base` are touched in ascending order, so that one that cannot be read refuses
the instruction, the exponent word too (log 10). -/
def touchFour (s : State) (base : Word) : Res Unit := do
  let _ ← memRead s base
  let _ ← memRead s (base + 1#16)
  let _ ← memRead s (base + 2#16)
  let _ ← memRead s (base + 3#16)
  pure ()

/-- MDI (R194, R198): decimal one added to the mantissa at the address in A; on overflow the result is 10^11. -/
def execMdi (s : State) : Out := outcome do
  touchFour s s.a
  let v ← mantVal s s.a
  let overflow := decide (v = mantModulus - 1)
  let s' ← setMantVal s s.a (if overflow then 10 ^ 11 else v + 1)
  pure ((s'.setE (overflowE overflow)).unlisted .A).advance

/-- R195's loop: rotate left while D1 is zero, at most `fuel` times, counting on from `count`. -/
def normalizeDigits : Nat → List Nibble → Nat → List Nibble × Nat
  | 0, digits, count => (digits, count)
  | fuel + 1, digits, count =>
    if digits.headD 0#4 = 0#4 then normalizeDigits fuel (digits.tail ++ [digits.headD 0#4]) (count + 1)
    else (digits, count)

/-- NRM (R195): AR2 mantissa rotated left until D1 is not zero, at most twelve times; the count to B. -/
def execNrm (s : State) : Out := outcome do
  let digits ← mant s Config.ar2Base
  let normal := normalizeDigits 12 digits 0
  let s' ← setMant s Config.ar2Base normal.1
  pure ((s'.setReg .B (BitVec.ofNat 16 normal.2)).setE (overflowE (normal.2 == 12))).advance

end Sys2Proof.Machine
end

