-- ==== Sys2Proof/Machine/Operands.lean ====
section
/-! DEFINITION. The operand location of the memory reference instructions: the memory form (40_memory_reference.md R80),
the register form (R81), and indirect pointers (20_memory.md R37). -/

namespace Sys2Proof.Machine

/-- The address a pointer word names, bit 15 dropped (R37). -/
def pointerAddress (pointer : Word) : Word := (pointer.extractLsb' 0 15).setWidth 16

/-- R37 `Deref` under INDIRECT_CHAIN = multilevel, at most `fuel` further reads. -/
def derefChain (s : State) : Nat → Word → Res Word
  | 0, pointer => if wordBit pointer 15 then hang .hangIndirect else pure pointer
  | fuel + 1, pointer =>
    if wordBit pointer 15 then do
      let next ← memRead s (pointerAddress pointer)
      derefChain s fuel next
    else pure pointer

/-- The number of words a chain of pointers can visit before it must be a cycle: every address (R31; log 14). -/
def chainLimit : Nat := 32768

/-- R37 `Deref`: bit 15 of a pointer by INDIRECT_CHAIN. -/
def deref (s : State) (pointer : Word) : Res Word :=
  if wordBit pointer 15 then
    match s.plat.indirectChain with
    | .refuse => refuse .indirectBit15
    | .ignoreBit15 => pure (pointerAddress pointer)
    | .multilevel => derefChain s chainLimit pointer
  else pure pointer

/-- R80 `ea0`: `m` in page zero, or in the page of the instruction, whose address is in P. -/
def directAddress (p : Word) (ref : MemRef) : Word :=
  match ref.page with
  | .zero => 0b000000#6 ++ ref.addr
  | .current => p.extractLsb' 10 6 ++ ref.addr

/-- R80: the address of a memory form's operand location. -/
def memFormAddress (s : State) (ref : MemRef) : Res Word :=
  if ref.indirect then do
    let pointer ← memRead s (directAddress s.p ref)
    deref s pointer
  else pure (directAddress s.p ref)

/-- R81: the address of a register form's operand location when the form is indirect. -/
def regFormAddress (s : State) (r : Reg) : Res Word := deref s (s.reg r)

/-- R80, R81 `Read(Loc)` for a memory form. -/
def memOperand (s : State) (ref : MemRef) : Res Word := do
  let addr ← memFormAddress s ref
  memRead s addr

/-- R81 `Read(Loc)` for a register form: the register itself, or the word whose address it holds. -/
def regOperand (s : State) (r : Reg) (indirect : Bool) : Res Word :=
  if indirect then do
    let addr ← regFormAddress s r
    memRead s addr
  else pure (s.reg r)

end Sys2Proof.Machine
end

