-- ==== Sys2Proof/Machine/MemoryReference.lean ====
section
/-! DEFINITION. The Memory Reference Group (40_memory_reference.md R82 to R95): each instruction in its memory form and
in its register form, over the effect the two forms share. -/

namespace Sys2Proof.Machine

/-! ## The shared effects, on the operand's value or address -/

/-- R82, R83: the operand is added to a register; a carry leaves 0001 in E. -/
def addEffect (s : State) (r : Reg) (v : Word) : State :=
  ((s.setReg r (s.reg r + v)).setE (carryE s.e (s.reg r) v)).advance

/-- R84, R85: the next instruction is skipped when the operand and the register differ. -/
def compareEffect (s : State) (r : Reg) (v : Word) : State :=
  s.goto (skipNextTarget s.p (v != s.reg r))

/-- R86, R87: the register takes the operand. -/
def loadEffect (s : State) (r : Reg) (v : Word) : State := (s.setReg r v).advance

/-- R90: inclusive or into A. -/
def orEffect (s : State) (v : Word) : State := (s.setReg .A (s.a ||| v)).advance

/-- R92: and into A. -/
def andEffect (s : State) (v : Word) : State := (s.setReg .A (s.a &&& v)).advance

/-- R88, R89: a register is stored into the operand location. -/
def storeEffect (s : State) (r : Reg) (addr : Word) : Res State := do
  let s' ← memWrite s addr (s.reg r)
  pure s'.advance

/-- R91, R93: a count is added to the operand location, always written back; zero skips the next instruction. -/
def countEffect (s : State) (count addr : Word) : Res State := do
  let old ← memRead s addr
  let s' ← memWrite s addr (old + count)
  pure (s'.goto (skipNextTarget s.p (old + count == 0#16)))

/-- R94: the address of this JSM is pushed on the stack and control goes to the target. -/
def callEffect (s : State) (target : Word) : Res State := do
  let sp ← memRead s Config.spAddr
  if sp = Config.spAddr then refuse .stackAliasesSp
  else
    let s' ← memWrite s sp s.p
    let s'' ← memWrite s' Config.spAddr (sp + 1#16)
    pure (s''.goto target)

/-! ## Memory forms -/

/-- ADA (R82): add to A. -/
def execAda (ref : MemRef) (s : State) : Out := outcome do
  let v ← memOperand s ref
  pure (addEffect s .A v)

/-- ADB (R83): add to B. -/
def execAdb (ref : MemRef) (s : State) : Out := outcome do
  let v ← memOperand s ref
  pure (addEffect s .B v)

/-- CPA (R84): compare to A, skip if unequal. -/
def execCpa (ref : MemRef) (s : State) : Out := outcome do
  let v ← memOperand s ref
  pure (compareEffect s .A v)

/-- CPB (R85): compare to B, skip if unequal. -/
def execCpb (ref : MemRef) (s : State) : Out := outcome do
  let v ← memOperand s ref
  pure (compareEffect s .B v)

/-- LDA (R86): load A. -/
def execLda (ref : MemRef) (s : State) : Out := outcome do
  let v ← memOperand s ref
  pure (loadEffect s .A v)

/-- LDB (R87): load B. -/
def execLdb (ref : MemRef) (s : State) : Out := outcome do
  let v ← memOperand s ref
  pure (loadEffect s .B v)

/-- STA (R88): store A. -/
def execSta (ref : MemRef) (s : State) : Out := outcome do
  let addr ← memFormAddress s ref
  storeEffect s .A addr

/-- STB (R89): store B. -/
def execStb (ref : MemRef) (s : State) : Out := outcome do
  let addr ← memFormAddress s ref
  storeEffect s .B addr

/-- IOR (R90): inclusive or to A. -/
def execIor (ref : MemRef) (s : State) : Out := outcome do
  let v ← memOperand s ref
  pure (orEffect s v)

/-- ISZ (R91): increment, skip if zero. -/
def execIsz (ref : MemRef) (s : State) : Out := outcome do
  let addr ← memFormAddress s ref
  countEffect s 1#16 addr

/-- AND (R92): and to A. -/
def execAnd (ref : MemRef) (s : State) : Out := outcome do
  let v ← memOperand s ref
  pure (andEffect s v)

/-- DSZ (R93): decrement, skip if zero. -/
def execDsz (ref : MemRef) (s : State) : Out := outcome do
  let addr ← memFormAddress s ref
  countEffect s (-1#16) addr

/-- JSM (R94): jump to subroutine. -/
def execJsm (ref : MemRef) (s : State) : Out := outcome do
  let addr ← memFormAddress s ref
  callEffect s addr

/-- JMP (R95): jump. -/
def execJmp (ref : MemRef) (s : State) : Out := outcome do
  let addr ← memFormAddress s ref
  pure (s.goto addr)

/-! ## Register forms -/

/-- ADA of a register or of the word it points at (R81, R82). -/
def execAdaReg (r : Reg) (i : Bool) (s : State) : Out := outcome do
  let v ← regOperand s r i
  pure (addEffect s .A v)

/-- ADB of a register or of the word it points at (R81, R83). -/
def execAdbReg (r : Reg) (i : Bool) (s : State) : Out := outcome do
  let v ← regOperand s r i
  pure (addEffect s .B v)

/-- CPA of a register or of the word it points at (R81, R84). -/
def execCpaReg (r : Reg) (i : Bool) (s : State) : Out := outcome do
  let v ← regOperand s r i
  pure (compareEffect s .A v)

/-- CPB of a register or of the word it points at (R81, R85). -/
def execCpbReg (r : Reg) (i : Bool) (s : State) : Out := outcome do
  let v ← regOperand s r i
  pure (compareEffect s .B v)

/-- LDA of a register or of the word it points at (R81, R86). -/
def execLdaReg (r : Reg) (i : Bool) (s : State) : Out := outcome do
  let v ← regOperand s r i
  pure (loadEffect s .A v)

/-- LDB of a register or of the word it points at (R81, R87). -/
def execLdbReg (r : Reg) (i : Bool) (s : State) : Out := outcome do
  let v ← regOperand s r i
  pure (loadEffect s .B v)

/-- STA through a register, indirect only (R81, R88, R96). -/
def execStaReg (r : Reg) (s : State) : Out := outcome do
  let addr ← regFormAddress s r
  storeEffect s .A addr

/-- STB through a register, indirect only (R81, R89, R96). -/
def execStbReg (r : Reg) (s : State) : Out := outcome do
  let addr ← regFormAddress s r
  storeEffect s .B addr

/-- IOR of a register or of the word it points at (R81, R90). -/
def execIorReg (r : Reg) (i : Bool) (s : State) : Out := outcome do
  let v ← regOperand s r i
  pure (orEffect s v)

/-- ISZ through a register, indirect only (R81, R91, R96). -/
def execIszReg (r : Reg) (s : State) : Out := outcome do
  let addr ← regFormAddress s r
  countEffect s 1#16 addr

/-- AND of a register or of the word it points at (R81, R92). -/
def execAndReg (r : Reg) (i : Bool) (s : State) : Out := outcome do
  let v ← regOperand s r i
  pure (andEffect s v)

/-- DSZ through a register, indirect only (R81, R93, R96). -/
def execDszReg (r : Reg) (s : State) : Out := outcome do
  let addr ← regFormAddress s r
  countEffect s (-1#16) addr

/-- JSM through a register, indirect only (R81, R94, R96). -/
def execJsmReg (r : Reg) (s : State) : Out := outcome do
  let addr ← regFormAddress s r
  callEffect s addr

/-- JMP through a register, indirect only (R81, R95, R96). -/
def execJmpReg (r : Reg) (s : State) : Out := outcome do
  let addr ← regFormAddress s r
  pure (s.goto addr)

end Sys2Proof.Machine
end

