-- ==== Sys2Proof/Machine/ShiftRotate.lean ====
section
/-! DEFINITION. The Shift-Rotate Group (41_shift_rotate.md R110 to R118). No shift touches E (D7; log 17). -/

namespace Sys2Proof.Machine

/-- R111: right shift, the sign bit filling the vacated bits. -/
def arithmeticRight (x : Word) (n : Nat) : Word := x.sshiftRight n

/-- R113: right shift, the vacated bits cleared. -/
def logicalRight (x : Word) (n : Nat) : Word := x >>> n

/-- R115: left shift, the vacated bits cleared. -/
def logicalLeft (x : Word) (n : Nat) : Word := x <<< n

/-- R117: right rotation, bit 0 going round to bit 15. -/
def rotatedRight (x : Word) (n : Nat) : Word := x.rotateRight n

/-- The register is replaced by its shifted content; P advances. -/
def shiftEffect (s : State) (r : Reg) (shifted : Word) : State := (s.setReg r shifted).advance

/-- AAR (R111): arithmetic right shift of A. -/
def execAar (n : Nat) (s : State) : Out := .next (shiftEffect s .A (arithmeticRight s.a n))

/-- ABR (R112): arithmetic right shift of B. -/
def execAbr (n : Nat) (s : State) : Out := .next (shiftEffect s .B (arithmeticRight s.b n))

/-- SAR (R113): right shift of A. -/
def execSar (n : Nat) (s : State) : Out := .next (shiftEffect s .A (logicalRight s.a n))

/-- SBR (R114): right shift of B. -/
def execSbr (n : Nat) (s : State) : Out := .next (shiftEffect s .B (logicalRight s.b n))

/-- SAL (R115): left shift of A. -/
def execSal (n : Nat) (s : State) : Out := .next (shiftEffect s .A (logicalLeft s.a n))

/-- SBL (R116): left shift of B. -/
def execSbl (n : Nat) (s : State) : Out := .next (shiftEffect s .B (logicalLeft s.b n))

/-- RAR (R117): right rotation of A. -/
def execRar (n : Nat) (s : State) : Out := .next (shiftEffect s .A (rotatedRight s.a n))

/-- RBR (R118): right rotation of B. -/
def execRbr (n : Nat) (s : State) : Out := .next (shiftEffect s .B (rotatedRight s.b n))

end Sys2Proof.Machine
end

