-- ==== Sys2Proof/Machine/Execute.lean ====
section
/-! DEFINITION. Executing a word (43_complement_execute_dma.md R164, R165): EXA, EXB, and what the step does with a
word the decoder refuses. -/

namespace Sys2Proof.Machine

/-- R211: the refusal of a word that is no instruction. -/
def refusalOf : DecodeError → Refusal
  | .unassigned => .unassigned
  | .dashBit => .dashBit
  | .directRegisterRestricted => .directRegisterRestricted
  | .jmpDirectRegister => .jmpDirectRegister

/-- The meaning of every instruction but EXA and EXB, for those two to run. Their own arms are never reached:
`executeWord` follows a word that is EXA or EXB itself. -/
def execPlain (i : Instr) (s : State) : Out :=
  match i with
  | .ada ref => execAda ref s
  | .adb ref => execAdb ref s
  | .cpa ref => execCpa ref s
  | .cpb ref => execCpb ref s
  | .lda ref => execLda ref s
  | .ldb ref => execLdb ref s
  | .sta ref => execSta ref s
  | .stb ref => execStb ref s
  | .ior ref => execIor ref s
  | .isz ref => execIsz ref s
  | .and ref => execAnd ref s
  | .dsz ref => execDsz ref s
  | .jsm ref => execJsm ref s
  | .jmp ref => execJmp ref s
  | .aar n => execAar n s
  | .abr n => execAbr n s
  | .sar n => execSar n s
  | .sbr n => execSbr n s
  | .sal n => execSal n s
  | .sbl n => execSbl n s
  | .rar n => execRar n s
  | .rbr n => execRbr n s
  | .sza n => execSza n s
  | .szb n => execSzb n s
  | .rza n => execRza n s
  | .rzb n => execRzb n s
  | .sia n => execSia n s
  | .sib n => execSib n s
  | .ria n => execRia n s
  | .rib n => execRib n s
  | .sla n set clear => execSla n set clear s
  | .slb n set clear => execSlb n set clear s
  | .sam n set clear => execSam n set clear s
  | .sbm n set clear => execSbm n set clear s
  | .sap n set clear => execSap n set clear s
  | .sbp n set clear => execSbp n set clear s
  | .ses n set clear => execSes n set clear s
  | .sec n set clear => execSec n set clear s
  | .adaReg r i => execAdaReg r i s
  | .adbReg r i => execAdbReg r i s
  | .cpaReg r i => execCpaReg r i s
  | .cpbReg r i => execCpbReg r i s
  | .ldaReg r i => execLdaReg r i s
  | .ldbReg r i => execLdbReg r i s
  | .staReg r => execStaReg r s
  | .stbReg r => execStbReg r s
  | .iorReg r i => execIorReg r i s
  | .iszReg r => execIszReg r s
  | .andReg r i => execAndReg r i s
  | .dszReg r => execDszReg r s
  | .jsmReg r => execJsmReg r s
  | .jmpReg r => execJmpReg r s
  | .cma => execCma s
  | .cmb => execCmb s
  | .tca => execTca s
  | .tcb => execTcb s
  | .exa => .fault .hangExecute
  | .exb => .fault .hangExecute
  | .dma => execDma s
  | .ret => execRet s
  | .mov => execMov s
  | .clr => execClr s
  | .xfr => execXfr s
  | .mrx => execMrx s
  | .mry => execMry s
  | .mls => execMls s
  | .drs => execDrs s
  | .dls => execDls s
  | .fxa => execFxa s
  | .fmp => execFmp s
  | .fdv => execFdv s
  | .cmx => execCmx s
  | .cmy => execCmy s
  | .mdi => execMdi s
  | .nrm => execNrm s

/-- R164: a word is executed in the normal manner, P keeping the address of the EXA or EXB. A word that is EXA or EXB
executes A or B in turn; none of them changes a register, so a chain that has not ended within two words of A and B
never ends (log 15). -/
def executeWord : Nat → State → Word → Out
  | 0, _, _ => .fault .hangExecute
  | fuel + 1, s, w =>
    match decode s.plat w with
    | .error e => .refused (refusalOf e)
    | .ok .exa => executeWord fuel s s.a
    | .ok .exb => executeWord fuel s s.b
    | .ok i => execPlain i s

/-- EXA (R164): the content of A is the current instruction. -/
def execExa (s : State) : Out := executeWord 2 s s.a

/-- EXB (R165): the content of B is the current instruction. -/
def execExb (s : State) : Out := executeWord 2 s s.b

/-- R15: the fetch at P, and the decoding of what it gives (R60). -/
def fetchInstr (s : State) : Res Instr := do
  let w ← memRead s s.p
  match decode s.plat w with
  | .ok i => pure i
  | .error e => refuse (refusalOf e)

/-- Where a word must stand to be fetched next: at P, or at 0 when P is no address (R31). -/
def fetchAddress (s : State) : Word := if wordBit s.p 15 then 0#16 else s.p

/-- The platform on which an address can be fetched from: MemMap as it is, unless it makes the address Absent (R33). -/
def fetchablePlatform (plat : Config.Platform) (addr : Word) : Config.Platform :=
  match memKind plat addr.toNat with
  | .absent => { plat with memMap := ⟨addr.toNat, addr.toNat, .rw⟩ :: plat.memMap }
  | .rw | .rom => plat

end Sys2Proof.Machine
end

