-- ==== Sys2Proof/Machine/Dispatch.lean ====
section
/-! DEFINITION. Which definition gives each instruction its meaning. -/

namespace Sys2Proof.Machine

/-- One instruction, at the state whose P is its address. -/
def exec (i : Instr) (s : State) : Host.Outcome State Fault Refusal :=
  match i with
  | .ada ref => Sys2Proof.Machine.execAda ref s
  | .adb ref => Sys2Proof.Machine.execAdb ref s
  | .cpa ref => Sys2Proof.Machine.execCpa ref s
  | .cpb ref => Sys2Proof.Machine.execCpb ref s
  | .lda ref => Sys2Proof.Machine.execLda ref s
  | .ldb ref => Sys2Proof.Machine.execLdb ref s
  | .sta ref => Sys2Proof.Machine.execSta ref s
  | .stb ref => Sys2Proof.Machine.execStb ref s
  | .ior ref => Sys2Proof.Machine.execIor ref s
  | .isz ref => Sys2Proof.Machine.execIsz ref s
  | .and ref => Sys2Proof.Machine.execAnd ref s
  | .dsz ref => Sys2Proof.Machine.execDsz ref s
  | .jsm ref => Sys2Proof.Machine.execJsm ref s
  | .jmp ref => Sys2Proof.Machine.execJmp ref s
  | .aar n => Sys2Proof.Machine.execAar n s
  | .abr n => Sys2Proof.Machine.execAbr n s
  | .sar n => Sys2Proof.Machine.execSar n s
  | .sbr n => Sys2Proof.Machine.execSbr n s
  | .sal n => Sys2Proof.Machine.execSal n s
  | .sbl n => Sys2Proof.Machine.execSbl n s
  | .rar n => Sys2Proof.Machine.execRar n s
  | .rbr n => Sys2Proof.Machine.execRbr n s
  | .sza n => Sys2Proof.Machine.execSza n s
  | .szb n => Sys2Proof.Machine.execSzb n s
  | .rza n => Sys2Proof.Machine.execRza n s
  | .rzb n => Sys2Proof.Machine.execRzb n s
  | .sia n => Sys2Proof.Machine.execSia n s
  | .sib n => Sys2Proof.Machine.execSib n s
  | .ria n => Sys2Proof.Machine.execRia n s
  | .rib n => Sys2Proof.Machine.execRib n s
  | .sla n set clear => Sys2Proof.Machine.execSla n set clear s
  | .slb n set clear => Sys2Proof.Machine.execSlb n set clear s
  | .sam n set clear => Sys2Proof.Machine.execSam n set clear s
  | .sbm n set clear => Sys2Proof.Machine.execSbm n set clear s
  | .sap n set clear => Sys2Proof.Machine.execSap n set clear s
  | .sbp n set clear => Sys2Proof.Machine.execSbp n set clear s
  | .ses n set clear => Sys2Proof.Machine.execSes n set clear s
  | .sec n set clear => Sys2Proof.Machine.execSec n set clear s
  | .adaReg r ind => Sys2Proof.Machine.execAdaReg r ind s
  | .adbReg r ind => Sys2Proof.Machine.execAdbReg r ind s
  | .cpaReg r ind => Sys2Proof.Machine.execCpaReg r ind s
  | .cpbReg r ind => Sys2Proof.Machine.execCpbReg r ind s
  | .ldaReg r ind => Sys2Proof.Machine.execLdaReg r ind s
  | .ldbReg r ind => Sys2Proof.Machine.execLdbReg r ind s
  | .staReg r => Sys2Proof.Machine.execStaReg r s
  | .stbReg r => Sys2Proof.Machine.execStbReg r s
  | .iorReg r ind => Sys2Proof.Machine.execIorReg r ind s
  | .iszReg r => Sys2Proof.Machine.execIszReg r s
  | .andReg r ind => Sys2Proof.Machine.execAndReg r ind s
  | .dszReg r => Sys2Proof.Machine.execDszReg r s
  | .jsmReg r => Sys2Proof.Machine.execJsmReg r s
  | .jmpReg r => Sys2Proof.Machine.execJmpReg r s
  | .cma => Sys2Proof.Machine.execCma s
  | .cmb => Sys2Proof.Machine.execCmb s
  | .tca => Sys2Proof.Machine.execTca s
  | .tcb => Sys2Proof.Machine.execTcb s
  | .exa => Sys2Proof.Machine.execExa s
  | .exb => Sys2Proof.Machine.execExb s
  | .dma => Sys2Proof.Machine.execDma s
  | .ret => Sys2Proof.Machine.execRet s
  | .mov => Sys2Proof.Machine.execMov s
  | .clr => Sys2Proof.Machine.execClr s
  | .xfr => Sys2Proof.Machine.execXfr s
  | .mrx => Sys2Proof.Machine.execMrx s
  | .mry => Sys2Proof.Machine.execMry s
  | .mls => Sys2Proof.Machine.execMls s
  | .drs => Sys2Proof.Machine.execDrs s
  | .dls => Sys2Proof.Machine.execDls s
  | .fxa => Sys2Proof.Machine.execFxa s
  | .fmp => Sys2Proof.Machine.execFmp s
  | .fdv => Sys2Proof.Machine.execFdv s
  | .cmx => Sys2Proof.Machine.execCmx s
  | .cmy => Sys2Proof.Machine.execCmy s
  | .mdi => Sys2Proof.Machine.execMdi s
  | .nrm => Sys2Proof.Machine.execNrm s

end Sys2Proof.Machine
end

