-- ==== Sys2Proof/Machine/Step.lean ====
section
/-! DEFINITION. One step of the machine (10_state.md R15, R20), and the state that runs a given word next. -/

namespace Sys2Proof.Machine

/-- R15: fetch at P, `M <- P`, decode, execute; while `dma_wait` is set, the wait of R20 instead. -/
def step (s : State) : Host.Outcome State Fault Refusal :=
  if s.dmaWait then dmaWaiting s
  else match fetchInstr s with
    | .ok i => exec i s.loadM
    | .error (.fault f) => .fault f
    | .error (.refused r) => .refused r

/-- The state with an instruction's word stored at P, where the next step fetches: how a program is loaded from outside
(log 5). The word is put there whatever MemMap says, as R230's InitialState may. Only where nothing could be fetched at P
does more change: a DMA wait ends, an Absent P becomes readable, a P with bit 15 set becomes 0. -/
def State.withFetchWord (s : State) (nbits w : Nat) : State :=
  { s with
    p := fetchAddress s
    m := fetchAddress s
    mem := s.mem.writeWord (fetchAddress s).toNat (BitVec.ofNat 16 (w % 2 ^ nbits))
    dmaWait := false
    plat := fetchablePlatform s.plat (fetchAddress s) }

end Sys2Proof.Machine
end

