-- ==== Sys2Proof/Safety.lean ====
section
/-! DEFINITION. What claims about the machine speak of: the invariant of its states, words of memory and which of them an
instruction may read and write, and safe runs. -/

namespace Sys2Proof.Machine

/-- The word at an address, as it stands in memory (R30). -/
def wordAt (s : State) (addr : Word) : Word := s.mem.readWord addr.toNat

/-- A read of this address is not refused (R31, R33). -/
def readable (s : State) (addr : Word) : Prop := wordBit addr 15 = false ∧ memKind s.plat addr.toNat ≠ .absent

/-- A write of this address is not refused (R31, R33). -/
def writable (s : State) (addr : Word) : Prop := wordBit addr 15 = false ∧ memKind s.plat addr.toNat = .rw

/-- Every word of memory is the same in both states, but for the words at the addresses listed. -/
def sameWordsExcept (addrs : List Word) (s t : State) : Prop :=
  ∀ addr : Word, wordBit addr 15 = false → addr ∉ addrs → wordAt t addr = wordAt s addr

/-- The two states have the same A, B, E, `dma_wait`, parameters and count of free values: P, M and memory may differ. -/
def sameRegisters (s t : State) : Prop :=
  t.a = s.a ∧ t.b = s.b ∧ t.e = s.e ∧ t.dmaWait = s.dmaWait ∧ t.plat = s.plat ∧ t.freeCount = s.freeCount

/-- The invariant of the machine's states: memory in canonical form, and M equal to P at every instruction boundary
(R14, R23), that is unless a DMA instruction is waiting. -/
def State.Inv (s : State) : Prop := s.mem.wf = true ∧ (s.dmaWait = false → s.m = s.p)

/-- The three mantissa words of the floating-point register at `base` can be read. -/
def mantReadable (s : State) (base : Word) : Prop :=
  readable s (mantAddr s.plat.mantLayout base 0) ∧ readable s (mantAddr s.plat.mantLayout base 1) ∧
    readable s (mantAddr s.plat.mantLayout base 2)

/-- The three mantissa words of the floating-point register at `base` can be written (and so read). -/
def mantWritable (s : State) (base : Word) : Prop :=
  writable s (mantAddr s.plat.mantLayout base 0) ∧ writable s (mantAddr s.plat.mantLayout base 1) ∧
    writable s (mantAddr s.plat.mantLayout base 2)

/-- The digits D1 to D12 that stand in memory at `base`, under the platform's layout (R19). -/
def digitsAt (s : State) (base : Word) : List Nibble :=
  digitsOfNibbles s.plat.mantLayout.digits
    (nibblesOfWords (wordAt s (mantAddr s.plat.mantLayout base 0)) (wordAt s (mantAddr s.plat.mantLayout base 1))
      (wordAt s (mantAddr s.plat.mantLayout base 2)))

/-- R199 `MantVal` of the digits that stand in memory at `base`. -/
def valueAt (s : State) (base : Word) : Nat := digitsValue (digitsAt s base)

/-- R196: every digit that stands in memory at `base` is 0 to 9. -/
def decimalAt (s : State) (base : Word) : Prop := allDecimal (digitsAt s base) = true

/-- The three addresses of the mantissa words of the register at `base`: the exponent word's is not among them (R19). -/
def mantAddrs (s : State) (base : Word) : List Word :=
  [mantAddr s.plat.mantLayout base 0, mantAddr s.plat.mantLayout base 1, mantAddr s.plat.mantLayout base 2]

/-- R31, R33: the refusal of an access that is not made: address-bit-15 with bit 15 set, else memmap. -/
def accessRefusal (addr : Word) : Refusal := if wordBit addr 15 then .addressBit15 else .memmap

/-- R12's table: the instructions that write E. -/
def writesE : Instr → Bool
  | .ada _ | .adb _ | .adaReg _ _ | .adbReg _ _ => true
  | .ses _ s c | .sec _ s c => s || c
  | .mov | .mrx | .mry | .mls | .drs | .dls | .fxa | .fmp | .fdv | .cmx | .cmy | .mdi | .nrm => true
  | _ => false

/-- R11's table: the instructions that write A. -/
def writesA : Instr → Bool
  | .ada _ | .adaReg _ _ | .lda _ | .ldaReg _ _ | .ior _ | .iorReg _ _ | .and _ | .andReg _ _ => true
  | .aar _ | .sar _ | .sal _ | .rar _ | .sia _ | .ria _ => true
  | .sla _ s c | .sam _ s c | .sap _ s c => s || c
  | .cma | .tca | .mov | .mrx | .mry | .mls | .drs | .dls | .fmp => true
  | _ => false

/-- R11's table: the instructions that write B. -/
def writesB : Instr → Bool
  | .adb _ | .adbReg _ _ | .ldb _ | .ldbReg _ _ => true
  | .abr _ | .sbr _ | .sbl _ | .rbr _ | .sib _ | .rib _ => true
  | .slb _ s c | .sbm _ s c | .sbp _ s c => s || c
  | .cmb | .tcb | .mrx | .mry | .fdv | .nrm => true
  | _ => false

/-- The instructions that work on A, B and E alone, and so complete in every state. -/
def registerOnly : Instr → Bool
  | .aar _ | .abr _ | .sar _ | .sbr _ | .sal _ | .sbl _ | .rar _ | .rbr _ => true
  | .sza _ | .szb _ | .rza _ | .rzb _ | .sia _ | .sib _ | .ria _ | .rib _ => true
  | .sla _ _ _ | .slb _ _ _ | .sam _ _ _ | .sbm _ _ _ | .sap _ _ _ | .sbp _ _ _ | .ses _ _ _ | .sec _ _ _ => true
  | .adaReg _ false | .adbReg _ false | .cpaReg _ false | .cpbReg _ false | .ldaReg _ false | .ldbReg _ false => true
  | .iorReg _ false | .andReg _ false => true
  | .cma | .cmb | .tca | .tcb | .mov => true
  | _ => false

/-- R58: the "-" positions of a word's format, as a mask: bits 10, 9, 4 of SR; bit 11 of SES and SEC; bits 10, 9 of RR. -/
def dashPositions (w : Word) : Word :=
  if w.extractLsb' 12 4 = 0b0111#4 then
    match (w.extractLsb' 0 4).toNat with
    | 0b0000 | 0b0010 | 0b0100 | 0b0110 => 0x0610#16
    | 0b1100 | 0b1101 => 0x0800#16
    | 0b1111 => 0x0600#16
    | _ => 0#16
  else 0#16

/-- A run is safe when no step of it hangs: at every length it has a next state or ends in a refusal of R211. -/
def SafeRun (s : State) : Prop := ∀ (k : Nat) (f : Fault), Sys2Proof.core.run k s ≠ .fault f

end Sys2Proof.Machine
end

