-- ==== Sys2Proof/Laws/State.lean ====
section
/-! SUPPORT. One lemma per field per update of the state, each true by definition. -/

namespace Sys2Proof.Machine

@[simp] theorem reg_A (s : State) : s.reg .A = s.a := rfl
@[simp] theorem reg_B (s : State) : s.reg .B = s.b := rfl

@[simp] theorem setReg_A_a (s : State) (v : Word) : (s.setReg .A v).a = v := rfl
@[simp] theorem setReg_A_b (s : State) (v : Word) : (s.setReg .A v).b = s.b := rfl
@[simp] theorem setReg_B_a (s : State) (v : Word) : (s.setReg .B v).a = s.a := rfl
@[simp] theorem setReg_B_b (s : State) (v : Word) : (s.setReg .B v).b = v := rfl
@[simp] theorem setReg_reg_same (s : State) (r : Reg) (v : Word) : (s.setReg r v).reg r = v := by cases r <;> rfl
@[simp] theorem setReg_e (s : State) (r : Reg) (v : Word) : (s.setReg r v).e = s.e := by cases r <;> rfl
@[simp] theorem setReg_p (s : State) (r : Reg) (v : Word) : (s.setReg r v).p = s.p := by cases r <;> rfl
@[simp] theorem setReg_m (s : State) (r : Reg) (v : Word) : (s.setReg r v).m = s.m := by cases r <;> rfl
@[simp] theorem setReg_mem (s : State) (r : Reg) (v : Word) : (s.setReg r v).mem = s.mem := by cases r <;> rfl
@[simp] theorem setReg_dmaWait (s : State) (r : Reg) (v : Word) : (s.setReg r v).dmaWait = s.dmaWait := by cases r <;> rfl
@[simp] theorem setReg_plat (s : State) (r : Reg) (v : Word) : (s.setReg r v).plat = s.plat := by cases r <;> rfl
@[simp] theorem setReg_freeCount (s : State) (r : Reg) (v : Word) : (s.setReg r v).freeCount = s.freeCount := by
  cases r <;> rfl

@[simp] theorem setE_a (s : State) (v : Nibble) : (s.setE v).a = s.a := rfl
@[simp] theorem setE_b (s : State) (v : Nibble) : (s.setE v).b = s.b := rfl
@[simp] theorem setE_e (s : State) (v : Nibble) : (s.setE v).e = v := rfl
@[simp] theorem setE_p (s : State) (v : Nibble) : (s.setE v).p = s.p := rfl
@[simp] theorem setE_m (s : State) (v : Nibble) : (s.setE v).m = s.m := rfl
@[simp] theorem setE_mem (s : State) (v : Nibble) : (s.setE v).mem = s.mem := rfl
@[simp] theorem setE_dmaWait (s : State) (v : Nibble) : (s.setE v).dmaWait = s.dmaWait := rfl
@[simp] theorem setE_plat (s : State) (v : Nibble) : (s.setE v).plat = s.plat := rfl
@[simp] theorem setE_freeCount (s : State) (v : Nibble) : (s.setE v).freeCount = s.freeCount := rfl

@[simp] theorem goto_a (s : State) (v : Word) : (s.goto v).a = s.a := rfl
@[simp] theorem goto_b (s : State) (v : Word) : (s.goto v).b = s.b := rfl
@[simp] theorem goto_e (s : State) (v : Word) : (s.goto v).e = s.e := rfl
@[simp] theorem goto_p (s : State) (v : Word) : (s.goto v).p = v := rfl
@[simp] theorem goto_m (s : State) (v : Word) : (s.goto v).m = v := rfl
@[simp] theorem goto_mem (s : State) (v : Word) : (s.goto v).mem = s.mem := rfl
@[simp] theorem goto_dmaWait (s : State) (v : Word) : (s.goto v).dmaWait = s.dmaWait := rfl
@[simp] theorem goto_plat (s : State) (v : Word) : (s.goto v).plat = s.plat := rfl
@[simp] theorem goto_freeCount (s : State) (v : Word) : (s.goto v).freeCount = s.freeCount := rfl

@[simp] theorem advance_a (s : State) : s.advance.a = s.a := rfl
@[simp] theorem advance_b (s : State) : s.advance.b = s.b := rfl
@[simp] theorem advance_e (s : State) : s.advance.e = s.e := rfl
@[simp] theorem advance_p (s : State) : s.advance.p = s.p + 1#16 := rfl
@[simp] theorem advance_m (s : State) : s.advance.m = s.p + 1#16 := rfl
@[simp] theorem advance_mem (s : State) : s.advance.mem = s.mem := rfl
@[simp] theorem advance_dmaWait (s : State) : s.advance.dmaWait = s.dmaWait := rfl
@[simp] theorem advance_plat (s : State) : s.advance.plat = s.plat := rfl
@[simp] theorem advance_freeCount (s : State) : s.advance.freeCount = s.freeCount := rfl

@[simp] theorem loadM_a (s : State) : s.loadM.a = s.a := rfl
@[simp] theorem loadM_b (s : State) : s.loadM.b = s.b := rfl
@[simp] theorem loadM_e (s : State) : s.loadM.e = s.e := rfl
@[simp] theorem loadM_p (s : State) : s.loadM.p = s.p := rfl
@[simp] theorem loadM_m (s : State) : s.loadM.m = s.p := rfl
@[simp] theorem loadM_mem (s : State) : s.loadM.mem = s.mem := rfl
@[simp] theorem loadM_dmaWait (s : State) : s.loadM.dmaWait = s.dmaWait := rfl
@[simp] theorem loadM_plat (s : State) : s.loadM.plat = s.plat := rfl
@[simp] theorem loadM_freeCount (s : State) : s.loadM.freeCount = s.freeCount := rfl

/-- M already equals P between instructions, so `M <- P` changes nothing there. -/
theorem loadM_eq_self (s : State) (h : s.m = s.p) : s.loadM = s := by
  cases s; simp_all [State.loadM]

theorem unlisted_unchanged (s : State) (r : Reg) (h : s.plat.unlistedRegs = .unchanged) : s.unlisted r = s := by
  simp [State.unlisted, h]

@[simp] theorem freeReg_e (s : State) (r : Reg) : (s.freeReg r).e = s.e := by cases r <;> rfl
@[simp] theorem freeReg_p (s : State) (r : Reg) : (s.freeReg r).p = s.p := by cases r <;> rfl
@[simp] theorem freeReg_m (s : State) (r : Reg) : (s.freeReg r).m = s.m := by cases r <;> rfl
@[simp] theorem freeReg_mem (s : State) (r : Reg) : (s.freeReg r).mem = s.mem := by cases r <;> rfl
@[simp] theorem freeReg_dmaWait (s : State) (r : Reg) : (s.freeReg r).dmaWait = s.dmaWait := by cases r <;> rfl
@[simp] theorem freeReg_plat (s : State) (r : Reg) : (s.freeReg r).plat = s.plat := by cases r <;> rfl
@[simp] theorem freeReg_A_b (s : State) : (s.freeReg .A).b = s.b := rfl
@[simp] theorem freeReg_B_a (s : State) : (s.freeReg .B).a = s.a := rfl

@[simp] theorem unlisted_e (s : State) (r : Reg) : (s.unlisted r).e = s.e := by unfold State.unlisted; split <;> simp
@[simp] theorem unlisted_p (s : State) (r : Reg) : (s.unlisted r).p = s.p := by unfold State.unlisted; split <;> simp
@[simp] theorem unlisted_m (s : State) (r : Reg) : (s.unlisted r).m = s.m := by unfold State.unlisted; split <;> simp
@[simp] theorem unlisted_mem (s : State) (r : Reg) : (s.unlisted r).mem = s.mem := by unfold State.unlisted; split <;> simp
@[simp] theorem unlisted_dmaWait (s : State) (r : Reg) : (s.unlisted r).dmaWait = s.dmaWait := by
  unfold State.unlisted; split <;> simp
@[simp] theorem unlisted_plat (s : State) (r : Reg) : (s.unlisted r).plat = s.plat := by
  unfold State.unlisted; split <;> simp
@[simp] theorem unlisted_A_b (s : State) : (s.unlisted .A).b = s.b := by unfold State.unlisted; split <;> simp
@[simp] theorem unlisted_B_a (s : State) : (s.unlisted .B).a = s.a := by unfold State.unlisted; split <;> simp

@[simp] theorem dmaHandOver_a (s : State) : (dmaHandOver s).a = s.a := rfl
@[simp] theorem dmaHandOver_b (s : State) : (dmaHandOver s).b = s.b := rfl
@[simp] theorem dmaHandOver_e (s : State) : (dmaHandOver s).e = s.e := rfl
@[simp] theorem dmaHandOver_p (s : State) : (dmaHandOver s).p = s.p := rfl
@[simp] theorem dmaHandOver_m (s : State) : (dmaHandOver s).m = s.b := rfl
@[simp] theorem dmaHandOver_mem (s : State) : (dmaHandOver s).mem = s.mem := rfl
@[simp] theorem dmaHandOver_dmaWait (s : State) : (dmaHandOver s).dmaWait = true := rfl
@[simp] theorem dmaHandOver_plat (s : State) : (dmaHandOver s).plat = s.plat := rfl
@[simp] theorem dmaHandOver_freeCount (s : State) : (dmaHandOver s).freeCount = s.freeCount := rfl

/-! ## Outcomes and results -/

@[simp] theorem outcome_ok (s : State) : outcome (.ok s) = .next s := rfl
@[simp] theorem outcome_refuse (r : Refusal) : outcome (refuse r) = .refused r := rfl
@[simp] theorem outcome_hang (f : Fault) : outcome (hang f) = .fault f := rfl

theorem outcome_next_iff (x : Res State) (s : State) : outcome x = .next s ↔ x = .ok s := by
  match x with
  | .ok t => simp [outcome]
  | .error (.fault f) => simp [outcome]
  | .error (.refused r) => simp [outcome]

/-- A computation in steps answers only when each step answers. -/
theorem res_bind_ok_iff {α β : Type} (x : Res α) (f : α → Res β) (y : β) :
    (x >>= f) = .ok y ↔ ∃ v, x = .ok v ∧ f v = .ok y := by
  cases x <;> simp [bind, Except.bind]

@[simp] theorem res_ok_bind {α β : Type} (v : α) (f : α → Res β) : ((.ok v : Res α) >>= f) = f v := rfl

@[simp] theorem res_pure {α : Type} (v : α) : (pure v : Res α) = .ok v := rfl

@[simp] theorem refuse_ne_ok {α : Type} (r : Refusal) (v : α) : (refuse r : Res α) ≠ .ok v := by simp [refuse]

@[simp] theorem hang_ne_ok {α : Type} (f : Fault) (v : α) : (hang f : Res α) ≠ .ok v := by simp [hang]

end Sys2Proof.Machine
end

