-- ==== Sys2Proof/Laws/Memory.lean ====
section
/-! SUPPORT. Memory keeps its canonical form, and a read after a write gives the value written at its address and the
old value elsewhere. -/

namespace Sys2Proof.Machine

/-! ## Cells -/

@[simp] theorem wfFrom_nil (low : Nat) : Memory.wfFrom low [] = true := rfl

theorem wfFrom_cons (low k : Nat) (v : BitVec 8) (rest : Memory) :
    Memory.wfFrom low ((k, v) :: rest) = true ↔
      low ≤ k ∧ k < cellCount ∧ v ≠ unlistedByte ∧ Memory.wfFrom (k + 1) rest = true := by
  simp [Memory.wfFrom, and_assoc]

theorem wfFrom_mono {low low' : Nat} (h : low' ≤ low) {mem : Memory} (hw : Memory.wfFrom low mem = true) :
    Memory.wfFrom low' mem = true := by
  match mem with
  | [] => rfl
  | (k, v) :: rest =>
    rw [wfFrom_cons] at hw ⊢
    exact ⟨by omega, hw.2⟩

/-- A cell below the first listed one reads as an unlisted cell. -/
theorem readCell_below {low key : Nat} (h : key < low) {mem : Memory} (hw : Memory.wfFrom low mem = true) :
    mem.readCell key = unlistedByte := by
  induction mem generalizing low with
  | nil => rfl
  | cons cell rest ih =>
    obtain ⟨k, v⟩ := cell
    rw [wfFrom_cons] at hw
    rw [Memory.readCell, if_neg (by omega)]
    exact ih (by omega) hw.2.2.2

theorem readCell_writeCell_same {low key : Nat} (v : BitVec 8) {mem : Memory} (hw : Memory.wfFrom low mem = true) :
    (mem.writeCell key v).readCell key = v := by
  induction mem generalizing low with
  | nil =>
    by_cases hv : v = unlistedByte
    · simp [Memory.writeCell, Memory.readCell, hv]
    · simp [Memory.writeCell, Memory.readCell, hv]
  | cons cell rest ih =>
    obtain ⟨k, x⟩ := cell
    have hw' := (wfFrom_cons _ _ _ _).mp hw
    rw [Memory.writeCell]
    split
    · rename_i hlt
      split
      · rename_i hv
        rw [hv]
        exact readCell_below (low := k) hlt ((wfFrom_cons _ _ _ _).mpr ⟨Nat.le_refl _, hw'.2⟩)
      · simp [Memory.readCell]
    · split
      · split
        · rename_i hlt heq hv
          rw [hv]
          exact readCell_below (low := k + 1) (by omega) hw'.2.2.2
        · simp [Memory.readCell]
      · rename_i hlt hne
        rw [Memory.readCell, if_neg (fun h => hne h.symm)]
        exact ih hw'.2.2.2

theorem readCell_writeCell_other {key key' : Nat} (h : key' ≠ key) (v : BitVec 8) (mem : Memory) :
    (mem.writeCell key v).readCell key' = mem.readCell key' := by
  induction mem with
  | nil =>
    simp only [Memory.writeCell]
    split
    · rfl
    · simp [Memory.readCell, Ne.symm h]
  | cons cell rest ih =>
    obtain ⟨k, x⟩ := cell
    rw [Memory.writeCell]
    split
    · split
      · rfl
      · simp [Memory.readCell, Ne.symm h]
    · split
      · rename_i heq
        subst heq
        split
        · simp [Memory.readCell, Ne.symm h]
        · simp [Memory.readCell, Ne.symm h]
      · simp only [Memory.readCell]
        split
        · rfl
        · exact ih

theorem writeCell_wfFrom {low key : Nat} (hlow : low ≤ key) (hkey : key < cellCount) (v : BitVec 8) {mem : Memory}
    (hw : Memory.wfFrom low mem = true) : Memory.wfFrom low (mem.writeCell key v) = true := by
  induction mem generalizing low with
  | nil =>
    simp only [Memory.writeCell]
    split
    · rfl
    · rename_i hv
      exact (wfFrom_cons _ _ _ _).mpr ⟨hlow, hkey, hv, rfl⟩
  | cons cell rest ih =>
    obtain ⟨k, x⟩ := cell
    have hw' := (wfFrom_cons _ _ _ _).mp hw
    rw [Memory.writeCell]
    split
    · rename_i hlt
      split
      · exact hw
      · rename_i hv
        exact (wfFrom_cons _ _ _ _).mpr ⟨hlow, hkey, hv, (wfFrom_cons _ _ _ _).mpr ⟨hlt, hw'.2⟩⟩
    · split
      · rename_i heq
        split
        · exact wfFrom_mono (by omega) hw'.2.2.2
        · rename_i hv
          exact (wfFrom_cons _ _ _ _).mpr ⟨hlow, hkey, hv, by rw [heq]; exact hw'.2.2.2⟩
      · exact (wfFrom_cons _ _ _ _).mpr ⟨hw'.1, hw'.2.1, hw'.2.2.1, ih (by omega) hw'.2.2.2⟩

/-- Two memories in canonical form that read the same in every cell are the same list. -/
theorem memory_ext {low : Nat} {mem mem' : Memory} (hw : Memory.wfFrom low mem = true)
    (hw' : Memory.wfFrom low mem' = true) (h : ∀ key, mem.readCell key = mem'.readCell key) : mem = mem' := by
  induction mem generalizing low mem' with
  | nil =>
    match mem' with
    | [] => rfl
    | (k, v) :: rest =>
      have hv := ((wfFrom_cons _ _ _ _).mp hw').2.2.1
      have := h k
      simp [Memory.readCell] at this
      exact absurd this.symm hv
  | cons cell rest ih =>
    obtain ⟨k, v⟩ := cell
    have hk := (wfFrom_cons _ _ _ _).mp hw
    match mem' with
    | [] =>
      have := h k
      simp [Memory.readCell] at this
      exact absurd this hk.2.2.1
    | (k', v') :: rest' =>
      have hk' := (wfFrom_cons _ _ _ _).mp hw'
      have hkk : k = k' := by
        rcases Nat.lt_trichotomy k k' with hlt | heq | hgt
        · have := h k
          rw [readCell_below (low := k') hlt ((wfFrom_cons _ _ _ _).mpr ⟨Nat.le_refl _, hk'.2⟩)] at this
          simp [Memory.readCell] at this
          exact absurd this hk.2.2.1
        · exact heq
        · have := h k'
          rw [readCell_below (low := k) hgt ((wfFrom_cons _ _ _ _).mpr ⟨Nat.le_refl _, hk.2⟩)] at this
          simp [Memory.readCell] at this
          exact absurd this.symm hk'.2.2.1
      subst hkk
      have hvv : v = v' := by
        have := h k
        simpa [Memory.readCell] using this
      subst hvv
      have hrest : rest = rest' := by
        refine ih hk.2.2.2 hk'.2.2.2 (fun key => ?_)
        by_cases hkey : k = key
        · subst hkey
          rw [readCell_below (Nat.lt_succ_self k) hk.2.2.2, readCell_below (Nat.lt_succ_self k) hk'.2.2.2]
        · have := h key
          simpa [Memory.readCell, hkey] using this
      rw [hrest]

/-! ## Words -/

/-- Storing a word keeps the canonical form. -/
theorem writeWord_wf {addr : Nat} (ha : addr < 32768) (v : Word) {mem : Memory} (hw : mem.wf = true) :
    (mem.writeWord addr v).wf = true := by
  unfold Memory.wf Memory.writeWord
  exact writeCell_wfFrom (Nat.zero_le _) (by unfold cellCount; omega) _
    (writeCell_wfFrom (Nat.zero_le _) (by unfold cellCount; omega) _ hw)

/-- A read gives the word last written at the address. -/
theorem readWord_writeWord_same {addr : Nat} (v : Word) {mem : Memory} (hw : mem.wf = true) (ha : addr < 32768) :
    (mem.writeWord addr v).readWord addr = v := by
  have h1 : Memory.wfFrom 0 (mem.writeCell (2 * addr) (v.extractLsb' 8 8)) = true :=
    writeCell_wfFrom (Nat.zero_le _) (by unfold cellCount; omega) _ hw
  unfold Memory.writeWord Memory.readWord
  rw [readCell_writeCell_other (by omega), readCell_writeCell_same _ hw, readCell_writeCell_same _ h1]
  apply BitVec.eq_of_getLsbD_eq
  intro i hi
  simp only [BitVec.getLsbD_append, BitVec.getLsbD_extractLsb']
  by_cases h8 : i < 8
  · simp [h8]
  · simp [h8, show i - 8 < 8 by omega, show 8 + (i - 8) = i by omega]

/-- A write leaves every other word alone. -/
theorem readWord_writeWord_other {addr addr' : Nat} (h : addr' ≠ addr) (v : Word) (mem : Memory) :
    (mem.writeWord addr v).readWord addr' = mem.readWord addr' := by
  unfold Memory.writeWord Memory.readWord
  rw [readCell_writeCell_other (by omega), readCell_writeCell_other (by omega), readCell_writeCell_other (by omega),
    readCell_writeCell_other (by omega)]

/-- An address without bit 15 is below 2^15. -/
theorem toNat_lt_of_bit15 {addr : Word} (h : wordBit addr 15 = false) : addr.toNat < 32768 := by
  have h1 : addr.msb = false := by rw [BitVec.msb_eq_getLsbD_last]; exact h
  have := BitVec.toNat_lt_of_msb_false h1
  simpa using this

end Sys2Proof.Machine
end

