-- ==== Sys2Proof/Laws/Ops.lean ====
section
/-! SUPPORT. What each shared operation can do, said once: when it answers, and what its answer is. -/

namespace Sys2Proof.Machine

/-! ## The checked accesses -/

/-- R31, R33: a read answers exactly at a readable address, with the word that stands there. -/
theorem memRead_ok_iff (s : State) (addr v : Word) :
    memRead s addr = .ok v ↔ readable s addr ∧ v = wordAt s addr := by
  unfold memRead readable wordAt
  by_cases h : wordBit addr 15 = true
  · simp [h]
  · cases hk : memKind s.plat addr.toNat <;> simp [h] <;> exact eq_comm

theorem memRead_readable {s : State} {addr : Word} (h : readable s addr) : memRead s addr = .ok (wordAt s addr) :=
  (memRead_ok_iff s addr _).mpr ⟨h, rfl⟩

/-- The state after a store, all of whose other fields are as before. -/
def storedAt (s : State) (addr v : Word) : State := { s with mem := s.mem.writeWord addr.toNat v }

/-- R31, R33: a write answers exactly at a writable address, with that word stored and nothing else changed. -/
theorem memWrite_ok_iff (s : State) (addr v : Word) (t : State) :
    memWrite s addr v = .ok t ↔ writable s addr ∧ t = storedAt s addr v := by
  unfold memWrite writable storedAt
  by_cases h : wordBit addr 15 = true
  · simp [h]
  · cases hk : memKind s.plat addr.toNat <;> simp [h] <;> exact eq_comm

theorem memWrite_writable {s : State} {addr : Word} (h : writable s addr) (v : Word) :
    memWrite s addr v = .ok (storedAt s addr v) := (memWrite_ok_iff s addr v _).mpr ⟨h, rfl⟩

/-- R31, R33: where a read is not made, it is refused by name. -/
theorem memRead_not_readable {s : State} {addr : Word} (h : ¬ readable s addr) :
    memRead s addr = refuse (accessRefusal addr) := by
  unfold memRead accessRefusal
  unfold readable at h
  by_cases h15 : wordBit addr 15 = true
  · simp [h15]
  · cases hk : memKind s.plat addr.toNat <;> simp_all

/-- R31, R33: where a write is not made, it is refused by name. -/
theorem memWrite_not_writable {s : State} {addr : Word} (h : ¬ writable s addr) (v : Word) :
    memWrite s addr v = refuse (accessRefusal addr) := by
  unfold memWrite accessRefusal
  unfold writable at h
  by_cases h15 : wordBit addr 15 = true
  · simp [h15]
  · cases hk : memKind s.plat addr.toNat <;> simp_all

theorem readable_of_writable {s : State} {addr : Word} (h : writable s addr) : readable s addr :=
  ⟨h.1, by rw [h.2]; simp⟩

@[simp] theorem storedAt_a (s : State) (addr v : Word) : (storedAt s addr v).a = s.a := rfl
@[simp] theorem storedAt_b (s : State) (addr v : Word) : (storedAt s addr v).b = s.b := rfl
@[simp] theorem storedAt_e (s : State) (addr v : Word) : (storedAt s addr v).e = s.e := rfl
@[simp] theorem storedAt_p (s : State) (addr v : Word) : (storedAt s addr v).p = s.p := rfl
@[simp] theorem storedAt_m (s : State) (addr v : Word) : (storedAt s addr v).m = s.m := rfl
@[simp] theorem storedAt_dmaWait (s : State) (addr v : Word) : (storedAt s addr v).dmaWait = s.dmaWait := rfl
@[simp] theorem storedAt_plat (s : State) (addr v : Word) : (storedAt s addr v).plat = s.plat := rfl
@[simp] theorem storedAt_freeCount (s : State) (addr v : Word) : (storedAt s addr v).freeCount = s.freeCount := rfl

theorem storedAt_mem (s : State) (addr v : Word) : (storedAt s addr v).mem = s.mem.writeWord addr.toNat v := rfl

theorem storedAt_mem_wf {s : State} {addr : Word} (hw : s.mem.wf = true) (ha : wordBit addr 15 = false) (v : Word) :
    (storedAt s addr v).mem.wf = true := writeWord_wf (toNat_lt_of_bit15 ha) v hw

theorem wordAt_storedAt_same {s : State} {addr : Word} (hw : s.mem.wf = true) (ha : wordBit addr 15 = false) (v : Word) :
    wordAt (storedAt s addr v) addr = v := readWord_writeWord_same v hw (toNat_lt_of_bit15 ha)

theorem wordAt_storedAt_other {addr addr' : Word} (h : addr' ≠ addr) (s : State) (v : Word) :
    wordAt (storedAt s addr v) addr' = wordAt s addr' :=
  readWord_writeWord_other (fun hn => h (BitVec.eq_of_toNat_eq hn)) v s.mem

/-- Readability depends on the parameters alone. -/
theorem readable_congr {s t : State} (h : t.plat = s.plat) (addr : Word) : readable t addr ↔ readable s addr := by
  unfold readable; rw [h]

/-- Writability depends on the parameters alone. -/
theorem writable_congr {s t : State} (h : t.plat = s.plat) (addr : Word) : writable t addr ↔ writable s addr := by
  unfold writable; rw [h]

/-- R33: AR1, AR2 and the stack pointer are RW on every platform. -/
theorem writable_pinned (s : State) {addr : Word} (h15 : wordBit addr 15 = false) (h : pinnedRw addr.toNat = true) :
    writable s addr := ⟨h15, by unfold memKind; rw [if_pos h]⟩

theorem writable_spAddr (s : State) : writable s Config.spAddr := writable_pinned s (by decide) (by decide)

/-- R19: a mantissa word is one of the four words of its register. -/
theorem mantAddr_cases (layout : Config.MantLayout) (base : Word) {i : Nat} (h : i < 3) :
    mantAddr layout base i = base ∨ mantAddr layout base i = base + 1#16 ∨ mantAddr layout base i = base + 2#16 ∨
      mantAddr layout base i = base + 3#16 := by
  unfold mantAddr
  have : i = 0 ∨ i = 1 ∨ i = 2 := by omega
  split <;> rcases this with rfl | rfl | rfl <;> simp

/-- R19: the three mantissa words stand at three addresses. -/
theorem mantAddr_ne (layout : Config.MantLayout) (base : Word) {i j : Nat} (hi : i < 3) (hj : j < 3) (h : i ≠ j) :
    mantAddr layout base i ≠ mantAddr layout base j := by
  have hk : ∀ x y : Nat, x < 4 → y < 4 → x ≠ y → base + BitVec.ofNat 16 x ≠ base + BitVec.ofNat 16 y := by
    intro x y hx hy hxy he
    have := congrArg BitVec.toNat (BitVec.add_right_inj _ |>.mp he)
    simp only [BitVec.toNat_ofNat] at this
    omega
  exact hk _ _ (by split <;> omega) (by split <;> omega) (by split <;> split <;> omega)

theorem writable_pinned_four (s : State) {base : Word} (h : base = Config.ar1Base ∨ base = Config.ar2Base) {addr : Word}
    (ha : addr = base ∨ addr = base + 1#16 ∨ addr = base + 2#16 ∨ addr = base + 3#16) : writable s addr := by
  rcases h with rfl | rfl <;> rcases ha with rfl | rfl | rfl | rfl <;> exact writable_pinned s (by decide) (by decide)

theorem mantWritable_ar1 (s : State) : mantWritable s Config.ar1Base :=
  ⟨writable_pinned_four s (.inl rfl) (mantAddr_cases _ _ (by omega)), writable_pinned_four s (.inl rfl) (mantAddr_cases _ _ (by omega)),
   writable_pinned_four s (.inl rfl) (mantAddr_cases _ _ (by omega))⟩

theorem mantWritable_ar2 (s : State) : mantWritable s Config.ar2Base :=
  ⟨writable_pinned_four s (.inr rfl) (mantAddr_cases _ _ (by omega)), writable_pinned_four s (.inr rfl) (mantAddr_cases _ _ (by omega)),
   writable_pinned_four s (.inr rfl) (mantAddr_cases _ _ (by omega))⟩

theorem mantReadable_of_writable {s : State} {base : Word} (h : mantWritable s base) : mantReadable s base :=
  ⟨readable_of_writable h.1, readable_of_writable h.2.1, readable_of_writable h.2.2⟩

/-! ## Pointers -/

/-- R37: where the two readings of bit 15 agree, a pointer with bit 15 clear, the pointer is the address. -/
theorem deref_bit15_clear (s : State) {pointer : Word} (h : wordBit pointer 15 = false) : deref s pointer = .ok pointer := by
  simp [deref, h]

theorem pointerAddress_bit15 (pointer : Word) : wordBit (pointerAddress pointer) 15 = false := by
  simp [pointerAddress, wordBit]

theorem derefChain_bit15 (s : State) {fuel : Nat} {pointer addr : Word} (h : derefChain s fuel pointer = .ok addr) :
    wordBit addr 15 = false := by
  induction fuel generalizing pointer with
  | zero =>
    rw [derefChain] at h
    split at h
    · simp at h
    · rename_i h15
      cases h
      simpa using h15
  | succ fuel ih =>
    rw [derefChain] at h
    split at h
    · obtain ⟨v, _, hv⟩ := (res_bind_ok_iff _ _ _).mp h
      exact ih hv
    · rename_i h15
      cases h
      simpa using h15

/-- R37: an address that `Deref` answers has bit 15 clear, whatever INDIRECT_CHAIN is. -/
theorem deref_ok_bit15 {s : State} {pointer addr : Word} (h : deref s pointer = .ok addr) : wordBit addr 15 = false := by
  unfold deref at h
  split at h
  · split at h
    · simp at h
    · cases h
      exact pointerAddress_bit15 pointer
    · exact derefChain_bit15 s h
  · rename_i h15
    cases h
    simpa using h15

/-! ## Mantissas -/

/-- R19: `Mant(b)` answers exactly where the three mantissa words are readable, with the digits that stand there. -/
theorem mant_ok_iff (s : State) (base : Word) (digits : List Nibble) :
    mant s base = .ok digits ↔ mantReadable s base ∧ digits = digitsAt s base := by
  unfold mant
  simp only [res_bind_ok_iff, memRead_ok_iff, res_pure, Except.ok.injEq]
  constructor
  · rintro ⟨w1, ⟨h1, rfl⟩, w2, ⟨h2, rfl⟩, w3, ⟨h3, rfl⟩, rfl⟩
    exact ⟨⟨h1, h2, h3⟩, rfl⟩
  · rintro ⟨⟨h1, h2, h3⟩, rfl⟩
    exact ⟨_, ⟨h1, rfl⟩, _, ⟨h2, rfl⟩, _, ⟨h3, rfl⟩, rfl⟩

/-- R196: `MantVal(b)` answers exactly where the mantissa is readable and decimal, with the value that stands there. -/
theorem mantVal_ok_iff (s : State) (base : Word) (v : Nat) :
    mantVal s base = .ok v ↔ mantReadable s base ∧ decimalAt s base ∧ v = valueAt s base := by
  unfold mantVal
  simp only [res_bind_ok_iff, mant_ok_iff]
  constructor
  · rintro ⟨d, ⟨h1, rfl⟩, h2⟩
    split at h2
    · rename_i hd
      cases h2
      exact ⟨h1, hd, rfl⟩
    · simp at h2
  · rintro ⟨h1, h2, rfl⟩
    refine ⟨_, ⟨h1, rfl⟩, ?_⟩
    unfold decimalAt at h2
    rw [if_pos h2]
    rfl

/-- The word of four digit places that `SetMant` writes at offset 1, 2 or 3. -/
def mantWord (layout : List (Fin 12)) (digits : List Nibble) (i : Fin 3) : Word :=
  wordOfNibbles (nibbleOfDigits layout digits ⟨4 * i.val, by omega⟩) (nibbleOfDigits layout digits ⟨4 * i.val + 1, by omega⟩)
    (nibbleOfDigits layout digits ⟨4 * i.val + 2, by omega⟩) (nibbleOfDigits layout digits ⟨4 * i.val + 3, by omega⟩)

/-- The state after `SetMant`. -/
def mantStored (s : State) (base : Word) (digits : List Nibble) : State :=
  storedAt (storedAt (storedAt s (mantAddr s.plat.mantLayout base 0) (mantWord s.plat.mantLayout.digits digits 0))
    (mantAddr s.plat.mantLayout base 1) (mantWord s.plat.mantLayout.digits digits 1))
    (mantAddr s.plat.mantLayout base 2) (mantWord s.plat.mantLayout.digits digits 2)

/-- R19: `SetMant(b, d)` answers exactly where the three mantissa words are writable, and stores three words. -/
theorem setMant_ok_iff (s : State) (base : Word) (digits : List Nibble) (t : State) :
    setMant s base digits = .ok t ↔ mantWritable s base ∧ t = mantStored s base digits := by
  unfold setMant
  simp only [res_bind_ok_iff, memWrite_ok_iff]
  constructor
  · rintro ⟨_, ⟨h1, rfl⟩, _, ⟨h2, rfl⟩, h3, rfl⟩
    exact ⟨⟨h1, h2, h3⟩, rfl⟩
  · rintro ⟨⟨h1, h2, h3⟩, rfl⟩
    exact ⟨_, ⟨h1, rfl⟩, _, ⟨h2, rfl⟩, h3, rfl⟩

@[simp] theorem mantStored_a (s : State) (base : Word) (d : List Nibble) : (mantStored s base d).a = s.a := rfl
@[simp] theorem mantStored_b (s : State) (base : Word) (d : List Nibble) : (mantStored s base d).b = s.b := rfl
@[simp] theorem mantStored_e (s : State) (base : Word) (d : List Nibble) : (mantStored s base d).e = s.e := rfl
@[simp] theorem mantStored_p (s : State) (base : Word) (d : List Nibble) : (mantStored s base d).p = s.p := rfl
@[simp] theorem mantStored_m (s : State) (base : Word) (d : List Nibble) : (mantStored s base d).m = s.m := rfl
@[simp] theorem mantStored_dmaWait (s : State) (base : Word) (d : List Nibble) :
    (mantStored s base d).dmaWait = s.dmaWait := rfl
@[simp] theorem mantStored_plat (s : State) (base : Word) (d : List Nibble) : (mantStored s base d).plat = s.plat := rfl
@[simp] theorem mantStored_freeCount (s : State) (base : Word) (d : List Nibble) :
    (mantStored s base d).freeCount = s.freeCount := rfl

theorem mantStored_mem_wf {s : State} {base : Word} (hw : s.mem.wf = true) (h : mantWritable s base) (d : List Nibble) :
    (mantStored s base d).mem.wf = true :=
  storedAt_mem_wf (storedAt_mem_wf (storedAt_mem_wf hw h.1.1 _) h.2.1.1 _) h.2.2.1 _

/-- `SetMant` leaves every word but the three mantissa words, the exponent word among them. -/
theorem wordAt_mantStored_other {s : State} {base addr : Word} (h : addr ∉ mantAddrs s base) (d : List Nibble) :
    wordAt (mantStored s base d) addr = wordAt s addr := by
  simp only [mantAddrs, List.mem_cons, List.not_mem_nil, or_false, not_or] at h
  unfold mantStored
  rw [wordAt_storedAt_other h.2.2, wordAt_storedAt_other h.2.1, wordAt_storedAt_other h.1]

/-- `SetMant` leaves at each mantissa word what it wrote there. -/
theorem wordAt_mantStored {s : State} {base : Word} (hw : s.mem.wf = true) (h : mantWritable s base) (d : List Nibble) :
    wordAt (mantStored s base d) (mantAddr s.plat.mantLayout base 0) = mantWord s.plat.mantLayout.digits d 0 ∧
    wordAt (mantStored s base d) (mantAddr s.plat.mantLayout base 1) = mantWord s.plat.mantLayout.digits d 1 ∧
    wordAt (mantStored s base d) (mantAddr s.plat.mantLayout base 2) = mantWord s.plat.mantLayout.digits d 2 := by
  have h12 := mantAddr_ne s.plat.mantLayout base (i := 0) (j := 1) (by omega) (by omega) (by omega)
  have h13 := mantAddr_ne s.plat.mantLayout base (i := 0) (j := 2) (by omega) (by omega) (by omega)
  have h23 := mantAddr_ne s.plat.mantLayout base (i := 1) (j := 2) (by omega) (by omega) (by omega)
  have w1 := storedAt_mem_wf hw h.1.1 (mantWord s.plat.mantLayout.digits d 0)
  have w2 := storedAt_mem_wf w1 h.2.1.1 (mantWord s.plat.mantLayout.digits d 1)
  unfold mantStored
  refine ⟨?_, ?_, ?_⟩
  · rw [wordAt_storedAt_other h13, wordAt_storedAt_other h12, wordAt_storedAt_same hw h.1.1]
  · rw [wordAt_storedAt_other h23, wordAt_storedAt_same w1 h.2.1.1]
  · rw [wordAt_storedAt_same w2 h.2.2.1]

/-! ## Digits and their places -/

theorem extract_append_nibbles (n1 n2 n3 n4 : Nibble) :
    (wordOfNibbles n1 n2 n3 n4).extractLsb' 12 4 = n1 ∧ (wordOfNibbles n1 n2 n3 n4).extractLsb' 8 4 = n2 ∧
    (wordOfNibbles n1 n2 n3 n4).extractLsb' 4 4 = n3 ∧ (wordOfNibbles n1 n2 n3 n4).extractLsb' 0 4 = n4 := by
  refine ⟨?_, ?_, ?_, ?_⟩ <;>
  · apply BitVec.eq_of_getLsbD_eq
    intro i hi
    simp only [wordOfNibbles, BitVec.getLsbD_extractLsb', BitVec.getLsbD_append]
    have : i = 0 ∨ i = 1 ∨ i = 2 ∨ i = 3 := by omega
    rcases this with rfl | rfl | rfl | rfl <;> simp

/-- Taking the nibbles of the three words `SetMant` writes gives, at each place, that place's digit. -/
theorem nibbles_of_mantWords (layout : List (Fin 12)) (d : List Nibble) (place : Fin 12) :
    (nibblesOfWords (mantWord layout d 0) (mantWord layout d 1) (mantWord layout d 2)).getD place.val 0#4 =
      nibbleOfDigits layout d place := by
  have h0 := extract_append_nibbles (nibbleOfDigits layout d 0) (nibbleOfDigits layout d 1) (nibbleOfDigits layout d 2)
    (nibbleOfDigits layout d 3)
  have h1 := extract_append_nibbles (nibbleOfDigits layout d 4) (nibbleOfDigits layout d 5) (nibbleOfDigits layout d 6)
    (nibbleOfDigits layout d 7)
  have h2 := extract_append_nibbles (nibbleOfDigits layout d 8) (nibbleOfDigits layout d 9) (nibbleOfDigits layout d 10)
    (nibbleOfDigits layout d 11)
  have e0 : mantWord layout d 0 = wordOfNibbles (nibbleOfDigits layout d 0) (nibbleOfDigits layout d 1)
    (nibbleOfDigits layout d 2) (nibbleOfDigits layout d 3) := rfl
  have e1 : mantWord layout d 1 = wordOfNibbles (nibbleOfDigits layout d 4) (nibbleOfDigits layout d 5)
    (nibbleOfDigits layout d 6) (nibbleOfDigits layout d 7) := rfl
  have e2 : mantWord layout d 2 = wordOfNibbles (nibbleOfDigits layout d 8) (nibbleOfDigits layout d 9)
    (nibbleOfDigits layout d 10) (nibbleOfDigits layout d 11) := rfl
  unfold nibblesOfWords
  rw [e0, e1, e2, h0.1, h0.2.1, h0.2.2.1, h0.2.2.2, h1.1, h1.2.1, h1.2.2.1, h1.2.2.2, h2.1, h2.2.1, h2.2.2.1, h2.2.2.2]
  obtain ⟨k, hk⟩ := place
  have : k = 0 ∨ k = 1 ∨ k = 2 ∨ k = 3 ∨ k = 4 ∨ k = 5 ∨ k = 6 ∨ k = 7 ∨ k = 8 ∨ k = 9 ∨ k = 10 ∨ k = 11 := by omega
  rcases this with rfl | rfl | rfl | rfl | rfl | rfl | rfl | rfl | rfl | rfl | rfl | rfl <;> rfl

theorem digits_at_places (layout : List (Fin 12)) (d : List Nibble) (hn : layout.Nodup) (hl : layout.length = d.length) :
    layout.map (nibbleOfDigits layout d) = d := by
  apply List.ext_getElem
  · simpa using hl
  · intro i h1 h2
    simp only [List.getElem_map, nibbleOfDigits]
    rw [List.Nodup.idxOf_getElem hn]
    simp [List.getD_eq_getElem?_getD, h2]

/-- R19: what `SetMant` stores, `Mant` reads back, under every layout that places the twelve digits apart. -/
theorem digitsAt_mantStored {s : State} {base : Word} (hw : s.mem.wf = true) (h : mantWritable s base)
    (hl : layoutOk s.plat.mantLayout = true) {d : List Nibble} (hd : d.length = 12) :
    digitsAt (mantStored s base d) base = d := by
  obtain ⟨e1, e2, e3⟩ := wordAt_mantStored hw h d
  simp only [layoutOk, Bool.and_eq_true, beq_iff_eq, decide_eq_true_eq] at hl
  unfold digitsAt digitsOfNibbles
  rw [mantStored_plat, e1, e2, e3]
  simp only [nibbles_of_mantWords]
  exact digits_at_places _ _ hl.2 (by omega)

theorem digitsAt_length {s : State} (hl : layoutOk s.plat.mantLayout = true) (base : Word) :
    (digitsAt s base).length = 12 := by
  simp only [layoutOk, Bool.and_eq_true, beq_iff_eq, decide_eq_true_eq] at hl
  simp [digitsAt, digitsOfNibbles, hl.1]

/-- The digits at a register whose three mantissa words are the same are the same. -/
theorem digitsAt_congr {s t : State} {base : Word} (hp : t.plat = s.plat)
    (h : ∀ addr ∈ mantAddrs s base, wordAt t addr = wordAt s addr) : digitsAt t base = digitsAt s base := by
  unfold digitsAt
  rw [hp, h _ (by simp [mantAddrs]), h _ (by simp [mantAddrs]), h _ (by simp [mantAddrs])]

/-! ## The value of decimal digits -/

theorem decimalDigits_length (count v : Nat) : (decimalDigits count v).length = count := by
  induction count generalizing v with
  | zero => rfl
  | succ count ih => simp [decimalDigits, ih]

theorem decimalDigits_allDecimal (count v : Nat) : allDecimal (decimalDigits count v) = true := by
  induction count generalizing v with
  | zero => rfl
  | succ count ih =>
    have hd : (BitVec.ofNat 4 (v % 10)).toNat ≤ 9 := by
      rw [BitVec.toNat_ofNat]
      have := Nat.mod_lt v (show 10 > 0 by omega)
      omega
    have := ih (v / 10)
    unfold allDecimal at this ⊢
    rw [decimalDigits, List.all_append, this]
    simp only [List.all_cons, List.all_nil, Bool.and_true, Bool.true_and, decide_eq_true_eq]
    exact hd

theorem digitsValue_append_single (d : List Nibble) (x : Nibble) :
    digitsValue (d ++ [x]) = 10 * digitsValue d + x.toNat := by
  simp [digitsValue, List.foldl_append]

/-- The digits `SetMantVal` writes have the value it was given, modulo the power of ten of their number. -/
theorem digitsValue_decimalDigits (count v : Nat) : digitsValue (decimalDigits count v) = v % 10 ^ count := by
  induction count generalizing v with
  | zero => simp [decimalDigits, digitsValue, Nat.mod_one]
  | succ count ih =>
    have hd : (BitVec.ofNat 4 (v % 10)).toNat = v % 10 := by
      rw [BitVec.toNat_ofNat]
      have := Nat.mod_lt v (show 10 > 0 by omega)
      omega
    rw [decimalDigits, digitsValue_append_single, ih, hd, Nat.pow_succ, Nat.mul_comm (10 ^ count) 10, Nat.mod_mul]
    omega

theorem digitsValue_lt (d : List Nibble) (h : allDecimal d = true) : digitsValue d < 10 ^ d.length := by
  suffices ∀ acc n, acc < 10 ^ n → d.foldl (fun value digit => 10 * value + BitVec.toNat digit) acc < 10 ^ (n + d.length) by
    simpa [digitsValue] using this 0 0 (by simp)
  induction d with
  | nil => intro acc n h; simpa using h
  | cons x rest ih =>
    intro acc n hacc
    simp only [allDecimal, List.all_cons, Bool.and_eq_true, decide_eq_true_eq] at h
    simp only [List.foldl_cons, List.length_cons]
    have := ih h.2 (10 * acc + x.toNat) (n + 1) (by rw [Nat.pow_succ]; omega)
    rwa [show n + (rest.length + 1) = n + 1 + rest.length by omega]

/-- R199: a decimal mantissa is below 10^12. -/
theorem valueAt_lt {s : State} {base : Word} (hl : layoutOk s.plat.mantLayout = true) (hd : decimalAt s base) :
    valueAt s base < mantModulus := by
  have := digitsValue_lt (digitsAt s base) hd
  rwa [digitsAt_length hl] at this

/-- The state after `SetMantVal`. -/
theorem setMantVal_ok_iff (s : State) (base : Word) (v : Nat) (t : State) :
    setMantVal s base v = .ok t ↔ mantWritable s base ∧ t = mantStored s base (decimalDigits 12 v) :=
  setMant_ok_iff s base (decimalDigits 12 v) t

/-- R199: what `SetMantVal` stores has that value, and decimal digits. -/
theorem valueAt_mantStored {s : State} {base : Word} (hw : s.mem.wf = true) (h : mantWritable s base)
    (hl : layoutOk s.plat.mantLayout = true) {v : Nat} (hv : v < mantModulus) :
    valueAt (mantStored s base (decimalDigits 12 v)) base = v ∧ decimalAt (mantStored s base (decimalDigits 12 v)) base := by
  unfold valueAt decimalAt
  rw [digitsAt_mantStored hw h hl (decimalDigits_length 12 v)]
  exact ⟨by rw [digitsValue_decimalDigits]; exact Nat.mod_eq_of_lt hv, decimalDigits_allDecimal 12 v⟩

end Sys2Proof.Machine
end

