-- ==== Sys2Proof/Certificates/Slice0/Obligations.lean ====
section
/-! DEFINITION. The statements for the provers. A statement's docstring names the spec's rule it formalises, and, where a
clause of it rests on a decision of the spec (D<n>) or on a choice of this model, that decision or log entry. -/

open Sys2Proof Sys2Proof.Machine

/-- Decode and encode agree, every operand at every value its field holds (30_encoding.md formats MR, SR, AS, RR and ENC_UNKNOWN). The bit polarities and recovered bits are the decisions D1, D9, D10 (log 20); how ENC_UNKNOWN is held is log 11. -/
def Obligations.DecodeInvertsEncode : Prop :=
  ∀ (plat : Config.Platform) (i : Instr), plat.wf → i.wf = true → i.hasWord plat = true →
    ∃ w, encode plat i = some w ∧ decode plat w = .ok i

/-- The other direction of decode and encode: with DASH_BITS = strict (D8, log 21) each word of the coding table has one meaning and each instruction one word. -/
def Obligations.DecodedWordIsTheEncodedWord : Prop :=
  ∀ (plat : Config.Platform) (w : Word) (i : Instr), plat.dashBits = .strict → decode plat w = .ok i →
    i.unencoded? = none → i.wf = true ∧ encode plat i = some w

/-- Words of the formats MR, SR, AS and RR written out from the spec. The bit polarities are the decisions D1, D9, D10 (log 20). -/
def Obligations.WrittenOutWordsDecode : Prop :=
  decode Config.defaultPlatform 0o150020#16 = .ok (.and ⟨true, .zero, 0o20#10⟩) ∧
  decode Config.defaultPlatform 0o070604#16 = .ok (.sal 4) ∧
  decode Config.defaultPlatform 0o077770#16 = .ok (.rib (-1)) ∧
  decode Config.defaultPlatform 0o072131#16 = .ok (.sla 2 true true) ∧
  decode Config.defaultPlatform 0o070074#16 = .ok (.ses 1 false true) ∧
  decode Config.defaultPlatform 0o074517#16 = .ok (.ldaReg .B true) ∧
  decode Config.defaultPlatform 0o074737#16 = .ok (.jmpReg .B)

/-- The unassigned encodings of 30_encoding.md section 5, refused by the decision D11; the check of the "-" positions of a register reference comes first, as in the decoder of section 4. -/
def Obligations.ExactlyTheUnassignedWordsAreRefused : Prop :=
  ∀ (plat : Config.Platform) (w : Word),
    decode plat w = .error .unassigned ↔
      unassignedWord w = true ∧ (∀ row ∈ plat.encUnknown, (w &&& ~~~ dashPositions w) &&& row.mask ≠ row.pattern) ∧
        ¬ (plat.dashBits = .strict ∧ dashedRegisterWord w = true)

/-- DASH_BITS, the open parameter of decision D8 (log 21), under both of its values. -/
def Obligations.DashBitsRefusedOrMasked : Prop :=
  ∀ (plat : Config.Platform) (w : Word),
    (plat.dashBits = .strict → w &&& dashPositions w ≠ 0#16 → decode plat w = .error .dashBit) ∧
    (plat.dashBits = .ignore → decode plat w = decode plat (w &&& ~~~ dashPositions w))

/-- The restricted register references, refused by decision D12 (log 23). -/
def Obligations.DirectRegisterFormsRefused : Prop :=
  ∀ (s : State) (r : Reg), s.dmaWait = false → readable s s.p →
    (∀ op ∈ [0b0110#4, 0b0111#4, 0b1001#4, 0b1011#4, 0b1100#4], wordAt s s.p = rrWord op r false →
      step s = .refused .directRegisterRestricted) ∧
    (wordAt s s.p = rrWord 0b1101#4 r false → step s = .refused .jmpDirectRegister)

/-- The instruction cycle of 10_state.md section 3: fetch, M <- P, execute. P holds the address of the instruction while it executes by decision D5 (log 18). -/
def Obligations.StepRunsDecodedInstruction : Prop :=
  ∀ (s : State) (i : Instr), s.dmaWait = false → readable s s.p → decode s.plat (wordAt s s.p) = .ok i →
    step s = exec i { s with m := s.p }

/-- The fetch checks of 60_exceptions.md section 2. That an address has 15 bits is decision D3, that nothing is trapped D26 (log 24, log 30). -/
def Obligations.StepRefusesWhatItCannotFetch : Prop :=
  ∀ s : State, s.dmaWait = false →
    (wordBit s.p 15 = true → step s = .refused .addressBit15) ∧
    (wordBit s.p 15 = false → memKind s.plat s.p.toNat = .absent → step s = .refused .memmap) ∧
    (∀ e, readable s s.p → decode s.plat (wordAt s s.p) = .error e → step s = .refused (refusalOf e))

/-- Memory returns the last value written (20_memory.md section 2) and a write moves exactly one word. -/
def Obligations.ReadReturnsLastWrite : Prop :=
  ∀ (s t : State) (addr v : Word), s.mem.wf = true → memWrite s addr v = .ok t →
    writable s addr ∧ memRead t addr = .ok v ∧ sameWordsExcept [addr] s t ∧ sameRegisters s t ∧ t.p = s.p ∧ t.m = s.m ∧
      t.mem.wf = true

/-- MemMap and the valid addresses of 20_memory.md section 1: the refusals are the decisions D3 and D28 (log 13, log 30). -/
def Obligations.AccessesRefusedByMemMap : Prop :=
  ∀ (s : State) (addr v : Word),
    (wordBit addr 15 = true → memRead s addr = refuse .addressBit15 ∧ memWrite s addr v = refuse .addressBit15) ∧
    (wordBit addr 15 = false → memKind s.plat addr.toNat = .absent →
      memRead s addr = refuse .memmap ∧ memWrite s addr v = refuse .memmap) ∧
    (wordBit addr 15 = false → memKind s.plat addr.toNat = .rom →
      memRead s addr = .ok (wordAt s addr) ∧ memWrite s addr v = refuse .memmap) ∧
    (∀ a ∈ [0o1744#16, 0o1745#16, 0o1746#16, 0o1747#16, 0o1754#16, 0o1755#16, 0o1756#16, 0o1757#16, 0o1777#16],
      writable s a)

/-- The operand locations (40_memory_reference.md section 1). The page scheme is decision D2 with G1 (from general knowledge: log 19); P is the address of the instruction by D5 (log 18). Deref is INDIRECT_CHAIN under each of its values (D4; PointerBit15ByParameter, MultilevelIndirectionIsTheRecursion); the refusals are D3 and D28 (log 13, log 30). -/
def Obligations.OperandLocation : Prop :=
  ∀ (s : State) (ref : MemRef) (r : Reg),
    (directAddress s.p ref).toNat =
      (match ref.page with | .zero => 0 | .current => s.p.toNat / 1024 * 1024) + ref.addr.toNat ∧
    (ref.indirect = false → memFormAddress s ref = .ok (directAddress s.p ref)) ∧
    (ref.indirect = true → readable s (directAddress s.p ref) → wordBit (wordAt s (directAddress s.p ref)) 15 = false →
      memFormAddress s ref = .ok (wordAt s (directAddress s.p ref))) ∧
    (ref.indirect = true → readable s (directAddress s.p ref) →
      memFormAddress s ref = deref s (wordAt s (directAddress s.p ref))) ∧
    (ref.indirect = true → ¬ readable s (directAddress s.p ref) →
      memFormAddress s ref = refuse (accessRefusal (directAddress s.p ref))) ∧
    (∀ addr, memFormAddress s ref = .ok addr → (readable s addr → memOperand s ref = .ok (wordAt s addr)) ∧
      (¬ readable s addr → memOperand s ref = refuse (accessRefusal addr))) ∧
    regOperand s r false = .ok (s.reg r) ∧
    regFormAddress s r = deref s (s.reg r) ∧
    (wordBit (s.reg r) 15 = false → regFormAddress s r = .ok (s.reg r)) ∧
    (∀ addr, regFormAddress s r = .ok addr → (readable s addr → regOperand s r true = .ok (wordAt s addr)) ∧
      (¬ readable s addr → regOperand s r true = refuse (accessRefusal addr)))

/-- INDIRECT_CHAIN, the open parameter of decision D4 (log 14, log 31), under its three values. -/
def Obligations.PointerBit15ByParameter : Prop :=
  ∀ (s : State) (pointer : Word),
    (wordBit pointer 15 = false → deref s pointer = .ok pointer) ∧
    (wordBit pointer 15 = true → s.plat.indirectChain = .refuse → deref s pointer = refuse .indirectBit15) ∧
    (wordBit pointer 15 = true → s.plat.indirectChain = .ignoreBit15 →
      deref s pointer = .ok (BitVec.ofNat 16 (pointer.toNat % 32768))) ∧
    (wordBit pointer 15 = true → s.plat.indirectChain = .multilevel →
      readable s (BitVec.ofNat 16 (pointer.toNat % 32768)) →
      wordBit (wordAt s (BitVec.ofNat 16 (pointer.toNat % 32768))) 15 = false →
      deref s pointer = .ok (wordAt s (BitVec.ofNat 16 (pointer.toNat % 32768))))

/-- The recursion of Deref (20_memory.md section 3, decision D4). The model follows at most 32768 pointers (log 14); this says the limit is never felt. -/
def Obligations.MultilevelIndirectionIsTheRecursion : Prop :=
  ∀ (s : State) (pointer : Word), s.plat.indirectChain = .multilevel →
    (wordBit pointer 15 = true →
      deref s pointer = memRead s (pointerAddress pointer) >>= fun next => deref s next) ∧
    (deref s pointer = hang .hangIndirect ↔ ∀ fuel, derefChain s fuel pointer = hang .hangIndirect)

/-- R82, R83. -/
def Obligations.AddSetsStickyCarry : Prop :=
  ∀ (s : State) (v : Word),
    (∀ ref, memOperand s ref = .ok v → exec (.ada ref) s = .next 
      { s with a := BitVec.ofNat 16 (s.a.toNat + v.toNat), e := if 65536 ≤ s.a.toNat + v.toNat then 0b0001#4 else s.e,
               p := s.p + 1#16, m := s.p + 1#16 }) ∧
    (∀ r i, regOperand s r i = .ok v → exec (.adaReg r i) s = .next 
      { s with a := BitVec.ofNat 16 (s.a.toNat + v.toNat), e := if 65536 ≤ s.a.toNat + v.toNat then 0b0001#4 else s.e,
               p := s.p + 1#16, m := s.p + 1#16 }) ∧
    (∀ ref, memOperand s ref = .ok v → exec (.adb ref) s = .next 
      { s with b := BitVec.ofNat 16 (s.b.toNat + v.toNat), e := if 65536 ≤ s.b.toNat + v.toNat then 0b0001#4 else s.e,
               p := s.p + 1#16, m := s.p + 1#16 }) ∧
    (∀ r i, regOperand s r i = .ok v → exec (.adbReg r i) s = .next 
      { s with b := BitVec.ofNat 16 (s.b.toNat + v.toNat), e := if 65536 ≤ s.b.toNat + v.toNat then 0b0001#4 else s.e,
               p := s.p + 1#16, m := s.p + 1#16 })

/-- CPA and CPB (40_memory_reference.md section 2). That E is unchanged is decision D7 (log 17). -/
def Obligations.CompareSkipsOnDifference : Prop :=
  ∀ (s : State) (v : Word),
    (∀ ref, memOperand s ref = .ok v → exec (.cpa ref) s = .next 
      { s with p := if v = s.a then s.p + 1#16 else s.p + 2#16, m := if v = s.a then s.p + 1#16 else s.p + 2#16 }) ∧
    (∀ r i, regOperand s r i = .ok v → exec (.cpaReg r i) s = .next 
      { s with p := if v = s.a then s.p + 1#16 else s.p + 2#16, m := if v = s.a then s.p + 1#16 else s.p + 2#16 }) ∧
    (∀ ref, memOperand s ref = .ok v → exec (.cpb ref) s = .next 
      { s with p := if v = s.b then s.p + 1#16 else s.p + 2#16, m := if v = s.b then s.p + 1#16 else s.p + 2#16 }) ∧
    (∀ r i, regOperand s r i = .ok v → exec (.cpbReg r i) s = .next 
      { s with p := if v = s.b then s.p + 1#16 else s.p + 2#16, m := if v = s.b then s.p + 1#16 else s.p + 2#16 })

/-- LDA and LDB (40_memory_reference.md section 2). That E is unchanged is decision D7 (log 17). -/
def Obligations.LoadTakesOperand : Prop :=
  ∀ (s : State) (v : Word),
    (∀ ref, memOperand s ref = .ok v → exec (.lda ref) s = .next 
      { s with a := v, p := s.p + 1#16, m := s.p + 1#16 }) ∧
    (∀ r i, regOperand s r i = .ok v → exec (.ldaReg r i) s = .next 
      { s with a := v, p := s.p + 1#16, m := s.p + 1#16 }) ∧
    (∀ ref, memOperand s ref = .ok v → exec (.ldb ref) s = .next 
      { s with b := v, p := s.p + 1#16, m := s.p + 1#16 }) ∧
    (∀ r i, regOperand s r i = .ok v → exec (.ldbReg r i) s = .next 
      { s with b := v, p := s.p + 1#16, m := s.p + 1#16 })

/-- IOR and AND (40_memory_reference.md section 2). That E is unchanged is decision D7 (log 17). -/
def Obligations.LogicCombinesIntoA : Prop :=
  ∀ (s : State) (v : Word),
    (∀ ref, memOperand s ref = .ok v → exec (.ior ref) s = .next 
      { s with a := s.a ||| v, p := s.p + 1#16, m := s.p + 1#16 }) ∧
    (∀ r i, regOperand s r i = .ok v → exec (.iorReg r i) s = .next 
      { s with a := s.a ||| v, p := s.p + 1#16, m := s.p + 1#16 }) ∧
    (∀ ref, memOperand s ref = .ok v → exec (.and ref) s = .next 
      { s with a := s.a &&& v, p := s.p + 1#16, m := s.p + 1#16 }) ∧
    (∀ r i, regOperand s r i = .ok v → exec (.andReg r i) s = .next 
      { s with a := s.a &&& v, p := s.p + 1#16, m := s.p + 1#16 })

/-- The refusals of MemRead and Deref pass to the instruction (40_memory_reference.md, each rule's Refusals). -/
def Obligations.OperandRefusalStopsTheInstruction : Prop :=
  ∀ (s : State) (stop : Stop) (ref : MemRef) (r : Reg) (i : Bool),
    (memOperand s ref = .error stop →
      ∀ instr ∈ [Instr.ada ref, .adb ref, .cpa ref, .cpb ref, .lda ref, .ldb ref, .ior ref, .and ref],
        exec instr s = outcome (.error stop)) ∧
    (regOperand s r i = .error stop →
      ∀ instr ∈ [Instr.adaReg r i, .adbReg r i, .cpaReg r i, .cpbReg r i, .ldaReg r i, .ldbReg r i, .iorReg r i, .andReg r i],
        exec instr s = outcome (.error stop)) ∧
    (memFormAddress s ref = .error stop →
      ∀ instr ∈ [Instr.sta ref, .stb ref, .isz ref, .dsz ref, .jsm ref, .jmp ref], exec instr s = outcome (.error stop)) ∧
    (regFormAddress s r = .error stop →
      ∀ instr ∈ [Instr.staReg r, .stbReg r, .iszReg r, .dszReg r, .jsmReg r, .jmpReg r],
        exec instr s = outcome (.error stop))

/-- STA and STB (40_memory_reference.md section 2). That E is unchanged is decision D7 (log 17). -/
def Obligations.StoreWritesOnlyItsWord : Prop :=
  ∀ (s : State) (addr : Word), s.mem.wf = true → writable s addr →
    (∀ ref, memFormAddress s ref = .ok addr →
      (∃ t, exec (.sta ref) s = .next t ∧ wordAt t addr = s.a ∧ sameWordsExcept [addr] s t ∧ sameRegisters s t ∧
        t.p = s.p + 1#16 ∧ t.m = s.p + 1#16 ∧ t.mem.wf = true) ∧
      (∃ t, exec (.stb ref) s = .next t ∧ wordAt t addr = s.b ∧ sameWordsExcept [addr] s t ∧ sameRegisters s t ∧
        t.p = s.p + 1#16 ∧ t.m = s.p + 1#16 ∧ t.mem.wf = true)) ∧
    (∀ r, regFormAddress s r = .ok addr →
      (∃ t, exec (.staReg r) s = .next t ∧ wordAt t addr = s.a ∧ sameWordsExcept [addr] s t ∧ sameRegisters s t ∧
        t.p = s.p + 1#16 ∧ t.m = s.p + 1#16 ∧ t.mem.wf = true) ∧
      (∃ t, exec (.stbReg r) s = .next t ∧ wordAt t addr = s.b ∧ sameWordsExcept [addr] s t ∧ sameRegisters s t ∧
        t.p = s.p + 1#16 ∧ t.m = s.p + 1#16 ∧ t.mem.wf = true))

/-- ISZ and DSZ (40_memory_reference.md section 2). That E is unchanged is decision D7 (log 17). -/
def Obligations.CountSkipsOnZero : Prop :=
  ∀ (s : State) (addr : Word), s.mem.wf = true → writable s addr →
    ∀ (i : Instr) (count : Nat),
      ((∃ ref, memFormAddress s ref = .ok addr ∧ (i = .isz ref ∧ count = 1 ∨ i = .dsz ref ∧ count = 65535)) ∨
        (∃ r, regFormAddress s r = .ok addr ∧ (i = .iszReg r ∧ count = 1 ∨ i = .dszReg r ∧ count = 65535))) →
      ∃ t, exec i s = .next t ∧ (wordAt t addr).toNat = ((wordAt s addr).toNat + count) % 65536 ∧
        sameWordsExcept [addr] s t ∧ sameRegisters s t ∧
        t.p = s.p + (if ((wordAt s addr).toNat + count) % 65536 = 0 then 2#16 else 1#16) ∧ t.m = t.p ∧ t.mem.wf = true

/-- The refusals of MemRead and MemWrite (decisions D3, D28; log 13, log 30) in the instructions that form their own addresses: JSM and RET (order and alias D13, log 29), CLR and XFR (order D18, log 32; a partial overlap of XFR is another refusal, log 35), and MDI, whose exponent word counts by the model's reading of the addresses it touches (log 10). -/
def Obligations.StoresAndStackRefused : Prop :=
  ∀ (s : State) (addr : Word),
    let sp := wordAt s Config.spAddr
    let word (base : Word) (k : Nat) : Word := base + BitVec.ofNat 16 k
    (¬ writable s addr → ∀ ref, memFormAddress s ref = .ok addr →
      ∀ i ∈ [Instr.sta ref, .stb ref, .isz ref, .dsz ref], exec i s = .refused (accessRefusal addr)) ∧
    (¬ writable s addr → ∀ r, regFormAddress s r = .ok addr →
      ∀ i ∈ [Instr.staReg r, .stbReg r, .iszReg r, .dszReg r], exec i s = .refused (accessRefusal addr)) ∧
    (∀ i, ((∃ ref, i = .jsm ref ∧ memFormAddress s ref = .ok addr) ∨ (∃ r, i = .jsmReg r ∧ regFormAddress s r = .ok addr)) →
      (¬ writable s sp → exec i s = .refused (accessRefusal sp)) ∧
      (sp = 0o1777#16 → exec i s = .refused .stackAliasesSp)) ∧
    (¬ readable s (sp - 1#16) → exec .ret s = .refused (accessRefusal (sp - 1#16))) ∧
    (sp = 0o2000#16 → exec .ret s = .refused .stackAliasesSp) ∧
    (∀ k, k < 4 → (∀ j, j < k → writable s (word s.a j)) → ¬ writable s (word s.a k) →
      exec .clr s = .refused (accessRefusal (word s.a k))) ∧
    ((s.a = s.b ∨ s.a.toNat + 4 ≤ s.b.toNat ∨ s.b.toNat + 4 ≤ s.a.toNat) →
      ∀ k, k < 4 → (∀ j, j < k → readable s (word s.a j) ∧ writable s (word s.b j)) →
        (¬ readable s (word s.a k) → exec .xfr s = .refused (accessRefusal (word s.a k))) ∧
        (readable s (word s.a k) → ¬ writable s (word s.b k) → exec .xfr s = .refused (accessRefusal (word s.b k)))) ∧
    (∀ k, k < 4 → (∀ j, j < k → readable s (word s.a j)) → ¬ readable s (word s.a k) →
      exec .mdi s = .refused (accessRefusal (word s.a k))) ∧
    ((∀ k, k < 4 → readable s (word s.a k)) → decimalAt s s.a → ¬ mantWritable s s.a → exec .mdi s = .refused .memmap)

/-- JSM (40_memory_reference.md section 3). That P is the address of the JSM itself is decision D5 (log 18), the order of the accesses D13 (log 29), E unchanged D7 (log 17). -/
def Obligations.CallPushesItsAddress : Prop :=
  ∀ (s : State) (target : Word), s.mem.wf = true → writable s (wordAt s Config.spAddr) →
    wordAt s Config.spAddr ≠ Config.spAddr →
    ∀ i : Instr, ((∃ ref, i = .jsm ref ∧ memFormAddress s ref = .ok target) ∨
        (∃ r, i = .jsmReg r ∧ regFormAddress s r = .ok target)) →
      ∃ t, exec i s = .next t ∧ wordAt t (wordAt s Config.spAddr) = s.p ∧
        wordAt t Config.spAddr = wordAt s Config.spAddr + 1#16 ∧
        sameWordsExcept [wordAt s Config.spAddr, Config.spAddr] s t ∧ sameRegisters s t ∧ t.p = target ∧ t.m = target ∧
        t.mem.wf = true

/-- JMP (40_memory_reference.md section 3, conflict C8). That E is unchanged is decision D7 (log 17). -/
def Obligations.JumpGoesToOperandAddress : Prop :=
  ∀ (s : State) (target : Word),
    (∀ ref, memFormAddress s ref = .ok target → exec (.jmp ref) s = .next { s with p := target, m := target }) ∧
    (∀ r, regFormAddress s r = .ok target → exec (.jmpReg r) s = .next { s with p := target, m := target })

/-- The end-of-run marker of 70_reset_and_hazards.md section 2, a convention of the spec (decision D29). -/
def Obligations.JumpToItselfRestsForEver : Prop :=
  ∀ (s : State) (ref : MemRef), s.dmaWait = false → s.m = s.p → readable s s.p → ref.indirect = false →
    decode s.plat (wordAt s s.p) = .ok (.jmp ref) → memFormAddress s ref = .ok s.p →
    ∀ k, Sys2Proof.core.run k s = .next s

/-- AAR and ABR (41_shift_rotate.md). That E is unchanged is decision D7 (log 17). -/
def Obligations.ArithmeticRightShiftIsFloorDivision : Prop :=
  ∀ (s : State) (n : Nat), 1 ≤ n → n ≤ 16 →
    (∃ x : Word, x.toInt = s.a.toInt / 2 ^ n ∧ (∀ k, 15 - n ≤ k → k < 16 → wordBit x k = wordBit s.a 15) ∧
      exec (.aar n) s = .next { s with a := x, p := s.p + 1#16, m := s.p + 1#16 }) ∧
    (∃ x : Word, x.toInt = s.b.toInt / 2 ^ n ∧ (∀ k, 15 - n ≤ k → k < 16 → wordBit x k = wordBit s.b 15) ∧
      exec (.abr n) s = .next { s with b := x, p := s.p + 1#16, m := s.p + 1#16 })

/-- SAR, SBR, SAL and SBL (41_shift_rotate.md). That E is unchanged is decision D7 (log 17). -/
def Obligations.LogicalShiftsDivideAndMultiply : Prop :=
  ∀ (s : State) (n : Nat), 1 ≤ n → n ≤ 16 →
    exec (.sar n) s = .next { s with a := BitVec.ofNat 16 (s.a.toNat / 2 ^ n), p := s.p + 1#16, m := s.p + 1#16 } ∧
    exec (.sbr n) s = .next { s with b := BitVec.ofNat 16 (s.b.toNat / 2 ^ n), p := s.p + 1#16, m := s.p + 1#16 } ∧
    exec (.sal n) s = .next { s with a := BitVec.ofNat 16 (s.a.toNat * 2 ^ n), p := s.p + 1#16, m := s.p + 1#16 } ∧
    exec (.sbl n) s = .next { s with b := BitVec.ofNat 16 (s.b.toNat * 2 ^ n), p := s.p + 1#16, m := s.p + 1#16 }

/-- RAR and RBR (41_shift_rotate.md). That E is unchanged, and no part of the rotation, is decision D7 (log 17). -/
def Obligations.RotateMovesEveryBitRound : Prop :=
  ∀ (s : State) (n : Nat), 1 ≤ n → n ≤ 16 →
    (∃ x : Word, (∀ k, k < 16 → wordBit x k = wordBit s.a ((k + n) % 16)) ∧ (n = 16 → x = s.a) ∧
      exec (.rar n) s = .next { s with a := x, p := s.p + 1#16, m := s.p + 1#16 }) ∧
    (∃ x : Word, (∀ k, k < 16 → wordBit x k = wordBit s.b ((k + n) % 16)) ∧ (n = 16 → x = s.b) ∧
      exec (.rbr n) s = .next { s with b := x, p := s.p + 1#16, m := s.p + 1#16 })

/-- The skip and the four zero tests (42_alter_skip.md). That E is unchanged is decision D7 (log 17); that the distance counts from the instruction itself is the spec's reading of its skip table (D5, log 18). -/
def Obligations.ZeroTestSkips : Prop :=
  ∀ (s : State) (n : Int),
    let hop := BitVec.ofInt 16 (s.p.toNat + n)
    let on := BitVec.ofInt 16 (s.p.toNat + 1)
    exec (.sza n) s = .next { s with p := if s.a = 0#16 then hop else on, m := if s.a = 0#16 then hop else on } ∧
    exec (.szb n) s = .next { s with p := if s.b = 0#16 then hop else on, m := if s.b = 0#16 then hop else on } ∧
    exec (.rza n) s = .next { s with p := if s.a = 0#16 then on else hop, m := if s.a = 0#16 then on else hop } ∧
    exec (.rzb n) s = .next { s with p := if s.b = 0#16 then on else hop, m := if s.b = 0#16 then on else hop }

/-- SIA, SIB, RIA and RIB (42_alter_skip.md). That E takes no carry is decision D7 (log 17). -/
def Obligations.IncrementSkipsOnTheOldValue : Prop :=
  ∀ (s : State) (n : Int),
    let hop := BitVec.ofInt 16 (s.p.toNat + n)
    let on := BitVec.ofInt 16 (s.p.toNat + 1)
    let a := BitVec.ofNat 16 (s.a.toNat + 1)
    let b := BitVec.ofNat 16 (s.b.toNat + 1)
    exec (.sia n) s = .next { s with a := a, p := if s.a = 0#16 then hop else on, m := if s.a = 0#16 then hop else on } ∧
    exec (.sib n) s = .next { s with b := b, p := if s.b = 0#16 then hop else on, m := if s.b = 0#16 then hop else on } ∧
    exec (.ria n) s = .next { s with a := a, p := if s.a = 0#16 then on else hop, m := if s.a = 0#16 then on else hop } ∧
    exec (.rib n) s = .next { s with b := b, p := if s.b = 0#16 then on else hop, m := if s.b = 0#16 then on else hop }

/-- The alter bits and the six bit tests (42_alter_skip.md). That E is unchanged is decision D7 (log 17). -/
def Obligations.BitTestAltersAfterTheTest : Prop :=
  ∀ (s : State) (n : Int) (set clear : Bool),
    let next (met : Bool) := BitVec.ofInt 16 (s.p.toNat + if met then n else 1)
    let altered (x y : Word) (bit : Nat) := ∀ k, k < 16 →
      wordBit y k = if k = bit then (if set then true else if clear then false else wordBit x k) else wordBit x k
    (∃ y, altered s.a y 0 ∧ exec (.sla n set clear) s =
      .next { s with a := y, p := next (!wordBit s.a 0), m := next (!wordBit s.a 0) }) ∧
    (∃ y, altered s.b y 0 ∧ exec (.slb n set clear) s =
      .next { s with b := y, p := next (!wordBit s.b 0), m := next (!wordBit s.b 0) }) ∧
    (∃ y, altered s.a y 15 ∧ exec (.sam n set clear) s =
      .next { s with a := y, p := next (wordBit s.a 15), m := next (wordBit s.a 15) }) ∧
    (∃ y, altered s.b y 15 ∧ exec (.sbm n set clear) s =
      .next { s with b := y, p := next (wordBit s.b 15), m := next (wordBit s.b 15) }) ∧
    (∃ y, altered s.a y 15 ∧ exec (.sap n set clear) s =
      .next { s with a := y, p := next (!wordBit s.a 15), m := next (!wordBit s.a 15) }) ∧
    (∃ y, altered s.b y 15 ∧ exec (.sbp n set clear) s =
      .next { s with b := y, p := next (!wordBit s.b 15), m := next (!wordBit s.b 15) })

/-- R146, R147. -/
def Obligations.CarryTestAltersAllOfE : Prop :=
  ∀ (s : State) (n : Int) (set clear : Bool),
    let next (met : Bool) := BitVec.ofInt 16 (s.p.toNat + if met then n else 1)
    let e := if set then 0b1111#4 else if clear then 0b0000#4 else s.e
    exec (.ses n set clear) s =
      .next { s with e := e, p := next (decide (s.e.toNat % 2 = 1)), m := next (decide (s.e.toNat % 2 = 1)) } ∧
    exec (.sec n set clear) s =
      .next { s with e := e, p := next (decide (s.e.toNat % 2 = 0)), m := next (decide (s.e.toNat % 2 = 0)) }

/-- CMA, CMB, TCA and TCB (43_complement_execute_dma.md). That E is unchanged, also by the increment, is decision D7 (log 17). -/
def Obligations.ComplementsReplaceTheRegister : Prop :=
  ∀ s : State,
    exec .cma s = .next { s with a := BitVec.ofNat 16 (65535 - s.a.toNat), p := s.p + 1#16, m := s.p + 1#16 } ∧
    exec .cmb s = .next { s with b := BitVec.ofNat 16 (65535 - s.b.toNat), p := s.p + 1#16, m := s.p + 1#16 } ∧
    exec .tca s = .next { s with a := BitVec.ofNat 16 (65536 - s.a.toNat), p := s.p + 1#16, m := s.p + 1#16 } ∧
    exec .tcb s = .next { s with b := BitVec.ofNat 16 (65536 - s.b.toNat), p := s.p + 1#16, m := s.p + 1#16 }

/-- EXA and EXB (43_complement_execute_dma.md). That P keeps the address of the EXA or EXB is decision D21 (log 15). -/
def Obligations.ExecuteRunsTheRegistersWord : Prop :=
  ∀ s : State,
    (∀ i, decode s.plat s.a = .ok i → i ≠ .exa → i ≠ .exb → exec .exa s = exec i s) ∧
    (∀ i, decode s.plat s.b = .ok i → i ≠ .exa → i ≠ .exb → exec .exb s = exec i s) ∧
    (∀ e, decode s.plat s.a = .error e → exec .exa s = .refused (refusalOf e)) ∧
    (∀ e, decode s.plat s.b = .error e → exec .exb s = .refused (refusalOf e))

/-- EXA and EXB execute the register's content in the normal manner (43_complement_execute_dma.md; decision D21, log 15): here for the instructions that complete in every state. -/
def Obligations.ExecuteCompletesOnRegisterInstructions : Prop :=
  ∀ (s : State) (i : Instr), registerOnly i = true →
    (decode s.plat s.a = .ok i → ∃ t, exec .exa s = .next t ∧ exec i s = .next t ∧ sameWordsExcept [] s t) ∧
    (decode s.plat s.b = .ok i → ∃ t, exec .exb s = .next t ∧ exec i s = .next t ∧ sameWordsExcept [] s t)

/-- The corner cases of EXA and EXB (43_complement_execute_dma.md, decision D21, log 15). -/
def Obligations.ExecuteChainsOrHangs : Prop :=
  ∀ s : State,
    (∀ i, decode s.plat s.a = .ok .exb → decode s.plat s.b = .ok i → i ≠ .exa → i ≠ .exb → exec .exa s = exec i s) ∧
    (∀ i, decode s.plat s.b = .ok .exa → decode s.plat s.a = .ok i → i ≠ .exa → i ≠ .exb → exec .exb s = exec i s) ∧
    (∀ e, decode s.plat s.a = .ok .exb → decode s.plat s.b = .error e → exec .exa s = .refused (refusalOf e)) ∧
    (∀ e, decode s.plat s.b = .ok .exa → decode s.plat s.a = .error e → exec .exb s = .refused (refusalOf e)) ∧
    (decode s.plat s.a = .ok .exa → exec .exa s = .fault .hangExecute) ∧
    (decode s.plat s.b = .ok .exb → exec .exb s = .fault .hangExecute) ∧
    (decode s.plat s.a = .ok .exb → decode s.plat s.b = .ok .exa ∨ decode s.plat s.b = .ok .exb →
      exec .exa s = .fault .hangExecute) ∧
    (decode s.plat s.b = .ok .exa → decode s.plat s.a = .ok .exa ∨ decode s.plat s.a = .ok .exb →
      exec .exb s = .fault .hangExecute)

/-- DMA (43_complement_execute_dma.md, decision D22). That P stays at the DMA instruction and M keeps the last word handed over while the processor waits is the model's reading (log 9). -/
def Obligations.DmaHandsOverAndWaits : Prop :=
  ∀ s : State,
    (s.plat.dmaAgent = .absent → exec .dma s = .refused .dmaUnmodelled) ∧
    (s.plat.dmaAgent = .fitted → exec .dma s = .next { s with dmaWait := true, m := s.b })

/-- The wait of 10_state.md section 6. That the control stores only at the release and only into RW words, and leaves all else alone until then, is the model's choice (log 9, unsafe: 43_complement_execute_dma.md assumes nothing about the control); what it leaves in A, B, E, P and in RW memory is a free value. -/
def Obligations.WaitingProcessorExecutesNothing : Prop :=
  ∀ s : State, s.dmaWait = true →
    (s.plat.dmaAgent = .absent → step s = .fault .hangDma) ∧
    (∀ t, step s = .next t →
      (t.dmaWait = true → t = { s with freeCount := s.freeCount + 1 }) ∧
      (t.dmaWait = false → t.m = t.p ∧ t.plat = s.plat ∧
        ∀ addr, wordBit addr 15 = false → memKind s.plat addr.toNat ≠ .rw → wordAt t addr = wordAt s addr)) ∧
    (s.plat.dmaAgent = .fitted → ∃ t, step s = .next t)

/-- RET (44_mac.md section 2). That P is incremented after the pop is decision D5 (log 18), the order of the accesses D13 (log 29). -/
def Obligations.ReturnPopsAndAddsOne : Prop :=
  ∀ s : State, s.mem.wf = true → readable s (wordAt s Config.spAddr - 1#16) →
    wordAt s Config.spAddr - 1#16 ≠ Config.spAddr →
    ∃ t, exec .ret s = .next t ∧ t.p = wordAt s (wordAt s Config.spAddr - 1#16) + 1#16 ∧ t.m = t.p ∧
      wordAt t Config.spAddr = wordAt s Config.spAddr - 1#16 ∧ sameWordsExcept [Config.spAddr] s t ∧
      sameRegisters s t ∧ t.mem.wf = true

/-- The pairing of JSM and RET (44_mac.md section 2, decision D5, log 18). -/
def Obligations.CallThenReturnComesBack : Prop :=
  ∀ (s t : State), s.mem.wf = true → ((∃ ref, exec (.jsm ref) s = .next t) ∨ (∃ r, exec (.jsmReg r) s = .next t)) →
    ∃ u, exec .ret t = .next u ∧ u.p = s.p + 1#16 ∧ u.m = s.p + 1#16 ∧ wordAt u Config.spAddr = wordAt s Config.spAddr ∧
      sameWordsExcept [wordAt s Config.spAddr] s u ∧ sameRegisters s u

/-- R181. -/
def Obligations.MoveOverflowTakesE : Prop :=
  ∀ s : State, exec .mov s =
    .next { s with a := BitVec.ofNat 16 s.e.toNat, e := 0b0000#4, p := s.p + 1#16, m := s.p + 1#16 }

/-- R182. -/
def Obligations.ClearZeroesFourWords : Prop :=
  ∀ s : State, s.mem.wf = true → (∀ k, k < 4 → writable s (s.a + BitVec.ofNat 16 k)) →
    ∃ t, exec .clr s = .next t ∧ (∀ k, k < 4 → wordAt t (s.a + BitVec.ofNat 16 k) = 0#16) ∧
      sameWordsExcept [s.a, s.a + 1#16, s.a + 2#16, s.a + 3#16] s t ∧ sameRegisters s t ∧
      t.p = s.p + 1#16 ∧ t.m = s.p + 1#16 ∧ t.mem.wf = true

/-- XFR (44_mac.md section 2). A and B are unchanged by decision D19, a parameter (log 8); the overlap is refused by D18 (log 22); that it is tested before any access, so that xfr-overlap is the name in every memory, is the model's choice (log 35). -/
def Obligations.TransferCopiesFourWords : Prop :=
  ∀ s : State,
    (s.mem.wf = true → (∀ k, k < 4 → readable s (s.a + BitVec.ofNat 16 k) ∧ writable s (s.b + BitVec.ofNat 16 k)) →
      (s.a = s.b ∨ s.a.toNat + 4 ≤ s.b.toNat ∨ s.b.toNat + 4 ≤ s.a.toNat) →
      ∃ t, exec .xfr s = .next t ∧ (∀ k, k < 4 → wordAt t (s.b + BitVec.ofNat 16 k) = wordAt s (s.a + BitVec.ofNat 16 k)) ∧
        sameWordsExcept [s.b, s.b + 1#16, s.b + 2#16, s.b + 3#16] s t ∧ t.e = s.e ∧ t.dmaWait = s.dmaWait ∧
        t.plat = s.plat ∧ (s.plat.unlistedRegs = .unchanged → sameRegisters s t) ∧
        t.p = s.p + 1#16 ∧ t.m = s.p + 1#16 ∧ t.mem.wf = true) ∧
    (s.a ≠ s.b → s.a.toNat < s.b.toNat + 4 → s.b.toNat < s.a.toNat + 4 → exec .xfr s = .refused .xfrOverlap)

/-- MRX and MRY (44_mac.md section 3). One shift takes A[3:0] in and sends D12 out by conflict C9 and decision D17 (log 34); n = 0 is refused by D17 (log 22). The places of the digits are the parameter MANT_LAYOUT (log 12). -/
def Obligations.MantissaRightShiftClosedForm : Prop :=
  ∀ (s : State) (i : Instr) (base : Word), i = .mrx ∧ base = Config.ar1Base ∨ i = .mry ∧ base = Config.ar2Base →
    let n := s.b.toNat % 16
    let moved := List.replicate (n - 1) 0#4 ++ s.a.extractLsb' 0 4 :: digitsAt s base
    (n = 0 → exec i s = .refused .mrxCountZero) ∧
    (s.mem.wf = true → layoutOk s.plat.mantLayout = true → 1 ≤ n →
      ∃ t, exec i s = .next t ∧ digitsAt t base = moved.take 12 ∧ t.a.toNat = (moved.getD 12 0#4).toNat ∧
        t.b.toNat = s.b.toNat - n ∧ t.e = 0b0000#4 ∧ t.p = s.p + 1#16 ∧ t.m = s.p + 1#16 ∧ t.dmaWait = s.dmaWait ∧
        t.plat = s.plat ∧ t.freeCount = s.freeCount ∧ sameWordsExcept (mantAddrs s base) s t ∧ t.mem.wf = true)

/-- R186. -/
def Obligations.MantissaLeftShiftOfAR2 : Prop :=
  ∀ s : State, s.mem.wf = true → layoutOk s.plat.mantLayout = true →
    ∃ t, exec .mls s = .next t ∧ digitsAt t Config.ar2Base = (digitsAt s Config.ar2Base).drop 1 ++ [0#4] ∧
      t.a.toNat = ((digitsAt s Config.ar2Base).getD 0 0#4).toNat ∧ t.b = s.b ∧ t.e = 0b0000#4 ∧
      t.p = s.p + 1#16 ∧ t.m = s.p + 1#16 ∧ t.dmaWait = s.dmaWait ∧ t.plat = s.plat ∧ t.freeCount = s.freeCount ∧
      sameWordsExcept (mantAddrs s Config.ar2Base) s t ∧ t.mem.wf = true

/-- R187, R188. -/
def Obligations.DigitShiftsOfAR1 : Prop :=
  ∀ s : State, s.mem.wf = true → layoutOk s.plat.mantLayout = true →
    ∀ (i : Instr) (digits : List Nibble) (out : Nibble),
      (i = .drs ∧ digits = 0#4 :: (digitsAt s Config.ar1Base).take 11 ∧ out = (digitsAt s Config.ar1Base).getD 11 0#4 ∨
        i = .dls ∧ digits = (digitsAt s Config.ar1Base).drop 1 ++ [BitVec.ofNat 4 s.a.toNat] ∧
          out = (digitsAt s Config.ar1Base).getD 0 0#4) →
      ∃ t, exec i s = .next t ∧ digitsAt t Config.ar1Base = digits ∧ t.a.toNat = out.toNat ∧ t.b = s.b ∧
        t.e = 0b0000#4 ∧ t.p = s.p + 1#16 ∧ t.m = s.p + 1#16 ∧ t.dmaWait = s.dmaWait ∧ t.plat = s.plat ∧
        t.freeCount = s.freeCount ∧ sameWordsExcept (mantAddrs s Config.ar1Base) s t ∧ t.mem.wf = true

/-- FXA (44_mac.md section 4). That A is unchanged is decision D19, a parameter (log 8); the places of the digits are the parameter MANT_LAYOUT (log 12). -/
def Obligations.FixedPointAddition : Prop :=
  ∀ (s : State) (dc : Nat), s.mem.wf = true → layoutOk s.plat.mantLayout = true → decimalAt s Config.ar1Base →
    decimalAt s Config.ar2Base → s.e = 0b0000#4 ∧ dc = 0 ∨ s.e = 0b1111#4 ∧ dc = 1 →
    let v := valueAt s Config.ar2Base + valueAt s Config.ar1Base + dc
    ∃ t, exec .fxa s = .next t ∧ valueAt t Config.ar2Base = v % 10 ^ 12 ∧ decimalAt t Config.ar2Base ∧
      t.e = (if 10 ^ 12 ≤ v then 0b0001#4 else 0b0000#4) ∧ t.b = s.b ∧
      (s.plat.unlistedRegs = .unchanged → t.a = s.a ∧ t.freeCount = s.freeCount) ∧
      t.p = s.p + 1#16 ∧ t.m = s.p + 1#16 ∧ t.dmaWait = s.dmaWait ∧ t.plat = s.plat ∧
      sameWordsExcept (mantAddrs s Config.ar2Base) s t ∧ t.mem.wf = true

/-- FMP (44_mac.md section 4). That B is unchanged is decision D19, a parameter (log 8); the places of the digits are MANT_LAYOUT (log 12). -/
def Obligations.FastMultiply : Prop :=
  ∀ (s : State) (dc : Nat), s.mem.wf = true → layoutOk s.plat.mantLayout = true → decimalAt s Config.ar1Base →
    decimalAt s Config.ar2Base → s.e = 0b0000#4 ∧ dc = 0 ∨ s.e = 0b1111#4 ∧ dc = 1 →
    let v := valueAt s Config.ar2Base + s.b.toNat % 16 * valueAt s Config.ar1Base + dc
    ∃ t, exec .fmp s = .next t ∧ valueAt t Config.ar2Base = v % 10 ^ 12 ∧ decimalAt t Config.ar2Base ∧
      t.a.toNat = v / 10 ^ 12 ∧ t.e = 0b0000#4 ∧
      (s.plat.unlistedRegs = .unchanged → t.b = s.b ∧ t.freeCount = s.freeCount) ∧
      t.p = s.p + 1#16 ∧ t.m = s.p + 1#16 ∧ t.dmaWait = s.dmaWait ∧ t.plat = s.plat ∧
      sameWordsExcept (mantAddrs s Config.ar2Base) s t ∧ t.mem.wf = true

/-- FDV (44_mac.md section 4, decision D20): the model computes the closed form, this says it is the loop. That A is unchanged is decision D19, a parameter (log 8). -/
def Obligations.FastDivideIsTheLoop : Prop :=
  ∀ (s : State) (dc : Nat), s.mem.wf = true → layoutOk s.plat.mantLayout = true → decimalAt s Config.ar1Base →
    decimalAt s Config.ar2Base → s.e = 0b0000#4 ∧ dc = 0 ∨ s.e = 0b1111#4 ∧ dc = 1 →
    let v1 := valueAt s Config.ar1Base
    let v2 := valueAt s Config.ar2Base
    (∀ fuel q r, fdvLoop fuel v1 v2 dc 0 = some (q, r) →
      ∃ t, exec .fdv s = .next t ∧ valueAt t Config.ar2Base = r ∧ decimalAt t Config.ar2Base ∧
        t.b = s.b + BitVec.ofNat 16 q ∧ t.e = 0b0000#4 ∧
        (s.plat.unlistedRegs = .unchanged → t.a = s.a ∧ t.freeCount = s.freeCount) ∧
        t.p = s.p + 1#16 ∧ t.m = s.p + 1#16 ∧ t.dmaWait = s.dmaWait ∧ t.plat = s.plat ∧
        sameWordsExcept (mantAddrs s Config.ar2Base) s t ∧ t.mem.wf = true) ∧
    ((∀ fuel, fdvLoop fuel v1 v2 dc 0 = none) → exec .fdv s = .fault .hangFdv) ∧
    ((∃ fuel q r, fdvLoop fuel v1 v2 dc 0 = some (q, r)) ↔ v1 ≠ 0 ∨ v2 + dc = 10 ^ 12)

/-- The closed form of FDV (44_mac.md section 4, derived there from the loop). -/
def Obligations.FastDivideCompletes : Prop :=
  ∀ (s : State) (dc : Nat), s.mem.wf = true → layoutOk s.plat.mantLayout = true → decimalAt s Config.ar1Base →
    decimalAt s Config.ar2Base → s.e = 0b0000#4 ∧ dc = 0 ∨ s.e = 0b1111#4 ∧ dc = 1 →
    let v1 := valueAt s Config.ar1Base
    let sum := valueAt s Config.ar2Base + dc
    let q := (10 ^ 12 - 1 - sum) / v1
    (v1 ≠ 0 → sum < 10 ^ 12 → ∃ t, exec .fdv s = .next t ∧ t.b = s.b + BitVec.ofNat 16 q ∧
      valueAt t Config.ar2Base = sum + (q + 1) * v1 - 10 ^ 12 ∧ t.e = 0b0000#4) ∧
    (sum = 10 ^ 12 → ∃ t, exec .fdv s = .next t ∧ t.b = s.b ∧ valueAt t Config.ar2Base = v1 ∧ t.e = 0b0000#4)

/-- CMX and CMY (44_mac.md section 4). The complement of zero is decision D33 (log 27); A unchanged is D19, a parameter (log 8). -/
def Obligations.TensComplement : Prop :=
  ∀ (s : State) (i : Instr) (base : Word), i = .cmx ∧ base = Config.ar1Base ∨ i = .cmy ∧ base = Config.ar2Base →
    s.mem.wf = true → layoutOk s.plat.mantLayout = true → decimalAt s base →
    ∃ t, exec i s = .next t ∧ valueAt t base = (10 ^ 12 - valueAt s base) % 10 ^ 12 ∧ decimalAt t base ∧
      t.e = 0b0000#4 ∧ t.b = s.b ∧ (s.plat.unlistedRegs = .unchanged → t.a = s.a ∧ t.freeCount = s.freeCount) ∧
      t.p = s.p + 1#16 ∧ t.m = s.p + 1#16 ∧ t.dmaWait = s.dmaWait ∧ t.plat = s.plat ∧
      sameWordsExcept (mantAddrs s base) s t ∧ t.mem.wf = true

/-- A corner case of CMX (44_mac.md section 4); for a zero mantissa it rests on decision D33 (log 27). -/
def Obligations.TensComplementTwiceRestores : Prop :=
  ∀ (s t : State) (i : Instr) (base : Word), i = .cmx ∧ base = Config.ar1Base ∨ i = .cmy ∧ base = Config.ar2Base →
    s.mem.wf = true → layoutOk s.plat.mantLayout = true → exec i s = .next t →
    ∃ u, exec i t = .next u ∧ digitsAt u base = digitsAt s base

/-- MDI (44_mac.md section 4). That the exponent word must be readable is the model's reading of the addresses MDI touches (log 10); A unchanged is decision D19, a parameter (log 8). -/
def Obligations.MantissaDecimalIncrement : Prop :=
  ∀ s : State, s.mem.wf = true → layoutOk s.plat.mantLayout = true →
    (∀ k, k < 4 → readable s (s.a + BitVec.ofNat 16 k)) → mantWritable s s.a → decimalAt s s.a →
    ∃ t, exec .mdi s = .next t ∧
      valueAt t s.a = (if valueAt s s.a = 10 ^ 12 - 1 then 10 ^ 11 else valueAt s s.a + 1) ∧ decimalAt t s.a ∧
      t.e = (if valueAt s s.a = 10 ^ 12 - 1 then 0b0001#4 else 0b0000#4) ∧ t.b = s.b ∧
      (s.plat.unlistedRegs = .unchanged → t.a = s.a ∧ t.freeCount = s.freeCount) ∧
      t.p = s.p + 1#16 ∧ t.m = s.p + 1#16 ∧ t.dmaWait = s.dmaWait ∧ t.plat = s.plat ∧
      sameWordsExcept (mantAddrs s s.a) s t ∧ t.mem.wf = true

/-- NRM (44_mac.md section 4); for a zero mantissa it rests on decision D33 (log 27). -/
def Obligations.NormalizationRotatesOutLeadingZeros : Prop :=
  ∀ s : State, s.mem.wf = true → layoutOk s.plat.mantLayout = true →
    let digits := digitsAt s Config.ar2Base
    let c := (digits.takeWhile (fun digit => digit == 0#4)).length
    ∃ t, exec .nrm s = .next t ∧ digitsAt t Config.ar2Base = digits.drop c ++ List.replicate c 0#4 ∧ t.b.toNat = c ∧
      t.e = (if c = 12 then 0b0001#4 else 0b0000#4) ∧ t.a = s.a ∧ t.freeCount = s.freeCount ∧
      t.p = s.p + 1#16 ∧ t.m = s.p + 1#16 ∧ t.dmaWait = s.dmaWait ∧ t.plat = s.plat ∧
      sameWordsExcept (mantAddrs s Config.ar2Base) s t ∧ t.mem.wf = true

/-- The cases the spec refuses by the decisions D15 and D16 (log 22). -/
def Obligations.DecimalOperandsRefused : Prop :=
  ∀ s : State,
    (s.e ≠ 0b0000#4 → s.e ≠ 0b1111#4 → ∀ i ∈ [Instr.fxa, .fmp, .fdv], exec i s = .refused .dcUndefined) ∧
    (s.e = 0b0000#4 ∨ s.e = 0b1111#4 → ¬ decimalAt s Config.ar2Base ∨ ¬ decimalAt s Config.ar1Base →
      ∀ i ∈ [Instr.fxa, .fmp, .fdv], exec i s = .refused .nonBcdDigit) ∧
    (¬ decimalAt s Config.ar1Base → exec .cmx s = .refused .nonBcdDigit) ∧
    (¬ decimalAt s Config.ar2Base → exec .cmy s = .refused .nonBcdDigit) ∧
    ((∀ k, k < 4 → readable s (s.a + BitVec.ofNat 16 k)) → ¬ decimalAt s s.a → exec .mdi s = .refused .nonBcdDigit)

/-- InitialState fixes dma_wait = false and M = P (decision D27); every other value of the reset state is the model's (log 2, log 3, log 31). -/
def Obligations.ResetState : Prop :=
  State.reset.dmaWait = false ∧ State.reset.m = State.reset.p ∧ State.reset.Inv ∧ State.reset.plat = Config.defaultPlatform ∧
    State.reset.plat.wf

/-- M equals P at every instruction boundary (10_state.md sections 3 and 9); the canonical form of memory is the model's (log 4). -/
def Obligations.StepKeepsInvariant : Prop :=
  ∀ s t : State, s.Inv → step s = .next t → t.Inv

/-- The parameters are not state (10_state.md section 9): the model carries them beside it (log 1). -/
def Obligations.ParametersNeverChange : Prop :=
  ∀ (k : Nat) (s t : State), Sys2Proof.core.run k s = .next t → t.plat = s.plat

/-- Writes reach RW memory only (20_memory.md section 1, decision D28, log 13); that a DMA control keeps to it is the model's (log 9). -/
def Obligations.OnlyRwMemoryChanges : Prop :=
  ∀ (k : Nat) (s t : State) (addr : Word), s.Inv → Sys2Proof.core.run k s = .next t → wordBit addr 15 = false →
    memKind s.plat addr.toNat ≠ .rw → wordAt t addr = wordAt s addr

/-- The tables of readers and writers of 10_state.md sections 1 and 2. E unchanged by the others is decision D7 (log 17); the unlisted A and B of the MAC group D19, a parameter (log 8). -/
def Obligations.RegistersChangeOnlyByTheirWriters : Prop :=
  ∀ (i : Instr) (s t : State), s.plat.unlistedRegs = .unchanged → i ≠ .exa → i ≠ .exb → exec i s = .next t →
    (writesA i = false → t.a = s.a) ∧ (writesB i = false → t.b = s.b) ∧ (writesE i = false → t.e = s.e)

/-- The complete list of reasons for not completing (60_exceptions.md section 1): none of them can arise from the encoded instructions alone. -/
def Obligations.SingleLevelTableProgramsNeverHang : Prop :=
  ∀ s : State, s.dmaWait = false → s.plat.encUnknown = [] → s.plat.indirectChain ≠ .multilevel → SafeRun s
end

