-- ==== Sys2Proof/Laws/Effects.lean ====
section
/-! SUPPORT. What the effects that instructions share can do, said once: stores, counts and calls, the four words
of a register, the words a DMA control stores, the execution of a word, and a run of steps. -/

namespace Sys2Proof.Machine

/-! ## Stores, counts and calls -/

/-- R88, R89: a store answers exactly at a writable address, with the register stored and P advanced. -/
theorem storeEffect_ok_iff (s : State) (r : Reg) (addr : Word) (t : State) :
    storeEffect s r addr = .ok t ↔ writable s addr ∧ t = (storedAt s addr (s.reg r)).advance := by
  unfold storeEffect
  simp only [res_bind_ok_iff, memWrite_ok_iff, res_pure, Except.ok.injEq]
  constructor
  · rintro ⟨_, ⟨h, rfl⟩, rfl⟩
    exact ⟨h, rfl⟩
  · rintro ⟨h, rfl⟩
    exact ⟨_, ⟨h, rfl⟩, rfl⟩

/-- R91, R93: a count answers exactly at a writable address, with the sum stored and a skip when it is zero. -/
theorem countEffect_ok_iff (s : State) (count addr : Word) (t : State) :
    countEffect s count addr = .ok t ↔
      writable s addr ∧ t = (storedAt s addr (wordAt s addr + count)).goto
        (skipNextTarget s.p (wordAt s addr + count == 0#16)) := by
  unfold countEffect
  simp only [res_bind_ok_iff, memRead_ok_iff, memWrite_ok_iff, res_pure, Except.ok.injEq]
  constructor
  · rintro ⟨_, ⟨_, rfl⟩, _, ⟨h, rfl⟩, rfl⟩
    exact ⟨h, rfl⟩
  · rintro ⟨h, rfl⟩
    exact ⟨_, ⟨readable_of_writable h, rfl⟩, _, ⟨h, rfl⟩, rfl⟩

/-- R94: a call answers exactly when the stack word is writable and not the stack pointer word, with both stored. -/
theorem callEffect_ok_iff (s : State) (target : Word) (t : State) :
    callEffect s target = .ok t ↔
      wordAt s Config.spAddr ≠ Config.spAddr ∧ writable s (wordAt s Config.spAddr) ∧
        t = (storedAt (storedAt s (wordAt s Config.spAddr) s.p) Config.spAddr (wordAt s Config.spAddr + 1#16)).goto target := by
  unfold callEffect
  rw [memRead_readable (readable_of_writable (writable_spAddr s)), res_ok_bind]
  by_cases h : wordAt s Config.spAddr = Config.spAddr
  · simp [h]
  · rw [if_neg h]
    simp only [res_bind_ok_iff, memWrite_ok_iff, res_pure, Except.ok.injEq]
    constructor
    · rintro ⟨_, ⟨h1, rfl⟩, _, ⟨_, rfl⟩, rfl⟩
      exact ⟨h, h1, rfl⟩
    · rintro ⟨_, h1, rfl⟩
      exact ⟨_, ⟨h1, rfl⟩, _, ⟨writable_spAddr _, rfl⟩, rfl⟩

/-! ## The four words of a register -/

/-- R198: the four words of a register are touched without a refusal exactly when all are readable. -/
theorem touchFour_ok_iff (s : State) (base : Word) (u : Unit) :
    touchFour s base = .ok u ↔
      readable s base ∧ readable s (base + 1#16) ∧ readable s (base + 2#16) ∧ readable s (base + 3#16) := by
  unfold touchFour
  simp only [res_bind_ok_iff, memRead_ok_iff, res_pure, and_true]
  constructor
  · rintro ⟨_, ⟨h0, -⟩, _, ⟨h1, -⟩, _, ⟨h2, -⟩, _, h3, -⟩
    exact ⟨h0, h1, h2, h3⟩
  · rintro ⟨h0, h1, h2, h3⟩
    exact ⟨_, ⟨h0, rfl⟩, _, ⟨h1, rfl⟩, _, ⟨h2, rfl⟩, _, h3, rfl⟩

/-- R182: four words are cleared exactly when all are writable, and nothing else changes. -/
theorem clearFour_ok_iff (s : State) (base : Word) (t : State) :
    clearFour s base = .ok t ↔
      (writable s base ∧ writable s (base + 1#16) ∧ writable s (base + 2#16) ∧ writable s (base + 3#16)) ∧
        t = storedAt (storedAt (storedAt (storedAt s base 0#16) (base + 1#16) 0#16) (base + 2#16) 0#16) (base + 3#16) 0#16 := by
  unfold clearFour
  simp only [res_bind_ok_iff, memWrite_ok_iff]
  constructor
  · rintro ⟨_, ⟨h0, rfl⟩, _, ⟨h1, rfl⟩, _, ⟨h2, rfl⟩, h3, rfl⟩
    exact ⟨⟨h0, h1, h2, h3⟩, rfl⟩
  · rintro ⟨⟨h0, h1, h2, h3⟩, rfl⟩
    exact ⟨_, ⟨h0, rfl⟩, _, ⟨h1, rfl⟩, _, ⟨h2, rfl⟩, h3, rfl⟩

/-- R183: a word is copied exactly when its source is readable and its destination writable. -/
theorem copyWord_ok_iff (s : State) (source dest : Word) (t : State) :
    copyWord s source dest = .ok t ↔ readable s source ∧ writable s dest ∧ t = storedAt s dest (wordAt s source) := by
  unfold copyWord
  simp only [res_bind_ok_iff, memRead_ok_iff, memWrite_ok_iff]
  constructor
  · rintro ⟨_, ⟨h0, rfl⟩, h1, rfl⟩
    exact ⟨h0, h1, rfl⟩
  · rintro ⟨h0, h1, rfl⟩
    exact ⟨_, ⟨h0, rfl⟩, h1, rfl⟩

/-! ## The DMA control's stores -/

/-- R33: a DMA control changes no word that MemMap does not make RW. -/
theorem dmaStores_readWord {plat : Config.Platform} {addr : Word} (h : memKind plat addr.toNat ≠ .rw)
    (writes : List (Word × Word)) (mem : Memory) :
    (dmaStores plat mem writes).readWord addr.toNat = mem.readWord addr.toNat := by
  induction writes generalizing mem with
  | nil => rfl
  | cons w rest ih =>
    obtain ⟨a, v⟩ := w
    rw [dmaStores]
    split
    · exact ih mem
    · split
      · rename_i hrw
        rw [ih]
        exact readWord_writeWord_other (by intro he; rw [he] at h; exact h hrw) v mem
      · exact ih mem
      · exact ih mem

/-- A DMA control keeps memory in canonical form. -/
theorem dmaStores_wf (plat : Config.Platform) (writes : List (Word × Word)) {mem : Memory} (hw : mem.wf = true) :
    (dmaStores plat mem writes).wf = true := by
  induction writes generalizing mem with
  | nil => exact hw
  | cons w rest ih =>
    obtain ⟨a, v⟩ := w
    rw [dmaStores]
    split
    · exact ih hw
    · rename_i h15
      split
      · exact ih (writeWord_wf (toNat_lt_of_bit15 (by simpa using h15)) v hw)
      · exact ih hw
      · exact ih hw

/-! ## Executing a word -/

theorem execPlain_eq_exec {i : Instr} (ha : i ≠ .exa) (hb : i ≠ .exb) (s : State) : execPlain i s = exec i s := by
  cases i <;> first | rfl | contradiction

theorem executeWord_ok {s : State} {w : Word} {i : Instr} (h : decode s.plat w = .ok i) (ha : i ≠ .exa) (hb : i ≠ .exb)
    (fuel : Nat) : executeWord (fuel + 1) s w = exec i s := by
  rw [executeWord, h, ← execPlain_eq_exec ha hb s]
  cases i <;> first | rfl | contradiction

theorem executeWord_exa {s : State} {w : Word} (h : decode s.plat w = .ok .exa) (fuel : Nat) :
    executeWord (fuel + 1) s w = executeWord fuel s s.a := by
  rw [executeWord, h]

theorem executeWord_exb {s : State} {w : Word} (h : decode s.plat w = .ok .exb) (fuel : Nat) :
    executeWord (fuel + 1) s w = executeWord fuel s s.b := by
  rw [executeWord, h]

theorem executeWord_error {s : State} {w : Word} {e : DecodeError} (h : decode s.plat w = .error e) (fuel : Nat) :
    executeWord (fuel + 1) s w = .refused (refusalOf e) := by
  rw [executeWord, h]

/-! ## A run of steps -/

theorem run_next {s t : State} (h : step s = .next t) (k : Nat) :
    Sys2Proof.core.run (k + 1) s = Sys2Proof.core.run k t := by
  have hc : core.step s = .next t := h
  rw [Host.Core.run.eq_2 core s k, hc]

theorem run_fault {s : State} {f : Fault} (h : step s = .fault f) (k : Nat) : Sys2Proof.core.run (k + 1) s = .fault f := by
  have hc : core.step s = .fault f := h
  rw [Host.Core.run.eq_2 core s k, hc]

theorem run_refused {s : State} {r : Refusal} (h : step s = .refused r) (k : Nat) :
    Sys2Proof.core.run (k + 1) s = .refused r := by
  have hc : core.step s = .refused r := h
  rw [Host.Core.run.eq_2 core s k, hc]

end Sys2Proof.Machine
end

