-- ==== Sys2Proof/Laws/PerInstr.lean ====
section
/-! SUPPORT. RowFit: the word the encoder gives an instruction lies in that instruction's row of spec/opcode_table.json. -/

namespace Sys2Proof.Laws

/-! ## The formats under their rows' masks -/

theorem mrWord_under_mask (op : BitVec 4) (ref : MemRef) : mrWord op ref &&& 0x7800#16 = op.setWidth 16 <<< 11 := by
  obtain ⟨i, pg, m⟩ := ref
  apply BitVec.eq_of_getLsbD_eq
  intro k hk
  simp only [mrWord, BitVec.getLsbD_and, BitVec.getLsbD_append, BitVec.getLsbD_shiftLeft, BitVec.getLsbD_setWidth]
  have : k = 0 ∨ k = 1 ∨ k = 2 ∨ k = 3 ∨ k = 4 ∨ k = 5 ∨ k = 6 ∨ k = 7 ∨ k = 8 ∨ k = 9 ∨ k = 10 ∨ k = 11 ∨ k = 12 ∨
    k = 13 ∨ k = 14 ∨ k = 15 := by omega
  rcases this with rfl | rfl | rfl | rfl | rfl | rfl | rfl | rfl | rfl | rfl | rfl | rfl | rfl | rfl | rfl | rfl <;> simp

theorem srWord_under_mask (r : Reg) (code type : BitVec 4) :
    srWord r code type &&& 0xFE1F#16 = 0x7000#16 ||| ((regBit r).setWidth 16 <<< 11) ||| type.setWidth 16 := by
  cases r <;> revert code type <;> decide

theorem asWord_under_alter_mask (r : Reg) (s c : Bool) (n : Int) (type : BitVec 4) :
    asWord r s n c type &&& 0xF80F#16 = 0x7000#16 ||| ((regBit r).setWidth 16 <<< 11) ||| type.setWidth 16 := by
  unfold asWord
  generalize BitVec.ofInt 5 n = d
  cases r <;> cases s <;> cases c <;> revert d type <;> decide

theorem asWord_under_mask (r : Reg) (s c : Bool) (n : Int) :
    asWord r s n c 0b1000#4 &&& 0xFC1F#16 = 0x7008#16 ||| ((regBit r).setWidth 16 <<< 11) |||
      ((BitVec.ofBool s).setWidth 16 <<< 10) ||| ((BitVec.ofBool c).setWidth 16 <<< 4) := by
  unfold asWord
  generalize BitVec.ofInt 5 n = d
  cases r <;> cases s <;> cases c <;> revert d <;> decide

theorem rrWord_under_mask (op : BitVec 4) (r : Reg) (i : Bool) :
    rrWord op r i &&& 0xF6FF#16 = 0x700F#16 ||| (op.setWidth 16 <<< 4) := by
  cases r <;> cases i <;> revert op <;> decide

theorem rrWord_under_indirect_mask (op : BitVec 4) (r : Reg) :
    rrWord op r true &&& 0xF7FF#16 = 0x710F#16 ||| (op.setWidth 16 <<< 4) := by
  cases r <;> revert op <;> decide

/-! ## One lemma for each instruction -/

namespace RowFit

/-- The encoder's word has the row's fixed bits. -/
def Statement (i : Instr) : Prop :=
  ∀ (plat : Config.Platform) (w : Word) (row : Word × Word), encode plat i = some w → opcodeRow i = some row →
    w &&& row.2 = row.1

theorem of_row {i : Instr} {word pattern mask : Word} (he : ∀ plat, encode plat i = some word)
    (hr : opcodeRow i = some (pattern, mask)) (h : word &&& mask = pattern) : Statement i := by
  intro plat w row hw hrow
  rw [he plat] at hw
  rw [hr] at hrow
  cases hw
  cases hrow
  exact h

theorem of_no_row {i : Instr} (hr : opcodeRow i = none) : Statement i := by
  intro plat w row _ hrow
  rw [hr] at hrow
  cases hrow

theorem ada (ref : MemRef) : Statement (.ada ref) := of_row (fun _ => rfl) rfl (mrWord_under_mask _ ref)
theorem adb (ref : MemRef) : Statement (.adb ref) := of_row (fun _ => rfl) rfl (mrWord_under_mask _ ref)
theorem cpa (ref : MemRef) : Statement (.cpa ref) := of_row (fun _ => rfl) rfl (mrWord_under_mask _ ref)
theorem cpb (ref : MemRef) : Statement (.cpb ref) := of_row (fun _ => rfl) rfl (mrWord_under_mask _ ref)
theorem lda (ref : MemRef) : Statement (.lda ref) := of_row (fun _ => rfl) rfl (mrWord_under_mask _ ref)
theorem ldb (ref : MemRef) : Statement (.ldb ref) := of_row (fun _ => rfl) rfl (mrWord_under_mask _ ref)
theorem sta (ref : MemRef) : Statement (.sta ref) := of_row (fun _ => rfl) rfl (mrWord_under_mask _ ref)
theorem stb (ref : MemRef) : Statement (.stb ref) := of_row (fun _ => rfl) rfl (mrWord_under_mask _ ref)
theorem ior (ref : MemRef) : Statement (.ior ref) := of_row (fun _ => rfl) rfl (mrWord_under_mask _ ref)
theorem isz (ref : MemRef) : Statement (.isz ref) := of_row (fun _ => rfl) rfl (mrWord_under_mask _ ref)
theorem and (ref : MemRef) : Statement (.and ref) := of_row (fun _ => rfl) rfl (mrWord_under_mask _ ref)
theorem dsz (ref : MemRef) : Statement (.dsz ref) := of_row (fun _ => rfl) rfl (mrWord_under_mask _ ref)
theorem jsm (ref : MemRef) : Statement (.jsm ref) := of_row (fun _ => rfl) rfl (mrWord_under_mask _ ref)
theorem jmp (ref : MemRef) : Statement (.jmp ref) := of_row (fun _ => rfl) rfl (mrWord_under_mask _ ref)
theorem aar (n : Nat) : Statement (.aar n) := of_row (fun _ => rfl) rfl (srWord_under_mask _ _ _)
theorem abr (n : Nat) : Statement (.abr n) := of_row (fun _ => rfl) rfl (srWord_under_mask _ _ _)
theorem sar (n : Nat) : Statement (.sar n) := of_row (fun _ => rfl) rfl (srWord_under_mask _ _ _)
theorem sbr (n : Nat) : Statement (.sbr n) := of_row (fun _ => rfl) rfl (srWord_under_mask _ _ _)
theorem sal (n : Nat) : Statement (.sal n) := of_row (fun _ => rfl) rfl (srWord_under_mask _ _ _)
theorem sbl (n : Nat) : Statement (.sbl n) := of_row (fun _ => rfl) rfl (srWord_under_mask _ _ _)
theorem rar (n : Nat) : Statement (.rar n) := of_row (fun _ => rfl) rfl (srWord_under_mask _ _ _)
theorem rbr (n : Nat) : Statement (.rbr n) := of_row (fun _ => rfl) rfl (srWord_under_mask _ _ _)
theorem sza (n : Int) : Statement (.sza n) := of_row (fun _ => rfl) rfl (asWord_under_mask _ _ _ n)
theorem szb (n : Int) : Statement (.szb n) := of_row (fun _ => rfl) rfl (asWord_under_mask _ _ _ n)
theorem rza (n : Int) : Statement (.rza n) := of_row (fun _ => rfl) rfl (asWord_under_mask _ _ _ n)
theorem rzb (n : Int) : Statement (.rzb n) := of_row (fun _ => rfl) rfl (asWord_under_mask _ _ _ n)
theorem sia (n : Int) : Statement (.sia n) := of_row (fun _ => rfl) rfl (asWord_under_mask _ _ _ n)
theorem sib (n : Int) : Statement (.sib n) := of_row (fun _ => rfl) rfl (asWord_under_mask _ _ _ n)
theorem ria (n : Int) : Statement (.ria n) := of_row (fun _ => rfl) rfl (asWord_under_mask _ _ _ n)
theorem rib (n : Int) : Statement (.rib n) := of_row (fun _ => rfl) rfl (asWord_under_mask _ _ _ n)
theorem sla (n : Int) (s c : Bool) : Statement (.sla n s c) := of_row (fun _ => rfl) rfl (asWord_under_alter_mask _ s c n _)
theorem slb (n : Int) (s c : Bool) : Statement (.slb n s c) := of_row (fun _ => rfl) rfl (asWord_under_alter_mask _ s c n _)
theorem sam (n : Int) (s c : Bool) : Statement (.sam n s c) := of_row (fun _ => rfl) rfl (asWord_under_alter_mask _ s c n _)
theorem sbm (n : Int) (s c : Bool) : Statement (.sbm n s c) := of_row (fun _ => rfl) rfl (asWord_under_alter_mask _ s c n _)
theorem sap (n : Int) (s c : Bool) : Statement (.sap n s c) := of_row (fun _ => rfl) rfl (asWord_under_alter_mask _ s c n _)
theorem sbp (n : Int) (s c : Bool) : Statement (.sbp n s c) := of_row (fun _ => rfl) rfl (asWord_under_alter_mask _ s c n _)
theorem ses (n : Int) (s c : Bool) : Statement (.ses n s c) := of_row (fun _ => rfl) rfl (asWord_under_alter_mask _ s c n _)
theorem sec (n : Int) (s c : Bool) : Statement (.sec n s c) := of_row (fun _ => rfl) rfl (asWord_under_alter_mask _ s c n _)
theorem adaReg (r : Reg) (i : Bool) : Statement (.adaReg r i) := of_row (fun _ => rfl) rfl (rrWord_under_mask _ r i)
theorem adbReg (r : Reg) (i : Bool) : Statement (.adbReg r i) := of_row (fun _ => rfl) rfl (rrWord_under_mask _ r i)
theorem cpaReg (r : Reg) (i : Bool) : Statement (.cpaReg r i) := of_row (fun _ => rfl) rfl (rrWord_under_mask _ r i)
theorem cpbReg (r : Reg) (i : Bool) : Statement (.cpbReg r i) := of_row (fun _ => rfl) rfl (rrWord_under_mask _ r i)
theorem ldaReg (r : Reg) (i : Bool) : Statement (.ldaReg r i) := of_row (fun _ => rfl) rfl (rrWord_under_mask _ r i)
theorem ldbReg (r : Reg) (i : Bool) : Statement (.ldbReg r i) := of_row (fun _ => rfl) rfl (rrWord_under_mask _ r i)
theorem staReg (r : Reg) : Statement (.staReg r) := of_row (fun _ => rfl) rfl (rrWord_under_indirect_mask _ r)
theorem stbReg (r : Reg) : Statement (.stbReg r) := of_row (fun _ => rfl) rfl (rrWord_under_indirect_mask _ r)
theorem iorReg (r : Reg) (i : Bool) : Statement (.iorReg r i) := of_row (fun _ => rfl) rfl (rrWord_under_mask _ r i)
theorem iszReg (r : Reg) : Statement (.iszReg r) := of_row (fun _ => rfl) rfl (rrWord_under_indirect_mask _ r)
theorem andReg (r : Reg) (i : Bool) : Statement (.andReg r i) := of_row (fun _ => rfl) rfl (rrWord_under_mask _ r i)
theorem dszReg (r : Reg) : Statement (.dszReg r) := of_row (fun _ => rfl) rfl (rrWord_under_indirect_mask _ r)
theorem jsmReg (r : Reg) : Statement (.jsmReg r) := of_row (fun _ => rfl) rfl (rrWord_under_indirect_mask _ r)
theorem jmpReg (r : Reg) : Statement (.jmpReg r) := of_row (fun _ => rfl) rfl (rrWord_under_indirect_mask _ r)
theorem cma : Statement .cma := of_no_row rfl
theorem cmb : Statement .cmb := of_no_row rfl
theorem tca : Statement .tca := of_no_row rfl
theorem tcb : Statement .tcb := of_no_row rfl
theorem exa : Statement .exa := of_no_row rfl
theorem exb : Statement .exb := of_no_row rfl
theorem dma : Statement .dma := of_no_row rfl
theorem ret : Statement .ret := of_no_row rfl
theorem mov : Statement .mov := of_no_row rfl
theorem clr : Statement .clr := of_no_row rfl
theorem xfr : Statement .xfr := of_no_row rfl
theorem mrx : Statement .mrx := of_no_row rfl
theorem mry : Statement .mry := of_no_row rfl
theorem mls : Statement .mls := of_no_row rfl
theorem drs : Statement .drs := of_no_row rfl
theorem dls : Statement .dls := of_no_row rfl
theorem fxa : Statement .fxa := of_no_row rfl
theorem fmp : Statement .fmp := of_no_row rfl
theorem fdv : Statement .fdv := of_no_row rfl
theorem cmx : Statement .cmx := of_no_row rfl
theorem cmy : Statement .cmy := of_no_row rfl
theorem mdi : Statement .mdi := of_no_row rfl
theorem nrm : Statement .nrm := of_no_row rfl

end RowFit

end Sys2Proof.Laws
end

