-- ==== Sys2Proof/Tests/Slice0.lean ====
section
/-! SUPPORT. Tests: each check of WellFormed refuses an ill-formed term; one word of every row decodes to its
instruction; the vectors of spec/95_test_vectors.md, at most two for an instruction. -/

namespace Sys2Proof.Tests

open Sys2Proof.Machine

/-! ## WellFormed refuses -/

theorem test_wf_shift_zero : (Instr.aar 0).wf = false := by decide
theorem test_wf_shift_seventeen : (Instr.sbl 17).wf = false := by decide
theorem test_wf_shift_sixteen : (Instr.rar 16).wf = true := by decide
theorem test_wf_skip_low : (Instr.sza (-17)).wf = false := by decide
theorem test_wf_skip_high : (Instr.sec 16 false false).wf = false := by decide
theorem test_wf_skip_ends : ((Instr.sza (-16)).wf && (Instr.ses 15 true true).wf) = true := by decide
theorem test_hasWord_default : (Instr.cma.hasWord Config.defaultPlatform || Instr.nrm.hasWord Config.defaultPlatform) = false := by
  decide
theorem test_layout_short : layoutOk { exponent := 0, digits := [0, 1, 2] } = false := by decide
theorem test_layout_repeat : layoutOk { exponent := 3, digits := [0, 1, 2, 3, 4, 5, 6, 7, 8, 9, 10, 10] } = false := by decide
theorem test_layout_default : layoutOk Config.defaultLayout = true := by decide
/-- An entry of ENC_UNKNOWN on an assigned word, ADA 0. -/
theorem test_encRow_assigned : ¬ (Config.EncRow.mk .cma 0x0000#16 0xFFFF#16).wf :=
  fun h => absurd (h.2.2 0x0000#16 (by decide)) (by decide)
/-- An entry of ENC_UNKNOWN with a fixed bit outside its mask. -/
theorem test_encRow_outside_mask : ¬ (Config.EncRow.mk .cma 0xF001#16 0xFFFE#16).wf := fun h => absurd h.1 (by decide)
/-- An entry of ENC_UNKNOWN whose canonical word R60 refuses for a "-" bit. -/
theorem test_encRow_dashed : ¬ (Config.EncRow.mk .cma 0x74EF#16 0xFFFF#16).wf := fun h => absurd h.2.1 (by decide)
/-- One word given to two mnemonics. -/
theorem test_encUnknown_overlap :
    ¬ encUnknownOk [⟨.cma, 0xF000#16, 0xFFFF#16⟩, ⟨.cmb, 0xF000#16, 0xFFFF#16⟩] := fun h => absurd h.2.2 (by decide)
/-- One mnemonic given two entries. -/
theorem test_encUnknown_twice :
    ¬ encUnknownOk [⟨.cma, 0xF000#16, 0xFFFF#16⟩, ⟨.cma, 0xF001#16, 0xFFFF#16⟩] := fun h => absurd h.2.1 (by decide)

/-! ## The platforms of the tests -/

/-- A test platform that gives the 23 instructions the words 0xF000 to 0xF016. -/
def allWords : Config.Platform :=
  { Config.defaultPlatform with
    encUnknown := [⟨.cma, 0xF000#16, 0xFFFF#16⟩, ⟨.cmb, 0xF001#16, 0xFFFF#16⟩, ⟨.tca, 0xF002#16, 0xFFFF#16⟩,
      ⟨.tcb, 0xF003#16, 0xFFFF#16⟩, ⟨.exa, 0xF004#16, 0xFFFF#16⟩, ⟨.exb, 0xF005#16, 0xFFFF#16⟩,
      ⟨.dma, 0xF006#16, 0xFFFF#16⟩, ⟨.ret, 0xF007#16, 0xFFFF#16⟩, ⟨.mov, 0xF008#16, 0xFFFF#16⟩,
      ⟨.clr, 0xF009#16, 0xFFFF#16⟩, ⟨.xfr, 0xF00A#16, 0xFFFF#16⟩, ⟨.mrx, 0xF00B#16, 0xFFFF#16⟩,
      ⟨.mry, 0xF00C#16, 0xFFFF#16⟩, ⟨.mls, 0xF00D#16, 0xFFFF#16⟩, ⟨.drs, 0xF00E#16, 0xFFFF#16⟩,
      ⟨.dls, 0xF00F#16, 0xFFFF#16⟩, ⟨.fxa, 0xF010#16, 0xFFFF#16⟩, ⟨.fmp, 0xF011#16, 0xFFFF#16⟩,
      ⟨.fdv, 0xF012#16, 0xFFFF#16⟩, ⟨.cmx, 0xF013#16, 0xFFFF#16⟩, ⟨.cmy, 0xF014#16, 0xFFFF#16⟩,
      ⟨.mdi, 0xF015#16, 0xFFFF#16⟩, ⟨.nrm, 0xF016#16, 0xFFFF#16⟩] }

/-- The platform of the tests that need a DMA control. -/
def dmaPlatform : Config.Platform := { allWords with dmaAgent := .fitted }

theorem word_of_full_mask {w pattern : Word} (h : w &&& 0xFFFF#16 = pattern) : w = pattern := by
  rw [← h]
  exact (BitVec.and_allOnes (x := w)).symm

theorem allWords_wf : allWords.wf := by
  refine ⟨⟨?_, by decide, by decide⟩, by decide⟩
  intro row hrow
  simp only [allWords, List.mem_cons, List.not_mem_nil, or_false] at hrow
  rcases hrow with rfl | rfl | rfl | rfl | rfl | rfl | rfl | rfl | rfl | rfl | rfl | rfl | rfl | rfl | rfl | rfl | rfl | rfl | rfl | rfl | rfl | rfl | rfl <;>
    exact ⟨by decide, by decide, fun w h => by rw [word_of_full_mask h]; decide⟩

/-! ## Decoding, by words written out from the spec's encodings (R69; spec/95_test_vectors.md) -/

/-- Read on a platform. -/
def readsOn (plat : Config.Platform) (w : Word) : Option Instr :=
  match decode plat w with
  | .ok i => some i
  | .error _ => none

/-- Read on the default platform. -/
def reads (w : Word) : Option Instr := readsOn Config.defaultPlatform w

/-- Refused on the default platform, and why. -/
def readError (w : Word) : Option DecodeError :=
  match decode Config.defaultPlatform w with
  | .ok _ => none
  | .error e => some e

theorem test_decode_ada : reads 0o001750#16 = some (.ada ⟨false, .zero, 0o1750#10⟩) := by decide
theorem test_decode_adb : reads 0o006300#16 = some (.adb ⟨false, .current, 0o300#10⟩) := by decide
theorem test_decode_cpa : reads 0o010300#16 = some (.cpa ⟨false, .zero, 0o300#10⟩) := by decide
theorem test_decode_cpb : reads 0o014300#16 = some (.cpb ⟨false, .zero, 0o300#10⟩) := by decide
theorem test_decode_lda : reads 0o022000#16 = some (.lda ⟨false, .current, 0#10⟩) := by decide
theorem test_decode_ldb : reads 0o124301#16 = some (.ldb ⟨true, .zero, 0o301#10⟩) := by decide
theorem test_decode_sta : reads 0o030300#16 = some (.sta ⟨false, .zero, 0o300#10⟩) := by decide
theorem test_decode_stb : reads 0o036005#16 = some (.stb ⟨false, .current, 5#10⟩) := by decide
theorem test_decode_ior : reads 0o040300#16 = some (.ior ⟨false, .zero, 0o300#10⟩) := by decide
theorem test_decode_isz : reads 0o044300#16 = some (.isz ⟨false, .zero, 0o300#10⟩) := by decide
theorem test_decode_and : reads 0o150020#16 = some (.and ⟨true, .zero, 0o20#10⟩) := by decide
theorem test_decode_dsz : reads 0o054310#16 = some (.dsz ⟨false, .zero, 0o310#10⟩) := by decide
theorem test_decode_jsm : reads 0o062100#16 = some (.jsm ⟨false, .current, 0o100#10⟩) := by decide
theorem test_decode_jmp : reads 0o167777#16 = some (.jmp ⟨true, .current, 0o1777#10⟩) := by decide
theorem test_decode_aar : reads 0o070140#16 = some (.aar 4) := by decide
theorem test_decode_abr : reads 0o074140#16 = some (.abr 4) := by decide
theorem test_decode_sar : reads 0o070742#16 = some (.sar 16) := by decide
theorem test_decode_sbr : reads 0o074342#16 = some (.sbr 8) := by decide
theorem test_decode_sal : reads 0o070604#16 = some (.sal 4) := by decide
theorem test_decode_sbl : reads 0o074004#16 = some (.sbl 16) := by decide
theorem test_decode_rar : reads 0o070346#16 = some (.rar 8) := by decide
theorem test_decode_rbr : reads 0o074546#16 = some (.rbr 12) := by decide
theorem test_decode_sza : reads 0o071010#16 = some (.sza (-16)) := by decide
theorem test_decode_szb : reads 0o074110#16 = some (.szb 2) := by decide
theorem test_decode_rza : reads 0o073750#16 = some (.rza (-1)) := by decide
theorem test_decode_rzb : reads 0o076110#16 = some (.rzb 2) := by decide
theorem test_decode_sia : reads 0o070070#16 = some (.sia 1) := by decide
theorem test_decode_sib : reads 0o074130#16 = some (.sib 2) := by decide
theorem test_decode_ria : reads 0o072030#16 = some (.ria 0) := by decide
theorem test_decode_rib : reads 0o077770#16 = some (.rib (-1)) := by decide
theorem test_decode_sla : reads 0o072111#16 = some (.sla 2 true false) := by decide
theorem test_decode_slb : reads 0o074131#16 = some (.slb 2 false true) := by decide
theorem test_decode_sam : reads 0o071672#16 = some (.sam (-3) false true) := by decide
theorem test_decode_sbm : reads 0o074172#16 = some (.sbm 3 false true) := by decide
theorem test_decode_sap : reads 0o072113#16 = some (.sap 2 true false) := by decide
theorem test_decode_sbp : reads 0o077713#16 = some (.sbp (-2) true false) := by decide
theorem test_decode_ses : reads 0o072114#16 = some (.ses 2 true false) := by decide
theorem test_decode_sec : reads 0o072135#16 = some (.sec 2 true true) := by decide
theorem test_decode_adaReg : reads 0o074017#16 = some (.adaReg .B false) := by decide
theorem test_decode_adbReg : reads 0o074437#16 = some (.adbReg .B true) := by decide
theorem test_decode_cpaReg : reads 0o074057#16 = some (.cpaReg .B false) := by decide
theorem test_decode_cpbReg : reads 0o070077#16 = some (.cpbReg .A false) := by decide
theorem test_decode_ldaReg : reads 0o070517#16 = some (.ldaReg .A true) := by decide
theorem test_decode_ldbReg : reads 0o070537#16 = some (.ldbReg .A true) := by decide
theorem test_decode_staReg : reads 0o074557#16 = some (.staReg .B) := by decide
theorem test_decode_stbReg : reads 0o070577#16 = some (.stbReg .A) := by decide
theorem test_decode_iorReg : reads 0o074217#16 = some (.iorReg .B false) := by decide
theorem test_decode_iszReg : reads 0o070637#16 = some (.iszReg .A) := by decide
theorem test_decode_andReg : reads 0o070257#16 = some (.andReg .A false) := by decide
theorem test_decode_dszReg : reads 0o074677#16 = some (.dszReg .B) := by decide
theorem test_decode_jsmReg : reads 0o070717#16 = some (.jsmReg .A) := by decide
theorem test_decode_jmpReg : reads 0o074737#16 = some (.jmpReg .B) := by decide
theorem test_decode_unassigned_a : readError 0o170000#16 = some .unassigned := by decide
theorem test_decode_unassigned_b : readError 0o070016#16 = some .unassigned := by decide
theorem test_decode_unassigned_c : readError 0o070357#16 = some .unassigned := by decide
theorem test_decode_dash_sr : readError 0o070020#16 = some .dashBit := by decide
theorem test_decode_dash_rr : readError 0o076117#16 = some .dashBit := by decide
theorem test_decode_dash_ses : readError 0o074054#16 = some .dashBit := by decide
theorem test_decode_sta_direct : readError 0o070157#16 = some .directRegisterRestricted := by decide
theorem test_decode_jmp_direct : readError 0o070337#16 = some .jmpDirectRegister := by decide
/-- R58: under ignore the "-" bits are masked out before ENC_UNKNOWN is looked up too. -/
theorem test_decode_dash_ignored_unencoded :
    readsOn { Config.defaultPlatform with dashBits := .ignore, encUnknown := [⟨.cma, 0x70EF#16, 0xFFFF#16⟩] } 0x72EF#16 =
      some .cma := by decide
theorem test_decode_dash_ignored :
    readsOn { Config.defaultPlatform with dashBits := .ignore } 0o074054#16 = some (.ses 1 false false) := by decide
/-- The words the test platform gives the 23 instructions without a coding-table row. -/
theorem test_decode_unencoded :
    ([(.cma, 0xF000#16), (.cmb, 0xF001#16), (.tca, 0xF002#16), (.tcb, 0xF003#16), (.exa, 0xF004#16), (.exb, 0xF005#16), (.dma, 0xF006#16), (.ret, 0xF007#16), (.mov, 0xF008#16), (.clr, 0xF009#16), (.xfr, 0xF00A#16), (.mrx, 0xF00B#16), (.mry, 0xF00C#16), (.mls, 0xF00D#16), (.drs, 0xF00E#16), (.dls, 0xF00F#16), (.fxa, 0xF010#16), (.fmp, 0xF011#16), (.fdv, 0xF012#16), (.cmx, 0xF013#16), (.cmy, 0xF014#16), (.mdi, 0xF015#16), (.nrm, 0xF016#16)] : List (Instr × Word)).all
      (fun x => decide (readsOn allWords x.2 = some x.1) && decide (encode allWords x.1 = some x.2)) = true := by decide
theorem test_encode_sal : encode Config.defaultPlatform (.sal 1) = some 0o070744#16 := by decide
theorem test_encode_rza : encode Config.defaultPlatform (.rza (-1)) = some 0o073750#16 := by decide
theorem test_table_word : decodeTableWord 16 0o070744 = some (.sal 1) := by decide

/-! ## Steps -/

/-- Memory with these words in it, zero elsewhere. -/
def memoryOf (words : List (Word × Word)) : Memory := words.foldl (fun mem w => mem.writeWord w.1.toNat w.2) []

/-- P = 0o100, E = 0000 unless a test says otherwise (spec/95_test_vectors.md, conventions). -/
def start (a b : Word) (words : List (Word × Word)) : State :=
  State.initial allWords a b 0#4 0o100#16 (memoryOf words)

/-- A, B, E, P and the word at an address, after an outcome that is a next state. -/
def seen (addr : Word) : Out → Option (Word × Word × Nibble × Word × Word)
  | .next s => some (s.a, s.b, s.e, s.p, wordAt s addr)
  | .fault _ => none
  | .refused _ => none

/-- The refusal of an outcome. -/
def refusal : Out → Option Refusal
  | .refused r => some r
  | .next _ => none
  | .fault _ => none

/-- The fault of an outcome. -/
def fault : Out → Option Fault
  | .fault f => some f
  | .next _ => none
  | .refused _ => none

/-- A mantissa as `memoryOf` takes it: the three words after the exponent word of a register. -/
def mantissa (base w1 w2 w3 : Word) : List (Word × Word) := [(base + 1, w1), (base + 2, w2), (base + 3, w3)]

/-- The value of the mantissa at an address after an outcome, with A, B and E. -/
def seenMant (base : Word) : Out → Option (Word × Word × Nibble × Nat)
  | .next s => some (s.a, s.b, s.e, valueAt s base)
  | .fault _ => none
  | .refused _ => none

/-- V-MR-1. -/
theorem test_step_ada_nocarry :
    seen 0#16 (step ({ start 0x7FFF#16 0#16 [(0o100#16, 0o000300#16), (0o300#16, 1#16)] with e := 0b0110#4 })) =
      some (0x8000#16, 0#16, 0b0110#4, 0o101#16, 0#16) := by decide
/-- V-MR-2. -/
theorem test_step_ada_carry :
    seen 0#16 (step ({ start 0xFFFF#16 0#16 [(0o100#16, 0o000300#16), (0o300#16, 1#16)] with e := 0b0110#4 })) =
      some (0#16, 0#16, 1#4, 0o101#16, 0#16) := by decide
/-- V-MR-4. -/
theorem test_step_adb :
    seen 0#16 (step ({ start 0#16 0x8000#16 [(0o2100#16, 0o006300#16), (0o2300#16, 0x8000#16)] with p := 0o2100#16, m := 0o2100#16 })) =
      some (0#16, 0#16, 1#4, 0o2101#16, 0#16) := by decide
/-- V-MR-5. -/
theorem test_step_ada_indirect :
    seen 0#16 (step (start 5#16 0#16 [(0o100#16, 0o100300#16), (0o300#16, 0o2500#16), (0o2500#16, 7#16)])) =
      some (0xC#16, 0#16, 0#4, 0o101#16, 0#16) := by decide
/-- V-MR-7. -/
theorem test_step_cpa_equal :
    seen 0#16 (step (start 0x1234#16 0#16 [(0o100#16, 0o010300#16), (0o300#16, 0x1234#16)])) =
      some (0x1234#16, 0#16, 0#4, 0o101#16, 0#16) := by decide
/-- V-MR-8. -/
theorem test_step_cpa_differ :
    seen 0#16 (step (start 0x1234#16 0#16 [(0o100#16, 0o010300#16), (0o300#16, 0x1235#16)])) =
      some (0x1234#16, 0#16, 0#4, 0o102#16, 0#16) := by decide
/-- V-MR-9. -/
theorem test_step_cpb :
    seen 0#16 (step (start 0#16 0#16 [(0o100#16, 0o014300#16), (0o300#16, 0xFFFF#16)])) =
      some (0#16, 0#16, 0#4, 0o102#16, 0#16) := by decide
/-- V-MR-29. -/
theorem test_step_lda_own_page :
    seen 0#16 (step ({ start 0#16 0#16 [(0o3777#16, 0o022000#16), (0o2000#16, 0x1111#16), (0o4000#16, 0x2222#16)] with p := 0o3777#16, m := 0o3777#16 })) =
      some (0x1111#16, 0#16, 0#4, 0o4000#16, 0#16) := by decide
/-- V-MR-11. -/
theorem test_step_ldb_indirect :
    seen 0#16 (step (start 0#16 0#16 [(0o100#16, 0o124301#16), (0o301#16, 0o77777#16), (0o77777#16, 0xBEEF#16)])) =
      some (0#16, 0xBEEF#16, 0#4, 0o101#16, 0#16) := by decide
/-- V-MR-12. -/
theorem test_step_sta :
    seen 0o300#16 (step (start 0xCAFE#16 0#16 [(0o100#16, 0o030300#16), (0o300#16, 1#16)])) =
      some (0xCAFE#16, 0#16, 0#4, 0o101#16, 0xCAFE#16) := by decide
/-- V-MR-13. -/
theorem test_step_stb :
    seen 0o400#16 (step (start 0#16 0x00FF#16 [(0o100#16, 0o134300#16), (0o300#16, 0o400#16)])) =
      some (0#16, 0x00FF#16, 0#4, 0o101#16, 0x00FF#16) := by decide
/-- V-MR-14. -/
theorem test_step_ior :
    seen 0#16 (step (start 0x0F0F#16 0#16 [(0o100#16, 0o040300#16), (0o300#16, 0x00FF#16)])) =
      some (0x0FFF#16, 0#16, 0#4, 0o101#16, 0#16) := by decide
/-- V-MR-15. -/
theorem test_step_and :
    seen 0#16 (step (start 0x0F0F#16 0#16 [(0o100#16, 0o050300#16), (0o300#16, 0x00FF#16)])) =
      some (0x000F#16, 0#16, 0#4, 0o101#16, 0#16) := by decide
/-- V-MR-16. -/
theorem test_step_isz_zero :
    seen 0o300#16 (step (start 0#16 0#16 [(0o100#16, 0o044300#16), (0o300#16, 0xFFFF#16)])) =
      some (0#16, 0#16, 0#4, 0o102#16, 0#16) := by decide
/-- V-MR-17. -/
theorem test_step_isz :
    seen 0o300#16 (step (start 0#16 0#16 [(0o100#16, 0o044300#16), (0o300#16, 0#16)])) =
      some (0#16, 0#16, 0#4, 0o101#16, 1#16) := by decide
/-- V-MR-18. -/
theorem test_step_dsz_zero :
    seen 0o300#16 (step (start 0#16 0#16 [(0o100#16, 0o054300#16), (0o300#16, 1#16)])) =
      some (0#16, 0#16, 0#4, 0o102#16, 0#16) := by decide
/-- V-MR-19. -/
theorem test_step_dsz_wrap :
    seen 0o300#16 (step (start 0#16 0#16 [(0o100#16, 0o054300#16), (0o300#16, 0#16)])) =
      some (0#16, 0#16, 0#4, 0o101#16, 0xFFFF#16) := by decide
/-- V-MR-20. -/
theorem test_step_jsm_link :
    seen 0o1700#16 (step ({ start 0#16 0#16 [(0o2100#16, 0o062400#16), (0o1777#16, 0o1700#16)] with p := 0o2100#16, m := 0o2100#16 })) =
      some (0#16, 0#16, 0#4, 0o2400#16, 0o2100#16) := by decide
/-- V-MR-21. -/
theorem test_step_jsm_sp :
    seen 0o1777#16 (step (start 0#16 0#16 [(0o100#16, 0o160300#16), (0o1777#16, 0o1700#16), (0o300#16, 0o5000#16)])) =
      some (0#16, 0#16, 0#4, 0o5000#16, 0o1701#16) := by decide
/-- V-MR-25. -/
theorem test_step_jmp :
    seen 0#16 (step (start 0#16 0#16 [(0o100#16, 0o164300#16), (0o300#16, 0o6000#16)])) =
      some (0#16, 0#16, 0#4, 0o6000#16, 0#16) := by decide
/-- V-RR-1. -/
theorem test_step_adaReg :
    seen 0#16 (step (start 0xFFFF#16 2#16 [(0o100#16, 0o074017#16)])) =
      some (1#16, 2#16, 1#4, 0o101#16, 0#16) := by decide
/-- V-RR-2. -/
theorem test_step_adaReg_self :
    seen 0#16 (step (start 0x8000#16 0#16 [(0o100#16, 0o070017#16)])) =
      some (0#16, 0#16, 1#4, 0o101#16, 0#16) := by decide
/-- V-RR-3. -/
theorem test_step_adbReg :
    seen 0#16 (step (start 0#16 0o300#16 [(0o100#16, 0o074437#16), (0o300#16, 5#16)])) =
      some (0#16, 0x00C5#16, 0#4, 0o101#16, 0#16) := by decide
/-- V-RR-4. -/
theorem test_step_cpaReg :
    seen 0#16 (step (start 7#16 7#16 [(0o100#16, 0o074057#16)])) =
      some (7#16, 7#16, 0#4, 0o101#16, 0#16) := by decide
/-- V-RR-5. -/
theorem test_step_cpbReg :
    seen 0#16 (step (start 7#16 8#16 [(0o100#16, 0o070077#16)])) =
      some (7#16, 8#16, 0#4, 0o102#16, 0#16) := by decide
/-- V-RR-6. -/
theorem test_step_ldaReg :
    seen 0#16 (step (start 1#16 0xABCD#16 [(0o100#16, 0o074117#16)])) =
      some (0xABCD#16, 0xABCD#16, 0#4, 0o101#16, 0#16) := by decide
/-- V-RR-8. -/
theorem test_step_ldaReg_indirect :
    seen 0#16 (step (start 0o300#16 0#16 [(0o100#16, 0o070517#16), (0o300#16, 0x5555#16)])) =
      some (0x5555#16, 0#16, 0#4, 0o101#16, 0#16) := by decide
/-- V-RR-7. -/
theorem test_step_ldbReg :
    seen 0#16 (step (start 0o300#16 0#16 [(0o100#16, 0o070537#16), (0o300#16, 0x5555#16)])) =
      some (0o300#16, 0x5555#16, 0#4, 0o101#16, 0#16) := by decide
/-- V-RR-9. -/
theorem test_step_staReg :
    seen 0o300#16 (step (start 0x1111#16 0o300#16 [(0o100#16, 0o074557#16)])) =
      some (0x1111#16, 0o300#16, 0#4, 0o101#16, 0x1111#16) := by decide
/-- V-RR-10. -/
theorem test_step_stbReg :
    seen 0o300#16 (step (start 0#16 0o300#16 [(0o100#16, 0o074577#16)])) =
      some (0#16, 0o300#16, 0#4, 0o101#16, 0x00C0#16) := by decide
/-- V-RR-11. -/
theorem test_step_iorReg :
    seen 0#16 (step (start 0xF000#16 0x000F#16 [(0o100#16, 0o074217#16)])) =
      some (0xF00F#16, 0x000F#16, 0#4, 0o101#16, 0#16) := by decide
/-- V-RR-13. -/
theorem test_step_iszReg :
    seen 0o300#16 (step (start 0o300#16 0#16 [(0o100#16, 0o070637#16), (0o300#16, 0xFFFF#16)])) =
      some (0o300#16, 0#16, 0#4, 0o102#16, 0#16) := by decide
/-- V-RR-12. -/
theorem test_step_andReg :
    seen 0#16 (step (start 0xF00F#16 0#16 [(0o100#16, 0o070257#16)])) =
      some (0xF00F#16, 0#16, 0#4, 0o101#16, 0#16) := by decide
/-- V-RR-14. -/
theorem test_step_dszReg :
    seen 0o300#16 (step (start 0#16 0o300#16 [(0o100#16, 0o074677#16), (0o300#16, 2#16)])) =
      some (0#16, 0o300#16, 0#4, 0o101#16, 1#16) := by decide
/-- V-RR-15. -/
theorem test_step_jsmReg :
    seen 0o1700#16 (step (start 0o4000#16 0#16 [(0o100#16, 0o070717#16), (0o1777#16, 0o1700#16)])) =
      some (0o4000#16, 0#16, 0#4, 0o4000#16, 0o100#16) := by decide
/-- V-RR-16. -/
theorem test_step_jmpReg :
    seen 0#16 (step (start 0#16 0o4321#16 [(0o100#16, 0o074737#16)])) =
      some (0#16, 0o4321#16, 0#4, 0o4321#16, 0#16) := by decide
/-- V-SR-5. -/
theorem test_step_aar :
    seen 0#16 (step ({ start 0x8421#16 0#16 [(0o100#16, 0o070140#16)] with e := 0b1010#4 })) =
      some (0xF842#16, 0#16, 0b1010#4, 0o101#16, 0#16) := by decide
/-- V-SR-3. -/
theorem test_step_aar_sixteen :
    seen 0#16 (step ({ start 0x8000#16 0#16 [(0o100#16, 0o070740#16)] with e := 0b1010#4 })) =
      some (0xFFFF#16, 0#16, 0b1010#4, 0o101#16, 0#16) := by decide
/-- R113. -/
theorem test_step_sar :
    seen 0#16 (step ({ start 0x8421#16 0#16 [(0o100#16, 0o070142#16)] with e := 0b1010#4 })) =
      some (0x0842#16, 0#16, 0b1010#4, 0o101#16, 0#16) := by decide
/-- V-SR-6. -/
theorem test_step_sar_sixteen :
    seen 0#16 (step ({ start 0xFFFF#16 0#16 [(0o100#16, 0o070742#16)] with e := 0b1010#4 })) =
      some (0#16, 0#16, 0b1010#4, 0o101#16, 0#16) := by decide
/-- V-SR-8. -/
theorem test_step_sal :
    seen 0#16 (step ({ start 0xC001#16 0#16 [(0o100#16, 0o070744#16)] with e := 0b1010#4 })) =
      some (0x8002#16, 0#16, 0b1010#4, 0o101#16, 0#16) := by decide
/-- V-SR-10. -/
theorem test_step_sal_sixteen :
    seen 0#16 (step ({ start 0xFFFF#16 0#16 [(0o100#16, 0o070004#16)] with e := 0b1010#4 })) =
      some (0#16, 0#16, 0b1010#4, 0o101#16, 0#16) := by decide
/-- V-SR-12. -/
theorem test_step_rar :
    seen 0#16 (step ({ start 0x12AB#16 0#16 [(0o100#16, 0o070346#16)] with e := 0b1010#4 })) =
      some (0xAB12#16, 0#16, 0b1010#4, 0o101#16, 0#16) := by decide
/-- V-SR-14. -/
theorem test_step_rar_sixteen :
    seen 0#16 (step ({ start 0xBEEF#16 0#16 [(0o100#16, 0o070746#16)] with e := 0b1010#4 })) =
      some (0xBEEF#16, 0#16, 0b1010#4, 0o101#16, 0#16) := by decide
/-- V-SR-15. -/
theorem test_step_abr :
    seen 0#16 (step ({ start 0#16 0x7FF0#16 [(0o100#16, 0o074140#16)] with e := 0b1010#4 })) =
      some (0#16, 0x07FF#16, 0b1010#4, 0o101#16, 0#16) := by decide
/-- V-SR-16. -/
theorem test_step_sbr :
    seen 0#16 (step ({ start 0#16 0xAB12#16 [(0o100#16, 0o074342#16)] with e := 0b1010#4 })) =
      some (0#16, 0x00AB#16, 0b1010#4, 0o101#16, 0#16) := by decide
/-- V-SR-17. -/
theorem test_step_sbl :
    seen 0#16 (step ({ start 0#16 0xAB12#16 [(0o100#16, 0o074404#16)] with e := 0b1010#4 })) =
      some (0#16, 0x1200#16, 0b1010#4, 0o101#16, 0#16) := by decide
/-- V-SR-18. -/
theorem test_step_rbr :
    seen 0#16 (step ({ start 0#16 0x1234#16 [(0o100#16, 0o074546#16)] with e := 0b1010#4 })) =
      some (0#16, 0x2341#16, 0b1010#4, 0o101#16, 0#16) := by decide
/-- V-AS-2. -/
theorem test_step_sza_back :
    seen 0#16 (step (start 0#16 0#16 [(0o100#16, 0o071010#16)])) =
      some (0#16, 0#16, 0#4, 0o60#16, 0#16) := by decide
/-- V-AS-1. -/
theorem test_step_sza_not :
    seen 0#16 (step (start 1#16 0#16 [(0o100#16, 0o070010#16)])) =
      some (1#16, 0#16, 0#4, 0o101#16, 0#16) := by decide
/-- R133. -/
theorem test_step_szb :
    seen 0#16 (step (start 0#16 1#16 [(0o100#16, 0o074110#16)])) =
      some (0#16, 1#16, 0#4, 0o101#16, 0#16) := by decide
/-- V-AS-20. -/
theorem test_step_rza :
    seen 0#16 (step (start 5#16 0#16 [(0o100#16, 0o073750#16)])) =
      some (5#16, 0#16, 0#4, 0o77#16, 0#16) := by decide
/-- V-AS-4. -/
theorem test_step_rza_wraps :
    seen 0#16 (step ({ start 1#16 0#16 [(5#16, 0o073010#16)] with p := 5#16, m := 5#16 })) =
      some (1#16, 0#16, 0#4, 0o177765#16, 0#16) := by decide
/-- R135. -/
theorem test_step_rzb :
    seen 0#16 (step (start 0#16 0#16 [(0o100#16, 0o076110#16)])) =
      some (0#16, 0#16, 0#4, 0o101#16, 0#16) := by decide
/-- V-AS-18. -/
theorem test_step_sia :
    seen 0#16 (step (start 0xFFFF#16 0#16 [(0o100#16, 0o070070#16)])) =
      some (0#16, 0#16, 0#4, 0o101#16, 0#16) := by decide
/-- V-AS-16. -/
theorem test_step_sib :
    seen 0#16 (step (start 0#16 0xFFFF#16 [(0o100#16, 0o074130#16)])) =
      some (0#16, 0#16, 0#4, 0o101#16, 0#16) := by decide
/-- R137. -/
theorem test_step_sib_zero :
    seen 0#16 (step (start 0#16 0#16 [(0o100#16, 0o074130#16)])) =
      some (0#16, 1#16, 0#4, 0o102#16, 0#16) := by decide
/-- R138. -/
theorem test_step_ria :
    seen 0#16 (step ({ start 0xFFFE#16 0#16 [(0o200#16, 0o072030#16)] with p := 0o200#16, m := 0o200#16 })) =
      some (0xFFFF#16, 0#16, 0#4, 0o200#16, 0#16) := by decide
/-- V-AS-17. -/
theorem test_step_rib :
    seen 0#16 (step (start 0#16 0xFFFF#16 [(0o100#16, 0o076130#16)])) =
      some (0#16, 0#16, 0#4, 0o102#16, 0#16) := by decide
/-- V-AS-5. -/
theorem test_step_sla_both :
    seen 0#16 (step (start 2#16 0#16 [(0o100#16, 0o072131#16)])) =
      some (3#16, 0#16, 0#4, 0o102#16, 0#16) := by decide
/-- V-AS-6. -/
theorem test_step_sla_clear :
    seen 0#16 (step (start 3#16 0#16 [(0o100#16, 0o070131#16)])) =
      some (2#16, 0#16, 0#4, 0o101#16, 0#16) := by decide
/-- R141. -/
theorem test_step_slb :
    seen 0#16 (step (start 0#16 3#16 [(0o100#16, 0o074131#16)])) =
      some (0#16, 2#16, 0#4, 0o101#16, 0#16) := by decide
/-- R142. -/
theorem test_step_sam :
    seen 0#16 (step ({ start 0x8000#16 0#16 [(0o500#16, 0o071672#16)] with p := 0o500#16, m := 0o500#16 })) =
      some (0#16, 0#16, 0#4, 0o475#16, 0#16) := by decide
/-- V-AS-7. -/
theorem test_step_sam_set :
    seen 0#16 (step (start 1#16 0#16 [(0o100#16, 0o072112#16)])) =
      some (0x8001#16, 0#16, 0#4, 0o101#16, 0#16) := by decide
/-- V-AS-9. -/
theorem test_step_sbm :
    seen 0#16 (step (start 0#16 0xFFFF#16 [(0o100#16, 0o074172#16)])) =
      some (0#16, 0x7FFF#16, 0#4, 0o103#16, 0#16) := by decide
/-- R144. -/
theorem test_step_sap :
    seen 0#16 (step (start 1#16 0#16 [(0o100#16, 0o072113#16)])) =
      some (0x8001#16, 0#16, 0#4, 0o102#16, 0#16) := by decide
/-- V-AS-8. -/
theorem test_step_sap_clear :
    seen 0#16 (step (start 0x8001#16 0#16 [(0o100#16, 0o070133#16)])) =
      some (1#16, 0#16, 0#4, 0o101#16, 0#16) := by decide
/-- V-AS-10. -/
theorem test_step_sbp :
    seen 0#16 (step (start 0#16 0#16 [(0o100#16, 0o077713#16)])) =
      some (0#16, 0x8000#16, 0#4, 0o76#16, 0#16) := by decide
/-- V-AS-12. -/
theorem test_step_ses_bit0 :
    seen 0#16 (step ({ start 0#16 0#16 [(0o100#16, 0o070114#16)] with e := 0b1110#4 })) =
      some (0#16, 0#16, 0b1110#4, 0o101#16, 0#16) := by decide
/-- V-AS-13. -/
theorem test_step_ses_set :
    seen 0#16 (step (start 0#16 0#16 [(0o100#16, 0o072114#16)])) =
      some (0#16, 0#16, 0b1111#4, 0o101#16, 0#16) := by decide
/-- V-AS-14. -/
theorem test_step_sec_both :
    seen 0#16 (step (start 0#16 0#16 [(0o100#16, 0o072135#16)])) =
      some (0#16, 0#16, 0b1111#4, 0o102#16, 0#16) := by decide
/-- V-AS-15. -/
theorem test_step_sec_clear :
    seen 0#16 (step ({ start 0#16 0#16 [(0o100#16, 0o070175#16)] with e := 0b1111#4 })) =
      some (0#16, 0#16, 0#4, 0o101#16, 0#16) := by decide
/-- V-MR-6. -/
theorem test_refused_indirect : refusal (step (start 0 0 [(0o100, 0o100300), (0o300, 0x8540)])) = some .indirectBit15 := by decide
/-- V-MR-22. -/
theorem test_refused_jsm_alias : refusal (step (start 0 0 [(0o100, 0o060300), (0o1777, 0o1777)])) = some .stackAliasesSp := by decide
/-- V-MR-23. -/
theorem test_refused_jsm_bit15 : refusal (step (start 0 0 [(0o100, 0o060300), (0o1777, 0x8000)])) = some .addressBit15 := by decide
/-- V-DEC-1. -/
theorem test_refused_fetch_unassigned : refusal (step (start 0 0 [(0o100, 0o070001)])) = some .unassigned := by decide
/-- R33: a store to ROM, and a read of Absent memory. -/
theorem test_refused_memmap :
    refusal (exec (.sta ⟨false, .zero, 0o300⟩)
      { start 1 0 [] with plat := { allWords with memMap := [⟨0o300, 0o300, .rom⟩] } }) = some .memmap ∧
    refusal (exec (.lda ⟨false, .zero, 0o300⟩)
      { start 1 0 [] with plat := { allWords with memMap := [⟨0o300, 0o300, .absent⟩] } }) = some .memmap := by decide
/-- R37: bit 15 of a pointer under the other two choices of INDIRECT_CHAIN. -/
theorem test_indirect_chain :
    seen 0 (exec (.lda ⟨true, .zero, 0o300⟩)
      { start 0 0 [(0o300, 0x8540), (0x540, 0o400), (0o400, 7)] with
        plat := { allWords with indirectChain := .ignoreBit15 } }) = some (0o400, 0, 0, 0o101, 0) ∧
    seen 0 (exec (.lda ⟨true, .zero, 0o300⟩)
      { start 0 0 [(0o300, 0x8540), (0x540, 0o400), (0o400, 7)] with
        plat := { allWords with indirectChain := .multilevel } }) = some (7, 0, 0, 0o101, 0) := by decide
/-- V-CE-1. -/
theorem test_cma :
    seen 0 (exec .cma ({ start 0x00FF 0 [] with e := 0b0101#4 })) = some (0xFF00, 0, 0b0101, 0o101, 0) := by decide
/-- V-CE-2. -/
theorem test_cmb :
    seen 0 (exec .cmb (start 0 0 [])) = some (0, 0xFFFF, 0, 0o101, 0) := by decide
/-- V-CE-3. -/
theorem test_tca :
    seen 0 (exec .tca (start 1 0 [])) = some (0xFFFF, 0, 0, 0o101, 0) := by decide
/-- V-CE-4. -/
theorem test_tca_zero :
    seen 0 (exec .tca (start 0 0 [])) = some (0, 0, 0, 0o101, 0) := by decide
/-- V-CE-6. -/
theorem test_tcb :
    seen 0 (exec .tcb (start 0 0xFFFB [])) = some (0, 5, 0, 0o101, 0) := by decide
/-- V-CE-9. -/
theorem test_exa :
    seen 0o1700 (exec .exa (start 0o060300 0 [(0o1777, 0o1700)])) = some (0o060300, 0, 0, 0o300, 0o100) := by decide
/-- V-CE-7. -/
theorem test_exa_shift :
    seen 0 (exec .exa (start 0o074002 4 [])) = some (0o074002, 2, 0, 0o101, 0) := by decide
/-- V-CE-8. -/
theorem test_exb :
    seen 0 (exec .exb (start 0 0o070110 [])) = some (0, 0o070110, 0, 0o102, 0) := by decide
/-- R164, R165: EXA of EXB of an instruction, and the chain that never ends. -/
theorem test_exa_chain :
    seen 0 (exec .exa (start 0xF005 0xF000 [])) = some (0x0FFA, 0xF000, 0, 0o101, 0) ∧
    fault (exec .exb (start 0xF005 0xF004 [])) = some .hangExecute := by decide
/-- V-CE-12. -/
theorem test_refused_exa_unassigned : refusal (exec .exa (start 0o177777 0 [])) = some .unassigned := by decide
/-- V-CE-13. -/
theorem test_refused_dma : refusal (exec .dma (start 0 0 [])) = some .dmaUnmodelled := by decide
/-- R166: with a DMA control fitted, A and B go out through M, and the processor waits. -/
theorem test_dma :
    (match exec .dma { start 1 2 [] with plat := dmaPlatform } with
      | .next s => some (s.m, s.p, s.dmaWait) | .fault _ => none | .refused _ => none) = some (2, 0o100, true) := by decide
/-- V-MAC-1. -/
theorem test_ret :
    seen 0o1777 (exec .ret (start 0 0 [(0o1777, 0o1701), (0o1700, 0o2010)])) = some (0, 0, 0, 0o2011, 0o1700) := by decide
/-- V-MAC-3. -/
theorem test_refused_ret_alias : refusal (exec .ret (start 0 0 [(0o1777, 0o2000)])) = some .stackAliasesSp := by decide
/-- V-MAC-45. -/
theorem test_mov :
    seen 0 (exec .mov ({ start 0xABCD 0 [] with e := 0b0001#4 })) = some (1, 0, 0, 0o101, 0) := by decide
/-- V-MAC-47. -/
theorem test_clr :
    seen 0o1757 (exec .clr (start 0o1754 0 [(0o1754, 1), (0o1757, 2)])) = some (0o1754, 0, 0, 0o101, 0) := by decide
/-- V-MAC-48. -/
theorem test_xfr :
    seen 0o1757 (exec .xfr (start 0o1744 0o1754 [(0o1744, 3), (0o1747, 0x9012)])) = some (0o1744, 0o1754, 0, 0o101, 0x9012) := by decide
/-- V-MAC-49. -/
theorem test_refused_xfr_overlap : refusal (exec .xfr (start 0o1744 0o1746 [])) = some .xfrOverlap := by decide
/-- V-MAC-5. -/
theorem test_mrx :
    seenMant 0o1744 (exec .mrx ({ start 7 0x0103 (mantissa 0o1744 0x1234 0x5678 0x9876) with e := 0b1111#4 })) =
      some (8, 0x0100, 0, 7123456789) := by decide
/-- V-MAC-8. -/
theorem test_mrx_thirteen :
    seenMant 0o1744 (exec .mrx (start 5 13 (mantissa 0o1744 0x1234 0x5678 0x9012))) =
      some (5, 0, 0, 0) := by decide
/-- V-MAC-11. -/
theorem test_mry :
    seenMant 0o1754 (exec .mry (start 0 1 (mantissa 0o1754 0x9000 0x0000 0x0005))) =
      some (5, 0, 0, 90000000000) := by decide
/-- V-MAC-10. -/
theorem test_refused_mrx_zero : refusal (exec .mrx (start 0 0xAB10 [])) = some .mrxCountZero := by decide
/-- V-MAC-12. -/
theorem test_mls :
    seenMant 0o1754 (exec .mls ({ start 0xFFFF 0x1234 (mantissa 0o1754 0x1234 0x5678 0x9012) with e := 0b1111#4 })) =
      some (1, 0x1234, 0, 234567890120) := by decide
/-- V-MAC-13. -/
theorem test_drs :
    seenMant 0o1744 (exec .drs (start 0 0 (mantissa 0o1744 0x1234 0x5678 0x9012))) =
      some (2, 0, 0, 12345678901) := by decide
/-- V-MAC-14. -/
theorem test_dls :
    seenMant 0o1744 (exec .dls (start 0xFFF7 0 (mantissa 0o1744 0x1234 0x5678 0x9012))) =
      some (1, 0, 0, 234567890127) := by decide
/-- V-MAC-17. -/
theorem test_fxa_overflow :
    seenMant 0o1754 (exec .fxa (start 0 0 (mantissa 0o1744 0x0000 0x0000 0x0001 ++ mantissa 0o1754 0x9999 0x9999 0x9999))) =
      some (0, 0, 1, 0) := by decide
/-- V-MAC-20. -/
theorem test_fxa_carry_in :
    seenMant 0o1754 (exec .fxa ({ start 0 0 (mantissa 0o1744 0x2500 0x0000 0x0000 ++ mantissa 0o1754 0x5000 0x0000 0x0000) with e := 0b1111#4 })) =
      some (0, 0, 0, 750000000001) := by decide
/-- V-MAC-21. -/
theorem test_refused_fxa_dc : refusal (exec .fxa { start 0 0 [] with e := 1#4 }) = some .dcUndefined := by decide
/-- V-MAC-22. -/
theorem test_refused_fxa_bcd : refusal (exec .fxa (start 0 0 [(0o1745, 0x00A0)])) = some .nonBcdDigit := by decide
/-- V-MAC-23. -/
theorem test_fmp :
    seenMant 0o1754 (exec .fmp (start 0 7 (mantissa 0o1744 0x2500 0x0000 0x0000 ++ mantissa 0o1754 0x5000 0x0000 0x0000))) =
      some (2, 7, 0, 250000000000) := by decide
/-- V-MAC-24. -/
theorem test_fmp_largest :
    seenMant 0o1754 (exec .fmp ({ start 0 0xFFFF (mantissa 0o1744 0x9999 0x9999 0x9999 ++ mantissa 0o1754 0x9999 0x9999 0x9999) with e := 0b1111#4 })) =
      some (0xF, 0xFFFF, 0, 999999999985) := by decide
/-- V-MAC-27. -/
theorem test_fdv :
    seenMant 0o1754 (exec .fdv (start 0 0 (mantissa 0o1744 0x4000 0x0000 0x0000 ++ mantissa 0o1754 0x3000 0x0000 0x0000))) =
      some (0, 1, 0, 100000000000) := by decide
/-- V-MAC-28. -/
theorem test_fdv_wraps :
    seenMant 0o1754 (exec .fdv ({ start 0 0xFFFE (mantissa 0o1744 0x2000 0x0000 0x0000 ++ mantissa 0o1754 0x3000 0x0000 0x0000) with e := 0b1111#4 })) =
      some (0, 1, 0, 100000000001) := by decide
/-- V-MAC-29. -/
theorem test_hang_fdv : fault (exec .fdv (start 0 0 (mantissa 0o1754 0x3000 0x0000 0x0000))) = some .hangFdv := by decide
/-- V-MAC-34. -/
theorem test_cmx :
    seenMant 0o1744 (exec .cmx ({ start 0 0 (mantissa 0o1744 0x6000 0x0000 0x0000) with e := 0b1111#4 })) =
      some (0, 0, 0, 400000000000) := by decide
/-- V-MAC-35. -/
theorem test_cmx_zero :
    seenMant 0o1744 (exec .cmx (start 0 0 (mantissa 0o1744 0x0000 0x0000 0x0000))) =
      some (0, 0, 0, 0) := by decide
/-- V-MAC-37. -/
theorem test_cmy :
    seenMant 0o1754 (exec .cmy (start 0 0 (mantissa 0o1754 0x0000 0x0000 0x0001))) =
      some (0, 0, 0, 999999999999) := by decide
/-- V-MAC-38. -/
theorem test_mdi_overflow :
    seenMant 0o1754 (exec .mdi (start 0o1754 0 (mantissa 0o1754 0x9999 0x9999 0x9999))) =
      some (0o1754, 0, 1, 100000000000) := by decide
/-- V-MAC-39. -/
theorem test_mdi :
    seenMant 0o1754 (exec .mdi ({ start 0o1754 0 (mantissa 0o1754 0x1234 0x5678 0x9999) with e := 0b1111#4 })) =
      some (0o1754, 0, 0, 123456790000) := by decide
/-- V-MAC-40. -/
theorem test_nrm :
    seenMant 0o1754 (exec .nrm ({ start 0 0xFFFF (mantissa 0o1754 0x0001 0x2300 0x0000) with e := 0b1111#4 })) =
      some (0, 3, 0, 123000000000) := by decide
/-- V-MAC-42. -/
theorem test_nrm_zero :
    seenMant 0o1754 (exec .nrm (start 0 0 (mantissa 0o1754 0x0000 0x0000 0x0000))) =
      some (0, 12, 1, 0) := by decide
/-- R19: with the exponent word last and D12 first, the digits of AR1 stand in 0o1744 to 0o1746, D12 in the top nibble. -/
theorem test_layout_other :
    seen 0o1744 (exec .dls
      { start 7 0 [(0o1744, 0x2109), (0o1745, 0x8765), (0o1746, 0x4321), (0o1747, 0xEEEE)] with
        plat := { allWords with mantLayout := { exponent := 3, digits := [11, 10, 9, 8, 7, 6, 5, 4, 3, 2, 1, 0] } } }) =
      some (1, 0, 0, 0o101, 0x7210) := by decide

/-! ## Reset and the host's fetch -/

theorem test_reset_runs_word : seen 0 (step (State.reset.withFetchWord 16 0o070070)) = some (1, 0, 0, 1, 0o070070) := by decide

/-! ## Witnesses: for each statement of Certificates/Slice0/Obligations.lean that has hypotheses, a state and operands
that meet them together, one for each clause, at the ends of a clause's range where it has one -/

/-- `start` on another platform. -/
def startOn (plat : Config.Platform) (a b : Word) (words : List (Word × Word)) : State :=
  { start a b words with plat := plat }

/-- The test platform with one word of memory of another kind. -/
def withKind (addr : Nat) (kind : Config.MemKind) : Config.Platform := { allWords with memMap := [⟨addr, addr, kind⟩] }

/-- The test platform under another INDIRECT_CHAIN. -/
def withChain (chain : Config.IndirectChain) : Config.Platform := { allWords with indirectChain := chain }

/-- AR1 = 999999999999 and AR2 = 999999999999. -/
def nines : List (Word × Word) := mantissa 0o1744 0x9999 0x9999 0x9999 ++ mantissa 0o1754 0x9999 0x9999 0x9999

/-- Four readable words, one by one. -/
theorem readable_four {s : State} (base : Word) (h0 : readable s (base + BitVec.ofNat 16 0))
    (h1 : readable s (base + BitVec.ofNat 16 1)) (h2 : readable s (base + BitVec.ofNat 16 2))
    (h3 : readable s (base + BitVec.ofNat 16 3)) : ∀ k, k < 4 → readable s (base + BitVec.ofNat 16 k) := by
  intro k hk
  have : k = 0 ∨ k = 1 ∨ k = 2 ∨ k = 3 := by omega
  rcases this with rfl | rfl | rfl | rfl <;> assumption

theorem test_witness_DecodeInvertsEncode :
    allWords.wf ∧ (Instr.nrm.wf && Instr.nrm.hasWord allWords && (Instr.sal 16).wf && (Instr.rib (-16)).wf) = true := ⟨allWords_wf, by decide⟩
theorem test_witness_DecodedWordIsTheEncodedWord :
    Config.defaultPlatform.dashBits = .strict ∧ decode Config.defaultPlatform 0o073010#16 = .ok (.rza (-16)) ∧
      (Instr.rza (-16)).unencoded? = none := ⟨rfl, rfl, rfl⟩
theorem test_witness_ExactlyTheUnassignedWordsAreRefused :
    unassignedWord 0o070001#16 = true ∧ (∀ row ∈ Config.defaultPlatform.encUnknown, (0o070001#16 &&& ~~~ dashPositions 0o070001#16) &&& row.mask ≠ row.pattern) ∧
      dashedRegisterWord 0o070001#16 = false := ⟨rfl, by simp [Config.defaultPlatform], rfl⟩
theorem test_witness_DashBitsRefusedOrMasked :
    (Config.defaultPlatform.dashBits = .strict ∧ 0o074014#16 &&& dashPositions 0o074014#16 ≠ 0#16) ∧
      ({ Config.defaultPlatform with dashBits := .ignore }.dashBits = .ignore) := by decide
theorem test_witness_DirectRegisterFormsRefused :
    (start 0 0 [(0o100, 0o070157)]).dmaWait = false ∧ readable (start 0 0 [(0o100, 0o070157)]) 0o100 ∧
      wordAt (start 0 0 [(0o100, 0o070157)]) 0o100 = rrWord 0b0110#4 .A false ∧
      wordAt (start 0 0 [(0o100, 0o074337)]) 0o100 = rrWord 0b1101#4 .B false := ⟨rfl, ⟨by decide, by decide⟩, by decide, by decide⟩
theorem test_witness_StepRunsDecodedInstruction :
    (start 0 0 [(0o100, 0o070744)]).dmaWait = false ∧ readable (start 0 0 [(0o100, 0o070744)]) 0o100 ∧
      decode allWords (wordAt (start 0 0 [(0o100, 0o070744)]) 0o100) = .ok (.sal 1) := ⟨rfl, ⟨by decide, by decide⟩, rfl⟩
theorem test_witness_StepRefusesWhatItCannotFetch :
    (start 0 0 []).dmaWait = false ∧ wordBit 0x8000#16 15 = true ∧
      (wordBit 0o77777#16 15 = false ∧ memKind (withKind 0o77777 .absent) 0o77777 = .absent) ∧
      (readable (start 0 0 [(0o100, 0o170000)]) 0o100 ∧ decode Config.defaultPlatform 0o170000#16 = .error .unassigned) := ⟨rfl, by decide, by decide, ⟨by decide, by decide⟩, rfl⟩
theorem test_witness_ReadReturnsLastWrite :
    (start 0 0 []).mem.wf = true ∧ (∃ t, memWrite (start 0 0 []) 0o77777 0xFFFF = .ok t) ∧
      ∃ t, memWrite (start 0 0 [(0, 1)]) 0 0 = .ok t := ⟨by decide, ⟨_, rfl⟩, ⟨_, rfl⟩⟩
theorem test_witness_AccessesRefusedByMemMap :
    wordBit 0x8000#16 15 = true ∧ (wordBit 0o77777#16 15 = false ∧ memKind (withKind 0o77777 .absent) 0o77777 = .absent) ∧
      (wordBit 0#16 15 = false ∧ memKind (withKind 0 .rom) 0 = .rom) := by decide
theorem test_witness_OperandLocation :
    let s := start 0o77777 0 [(0o1777, 0o300), (0, 0o77777)]
    let t := startOn (withKind 0o300 .absent) 0o300 0 [(0, 0o300)]
    (readable s (directAddress s.p ⟨true, .zero, 0o1777⟩) ∧
        wordBit (wordAt s (directAddress s.p ⟨true, .zero, 0o1777⟩)) 15 = false) ∧
      ¬ readable t (directAddress t.p ⟨true, .zero, 0o300⟩) ∧
      (memFormAddress s ⟨true, .current, 0⟩ = .ok 0o77777 ∧ readable s 0o77777) ∧
      (memFormAddress t ⟨true, .current, 0⟩ = .ok 0o300 ∧ regFormAddress t .A = .ok 0o300 ∧ ¬ readable t 0o300) ∧
      wordBit (s.reg .A) 15 = false ∧ regFormAddress s .A = .ok 0o77777 := ⟨⟨⟨by decide, by decide⟩, by decide⟩, fun h => absurd h.2 (by decide), ⟨rfl, ⟨by decide, by decide⟩⟩, ⟨rfl, rfl, fun h => absurd h.2 (by decide)⟩, by decide, rfl⟩
/-- OperandLocation: an indirect form whose pointer has bit 15 set. -/
theorem test_witness_indirect_bit15 :
    readable (start 0 0 [(0o300, 0x8540)]) 0o300 ∧ wordBit (wordAt (start 0 0 [(0o300, 0x8540)]) 0o300) 15 = true := ⟨⟨by decide, by decide⟩, by decide⟩
theorem test_witness_PointerBit15ByParameter :
    wordBit 0o77777#16 15 = false ∧ (wordBit 0x8000#16 15 = true ∧ allWords.indirectChain = .refuse) ∧
      (withChain .ignoreBit15).indirectChain = .ignoreBit15 ∧
      ((withChain .multilevel).indirectChain = .multilevel ∧ readable (startOn (withChain .multilevel) 0 0 [(0, 0o300)]) 0 ∧
        wordBit (wordAt (startOn (withChain .multilevel) 0 0 [(0, 0o300)]) 0) 15 = false) := ⟨by decide, by decide, rfl, ⟨rfl, ⟨by decide, by decide⟩, by decide⟩⟩
theorem test_witness_MultilevelIndirectionIsTheRecursion :
    (startOn (withChain .multilevel) 0 0 []).plat.indirectChain = .multilevel ∧ wordBit 0xFFFF#16 15 = true := by decide
theorem test_witness_AddSetsStickyCarry :
    memOperand (start 1 1 [(0o300, 0xFFFF)]) ⟨false, .zero, 0o300⟩ = .ok 0xFFFF ∧
      regOperand (start 0o300 0 [(0o300, 0xFFFF)]) .A true = .ok 0xFFFF ∧ regOperand (start 0 0xFFFF []) .B false = .ok 0xFFFF := ⟨rfl, rfl, rfl⟩
theorem test_witness_CompareSkipsOnDifference :
    memOperand (start 1 1 [(0o300, 1)]) ⟨false, .zero, 0o300⟩ = .ok 1 ∧
      regOperand (start 0o300 0 [(0o300, 1)]) .A true = .ok 1 ∧ regOperand (start 0 1 []) .B false = .ok 1 := ⟨rfl, rfl, rfl⟩
theorem test_witness_LoadTakesOperand :
    memOperand (start 1 1 [(0o300, 0x8000)]) ⟨false, .zero, 0o300⟩ = .ok 0x8000 ∧
      regOperand (start 0o300 0 [(0o300, 0x8000)]) .A true = .ok 0x8000 ∧ regOperand (start 0 0x8000 []) .B false = .ok 0x8000 := ⟨rfl, rfl, rfl⟩
theorem test_witness_LogicCombinesIntoA :
    memOperand (start 1 1 [(0o300, 0xFFFF)]) ⟨false, .zero, 0o300⟩ = .ok 0xFFFF ∧
      regOperand (start 0o300 0 [(0o300, 0xFFFF)]) .A true = .ok 0xFFFF ∧ regOperand (start 0 0xFFFF []) .B false = .ok 0xFFFF := ⟨rfl, rfl, rfl⟩
theorem test_witness_OperandRefusalStopsTheInstruction :
    let s := startOn (withKind 0o300 .absent) 0o300 0x8000 []
    memOperand s ⟨false, .zero, 0o300⟩ = .error (.refused .memmap) ∧ regOperand s .A true = .error (.refused .memmap) ∧
      memFormAddress s ⟨true, .zero, 0o300⟩ = .error (.refused .memmap) ∧
      regFormAddress s .B = .error (.refused .indirectBit15) := ⟨rfl, rfl, rfl, rfl⟩
theorem test_witness_StoreWritesOnlyItsWord :
    let s := start 0o1777 0o77777 []
    s.mem.wf = true ∧ writable s 0o1777 ∧ writable s 0o77777 ∧ memFormAddress s ⟨false, .zero, 0o1777⟩ = .ok 0o1777 ∧
      regFormAddress s .A = .ok 0o1777 ∧ regFormAddress s .B = .ok 0o77777 := ⟨by decide, ⟨by decide, by decide⟩, ⟨by decide, by decide⟩, rfl, rfl, rfl⟩
theorem test_witness_CountSkipsOnZero :
    let s := start 0o300 0 [(0o300, 0xFFFF)]
    s.mem.wf = true ∧ writable s 0o300 ∧ memFormAddress s ⟨false, .zero, 0o300⟩ = .ok 0o300 ∧ regFormAddress s .A = .ok 0o300 := ⟨by decide, ⟨by decide, by decide⟩, rfl, rfl⟩
theorem test_witness_StoresAndStackRefused :
    let s := startOn (withKind 0o300 .rom) 0o300 0 [(0o1777, 0o1777)]
    ¬ writable s 0o300 ∧ memFormAddress s ⟨false, .zero, 0o300⟩ = .ok 0o300 ∧ regFormAddress s .A = .ok 0o300 ∧
      wordAt s Config.spAddr = 0o1777#16 ∧ wordAt (start 0 0 [(0o1777, 0o2000)]) Config.spAddr = 0o2000#16 ∧
      ¬ writable s (wordAt (start 0 0 [(0o1777, 0x8000)]) Config.spAddr) ∧
      ¬ readable s (wordAt (start 0 0 [(0o1777, 0)]) Config.spAddr - 1#16) := ⟨fun h => absurd h.2 (by decide), rfl, rfl, by decide, by decide, fun h => absurd h.1 (by decide), fun h => absurd h.1 (by decide)⟩
/-- The four words of CLR, XFR and MDI: the last of them is ROM at A and past the address space at B. -/
theorem test_witness_StoresAndStackRefused_four_words :
    let s := startOn (withKind 0o303 .rom) 0o300 0o77775 (mantissa 0o300 0x1234 0x5678 0x9012)
    ((∀ j, j < 3 → writable s (s.a + BitVec.ofNat 16 j)) ∧ ¬ writable s (s.a + BitVec.ofNat 16 3)) ∧
      ((∀ j, j < 3 → readable s (s.a + BitVec.ofNat 16 j) ∧ writable s (s.b + BitVec.ofNat 16 j)) ∧
        readable s (s.a + BitVec.ofNat 16 3) ∧ ¬ writable s (s.b + BitVec.ofNat 16 3) ∧
        ¬ readable s (s.b + BitVec.ofNat 16 3)) ∧
      s.a.toNat + 4 ≤ s.b.toNat ∧ decimalAt s s.a ∧ ¬ mantWritable s s.a := by
  refine ⟨⟨fun j hj => ?_, fun h => absurd h.2 (by decide)⟩, ⟨fun j hj => ?_, ⟨by decide, by decide⟩,
    fun h => absurd h.1 (by decide), fun h => absurd h.1 (by decide)⟩, by decide, by unfold decimalAt; decide,
    fun h => absurd h.2.2.2 (by decide)⟩
  · have : j = 0 ∨ j = 1 ∨ j = 2 := by omega
    rcases this with rfl | rfl | rfl <;> exact ⟨by decide, by decide⟩
  · have : j = 0 ∨ j = 1 ∨ j = 2 := by omega
    rcases this with rfl | rfl | rfl <;> exact ⟨⟨by decide, by decide⟩, by decide, by decide⟩
theorem test_witness_CallPushesItsAddress :
    let s := start 0xFFFF 0o77777 [(0o1777, 0o1776), (0o300, 0)]
    s.mem.wf = true ∧ writable s (wordAt s Config.spAddr) ∧ wordAt s Config.spAddr ≠ Config.spAddr ∧
      memFormAddress s ⟨true, .zero, 0o300⟩ = .ok 0 ∧ regFormAddress s .B = .ok 0o77777 := ⟨by decide, ⟨by decide, by decide⟩, by decide, rfl, rfl⟩
theorem test_witness_JumpGoesToOperandAddress :
    let s := start 0 0o77777 []
    memFormAddress s ⟨false, .current, 0o1777⟩ = .ok 0o1777 ∧ regFormAddress s .B = .ok 0o77777 := ⟨rfl, rfl⟩
theorem test_witness_JumpToItselfRestsForEver :
    let s := start 0 0 [(0o100, 0o064100)]
    s.dmaWait = false ∧ s.m = s.p ∧ readable s s.p ∧
      decode s.plat (wordAt s s.p) = .ok (.jmp ⟨false, .zero, 0o100⟩) ∧ memFormAddress s ⟨false, .zero, 0o100⟩ = .ok s.p := ⟨rfl, rfl, ⟨by decide, by decide⟩, rfl, rfl⟩
/-- ArithmeticRightShiftIsFloorDivision, LogicalShiftsDivideAndMultiply, RotateMovesEveryBitRound: both ends of the count. -/
theorem test_witness_shift_counts :
    (1 ≤ 1 ∧ 1 ≤ 16) ∧ (1 ≤ 16 ∧ 16 ≤ 16) := by decide
theorem test_witness_ExecuteRunsTheRegistersWord :
    let s := start 0o070744 0xF004 []
    (decode s.plat s.a = .ok (.sal 1) ∧ Instr.sal 1 ≠ .exa ∧ Instr.sal 1 ≠ .exb) ∧
      (decode allWords 0xF000 = .ok .cma ∧ Instr.cma ≠ .exa ∧ Instr.cma ≠ .exb) ∧
      decode allWords 0xFFFF = .error .unassigned := ⟨⟨rfl, by decide, by decide⟩, ⟨rfl, by decide, by decide⟩, rfl⟩
theorem test_witness_ExecuteCompletesOnRegisterInstructions :
    registerOnly (.rar 16) = true ∧ decode allWords (start 0o070746 0o070746 []).a = .ok (.rar 16) ∧
      decode allWords (start 0o070746 0o070746 []).b = .ok (.rar 16) := ⟨rfl, rfl, rfl⟩
/-- A or B can hold any of these words, so each clause has its state. -/
theorem test_witness_ExecuteChainsOrHangs :
    decode allWords 0xF004 = .ok .exa ∧ decode allWords 0xF005 = .ok .exb ∧ decode allWords 0xF000 = .ok .cma ∧
      Instr.cma ≠ .exa ∧ Instr.cma ≠ .exb ∧ decode allWords 0xFFFF = .error .unassigned := ⟨rfl, rfl, rfl, by decide, by decide, rfl⟩
theorem test_witness_DmaHandsOverAndWaits :
    (start 0 0 []).plat.dmaAgent = .absent ∧ (startOn dmaPlatform 0 0 []).plat.dmaAgent = .fitted := by decide
/-- What the DMA control does is free, so which of the two clauses a step meets is too: that there is a step is not. -/
theorem test_witness_WaitingProcessorExecutesNothing :
    let s := { startOn dmaPlatform 0 0 [] with dmaWait := true }
    s.dmaWait = true ∧ s.plat.dmaAgent = .fitted ∧ (∃ t, step s = .next t) ∧ allWords.dmaAgent = .absent ∧
      memKind (withKind 0o300 .rom) 0o300 ≠ .rw := by
  refine ⟨rfl, rfl, ?_, rfl, by decide⟩
  show ∃ t, dmaWaiting { startOn dmaPlatform 0 0 [] with dmaWait := true } = .next t
  unfold dmaWaiting
  split
  · contradiction
  · split <;> exact ⟨_, rfl⟩
theorem test_witness_ReturnPopsAndAddsOne :
    let s := start 0 0 [(0o1777, 0o1777)]
    s.mem.wf = true ∧ readable s (wordAt s Config.spAddr - 1#16) ∧ wordAt s Config.spAddr - 1#16 ≠ Config.spAddr := ⟨by decide, ⟨by decide, by decide⟩, by decide⟩
theorem test_witness_CallThenReturnComesBack :
    let s := start 0 0o300 [(0o1777, 0o1700)]
    s.mem.wf = true ∧ (∃ t, exec (.jsm ⟨false, .zero, 0o400⟩) s = .next t) ∧ ∃ t, exec (.jsmReg .B) s = .next t := ⟨by decide, ⟨_, rfl⟩, ⟨_, rfl⟩⟩
theorem test_witness_ClearZeroesFourWords :
    let s := start 0o77774 0 []
    s.mem.wf = true ∧ ∀ k, k < 4 → writable s (s.a + BitVec.ofNat 16 k) := by
  refine ⟨by decide, fun k hk => ?_⟩
  have : k = 0 ∨ k = 1 ∨ k = 2 ∨ k = 3 := by omega
  rcases this with rfl | rfl | rfl | rfl <;> exact ⟨by decide, by decide⟩
/-- Four words apart, and three words apart. -/
theorem test_witness_TransferCopiesFourWords :
    let s := start 0o300 0o304 []
    (s.mem.wf = true ∧ (∀ k, k < 4 → readable s (s.a + BitVec.ofNat 16 k) ∧ writable s (s.b + BitVec.ofNat 16 k)) ∧
        s.a.toNat + 4 ≤ s.b.toNat) ∧
      ((0o300#16 : Word) ≠ 0o303#16 ∧ (0o300#16 : Word).toNat < (0o303#16 : Word).toNat + 4 ∧ (0o303#16 : Word).toNat < (0o300#16 : Word).toNat + 4) := by
  refine ⟨⟨by decide, fun k hk => ?_, by decide⟩, by decide⟩
  have : k = 0 ∨ k = 1 ∨ k = 2 ∨ k = 3 := by omega
  rcases this with rfl | rfl | rfl | rfl <;> exact ⟨⟨by decide, by decide⟩, by decide, by decide⟩
/-- Also the hypotheses of MantissaLeftShiftOfAR2 and DigitShiftsOfAR1. -/
theorem test_witness_MantissaRightShiftClosedForm :
    let s := start 5 15 nines
    s.mem.wf = true ∧ layoutOk s.plat.mantLayout = true ∧ 1 ≤ s.b.toNat % 16 ∧ (start 5 0xAB10 nines).b.toNat % 16 = 0 := by decide
/-- FixedPointAddition, FastMultiply, FastDivideIsTheLoop, TensComplement, NormalizationRotatesOutLeadingZeros. -/
theorem test_witness_decimal_operands :
    let s := start 0 0xFFFF nines
    s.mem.wf = true ∧ layoutOk s.plat.mantLayout = true ∧ decimalAt s Config.ar1Base ∧ decimalAt s Config.ar2Base ∧
      s.e = 0b0000#4 ∧ { s with e := 0b1111#4 }.e = 0b1111#4 := ⟨by decide, by decide, by unfold decimalAt; decide, by unfold decimalAt; decide, rfl, rfl⟩
/-- The clauses of the MAC statements under MAC_UNLISTED_REGS = unchanged. -/
theorem test_witness_unlisted_unchanged :
    (start 0 0 []).plat.unlistedRegs = .unchanged := rfl
theorem test_witness_FastDivideIsTheLoop :
    fdvLoop 1 (10 ^ 12 - 1) (10 ^ 12 - 1) 1 0 = some (0, 10 ^ 12 - 1) ∧ (∀ fuel, fdvLoop fuel 0 0 0 0 = none) := by
  refine ⟨by decide, fun fuel => ?_⟩
  suffices ∀ counted, fdvLoop fuel 0 0 0 counted = none from this 0
  induction fuel with
  | zero => intro counted; rfl
  | succ fuel ih => intro counted; exact ih (counted + 1)
theorem test_witness_FastDivideCompletes :
    let s := start 0 0 (mantissa 0o1744 0 0 1 ++ mantissa 0o1754 0x9999 0x9999 0x9999)
    valueAt s Config.ar1Base ≠ 0 ∧ valueAt s Config.ar2Base + 0 < 10 ^ 12 ∧ valueAt s Config.ar2Base + 1 = 10 ^ 12 ∧
      decimalAt s Config.ar1Base ∧ decimalAt s Config.ar2Base := ⟨by decide, by decide, by decide, by unfold decimalAt; decide, by unfold decimalAt; decide⟩
theorem test_witness_TensComplementTwiceRestores :
    let s := start 0 0 nines
    (∃ t, exec .cmx s = .next t) ∧ ∃ t, exec .cmy s = .next t := ⟨⟨_, rfl⟩, ⟨_, rfl⟩⟩
theorem test_witness_MantissaDecimalIncrement :
    let s := start 0o1754 0 nines
    s.mem.wf = true ∧ layoutOk s.plat.mantLayout = true ∧ (∀ k, k < 4 → readable s (s.a + BitVec.ofNat 16 k)) ∧
      mantWritable s s.a ∧ decimalAt s s.a ∧ valueAt s s.a = 10 ^ 12 - 1 := ⟨by decide, by decide, readable_four _ ⟨by decide, by decide⟩ ⟨by decide, by decide⟩ ⟨by decide, by decide⟩ ⟨by decide, by decide⟩, ⟨⟨by decide, by decide⟩, ⟨by decide, by decide⟩, ⟨by decide, by decide⟩⟩, by unfold decimalAt; decide, by decide⟩
theorem test_witness_DecimalOperandsRefused :
    let s := start 0o1754 0 [(0o1745, 0xA000), (0o1757, 0x000A)]
    { s with e := 0b0001#4 }.e ≠ 0b0000#4 ∧ { s with e := 0b0001#4 }.e ≠ 0b1111#4 ∧ s.e = 0b0000#4 ∧
      ¬ decimalAt s Config.ar1Base ∧ ¬ decimalAt s Config.ar2Base ∧ (∀ k, k < 4 → readable s (s.a + BitVec.ofNat 16 k)) ∧ ¬ decimalAt s s.a := ⟨by decide, by decide, rfl, by unfold decimalAt; decide, by unfold decimalAt; decide, readable_four _ ⟨by decide, by decide⟩ ⟨by decide, by decide⟩ ⟨by decide, by decide⟩ ⟨by decide, by decide⟩, by unfold decimalAt; decide⟩
theorem test_witness_StepKeepsInvariant :
    State.Inv (start 0 0 []) ∧ ∃ t, step (start 0 0 []) = .next t := ⟨⟨by decide, fun _ => rfl⟩, ⟨_, rfl⟩⟩
theorem test_witness_ParametersNeverChange :
    ∃ t, Sys2Proof.core.run 2 (start 0 0 []) = .next t := ⟨_, rfl⟩
theorem test_witness_OnlyRwMemoryChanges :
    let s := startOn (withKind 0o300 .rom) 0 0 []
    s.Inv ∧ (∃ t, Sys2Proof.core.run 2 s = .next t) ∧ wordBit 0o300#16 15 = false ∧ memKind s.plat 0o300 ≠ .rw := ⟨⟨by decide, fun _ => rfl⟩, ⟨_, rfl⟩, by decide, by decide⟩
theorem test_witness_RegistersChangeOnlyByTheirWriters :
    let s := start 0 0 []
    s.plat.unlistedRegs = .unchanged ∧ Instr.sta ⟨false, .zero, 0o300⟩ ≠ .exa ∧ Instr.sta ⟨false, .zero, 0o300⟩ ≠ .exb ∧
      (∃ t, exec (.sta ⟨false, .zero, 0o300⟩) s = .next t) ∧
      (writesA (.sta ⟨false, .zero, 0o300⟩) || writesB (.sta ⟨false, .zero, 0o300⟩) || writesE (.sta ⟨false, .zero, 0o300⟩)) = false := ⟨rfl, by decide, by decide, ⟨_, rfl⟩, rfl⟩
theorem test_witness_SingleLevelTableProgramsNeverHang :
    let s := startOn Config.defaultPlatform 0 0 []
    s.dmaWait = false ∧ s.plat.encUnknown = [] ∧ s.plat.indirectChain ≠ .multilevel := ⟨rfl, rfl, by decide⟩

end Sys2Proof.Tests
end

section
/-! ADA and ADB (40_memory_reference.md R82, R83): the sum and the carry in numbers, the effect the two registers share,
and the two forms that reach it through their operand. -/

namespace Sys2Proof.Machine

/-! ## The sum and its carry -/

theorem sum17_toNat (x y : Word) : (sum17 x y).toNat = x.toNat + y.toNat := by
  simp only [sum17, BitVec.toNat_add, BitVec.toNat_setWidth]
  omega

/-- R82: bit 16 of the 17-bit sum is the carry out of bit 15. -/
theorem sum17_carry_bit (x y : Word) : (sum17 x y).getLsbD 16 = decide (65536 ≤ x.toNat + y.toNat) :=
  calc (sum17 x y).getLsbD 16
    _ = (sum17 x y).msb := (BitVec.msb_eq_getLsbD_last _).symm
    _ = decide (65536 ≤ (sum17 x y).toNat) := BitVec.msb_eq_decide _
    _ = decide (65536 ≤ x.toNat + y.toNat) := by rw [sum17_toNat]

theorem carryE_eq (e : Nibble) (x y : Word) :
    carryE e x y = if 65536 ≤ x.toNat + y.toNat then 0b0001#4 else e := by
  simp only [carryE, sum17_carry_bit, decide_eq_true_eq]

/-! ## The shared effect, with its frame -/

theorem addEffect_A (s : State) (v : Word) :
    addEffect s .A v =
      { s with a := BitVec.ofNat 16 (s.a.toNat + v.toNat), e := if 65536 ≤ s.a.toNat + v.toNat then 0b0001#4 else s.e,
               p := s.p + 1#16, m := s.p + 1#16 } := by
  rw [addEffect, carryE_eq, BitVec.add_def]
  rfl

theorem addEffect_B (s : State) (v : Word) :
    addEffect s .B v =
      { s with b := BitVec.ofNat 16 (s.b.toNat + v.toNat), e := if 65536 ≤ s.b.toNat + v.toNat then 0b0001#4 else s.e,
               p := s.p + 1#16, m := s.p + 1#16 } := by
  rw [addEffect, carryE_eq, BitVec.add_def]
  rfl

/-! ## The instructions, given their operand -/

/-- R80, R81: an instruction that reads an operand and then only applies an effect completes with that effect. -/
theorem outcome_operand_ok {x : Res Word} {v : Word} (h : x = .ok v) (effect : Word → State) :
    outcome (x >>= fun w => pure (effect w)) = .next (effect v) := by
  rw [h, res_ok_bind, res_pure, outcome_ok]

theorem exec_ada {s : State} {ref : MemRef} {v : Word} (h : memOperand s ref = .ok v) :
    exec (.ada ref) s = .next (addEffect s .A v) := outcome_operand_ok h (addEffect s .A)

theorem exec_adaReg {s : State} {r : Reg} {i : Bool} {v : Word} (h : regOperand s r i = .ok v) :
    exec (.adaReg r i) s = .next (addEffect s .A v) := outcome_operand_ok h (addEffect s .A)

theorem exec_adb {s : State} {ref : MemRef} {v : Word} (h : memOperand s ref = .ok v) :
    exec (.adb ref) s = .next (addEffect s .B v) := outcome_operand_ok h (addEffect s .B)

theorem exec_adbReg {s : State} {r : Reg} {i : Bool} {v : Word} (h : regOperand s r i = .ok v) :
    exec (.adbReg r i) s = .next (addEffect s .B v) := outcome_operand_ok h (addEffect s .B)

/-- Settles O14: the four forms reach one effect, whose 17-bit sum carries exactly when the numbers reach 2^16. -/
theorem addSetsStickyCarry : Obligations.AddSetsStickyCarry := by
  intro s v
  refine ⟨fun ref h => ?ada, fun r i h => ?adaReg, fun ref h => ?adb, fun r i h => ?adbReg⟩
  case ada => rw [exec_ada h, addEffect_A]
  case adaReg => rw [exec_adaReg h, addEffect_A]
  case adb => rw [exec_adb h, addEffect_B]
  case adbReg => rw [exec_adbReg h, addEffect_B]

end Sys2Proof.Machine
end

section
/-! SES and SEC (42_alter_skip.md R146, R147): the skip's target and the low bit of E in numbers, the effect the two
instructions share, and the two tests that choose its skip. -/

namespace Sys2Proof.Machine

/-! ## The skip and the tested bit in numbers -/

/-- R130: a signed distance counted from P, modulo 2^16. -/
theorem skipTarget_eq (p : Word) (cond : Bool) (n : Int) :
    skipTarget p cond n = BitVec.ofInt 16 (p.toNat + if cond then n else 1) := by
  cases cond with
  | true => simp [skipTarget, BitVec.ofInt_add]
  | false => simp [skipTarget, BitVec.ofInt_add]

theorem nibble_bit0_eq (e : Nibble) : e.getLsbD 0 = decide (e.toNat % 2 = 1) := Nat.testBit_zero e.toNat

theorem not_nibble_bit0_eq (e : Nibble) : (!e.getLsbD 0) = decide (e.toNat % 2 = 0) := by
  rw [nibble_bit0_eq, ← decide_not, decide_eq_decide]
  exact Nat.mod_two_ne_one

/-! ## The shared effect, with its frame -/

/-- R131, R146, R147: the test decides P and M, the alter bits alone decide E, and nothing else changes. -/
theorem testAlterEEffect_eq (s : State) (cond set clear : Bool) (n : Int) :
    testAlterEEffect s cond set clear n =
      { s with e := if set then 0b1111#4 else if clear then 0b0000#4 else s.e,
               p := BitVec.ofInt 16 (s.p.toNat + if cond then n else 1),
               m := BitVec.ofInt 16 (s.p.toNat + if cond then n else 1) } := by
  rw [testAlterEEffect, skipTarget_eq]
  rfl

/-! ## The instructions -/

theorem exec_ses (n : Int) (set clear : Bool) (s : State) :
    exec (.ses n set clear) s = .next (testAlterEEffect s (decide (s.e.toNat % 2 = 1)) set clear n) := by
  rw [← nibble_bit0_eq]
  rfl

theorem exec_sec (n : Int) (set clear : Bool) (s : State) :
    exec (.sec n set clear) s = .next (testAlterEEffect s (decide (s.e.toNat % 2 = 0)) set clear n) := by
  rw [← not_nibble_bit0_eq]
  rfl

/-- Settles O31: both instructions reach one effect, SES on a low bit of one and SEC on a low bit of zero. -/
theorem carryTestAltersAllOfE : Obligations.CarryTestAltersAllOfE := by
  intro s n set clear
  constructor
  case left => rw [exec_ses, testAlterEEffect_eq]
  case right => rw [exec_sec, testAlterEEffect_eq]

end Sys2Proof.Machine
end

section
/-! MOV and CLR (44_mac.md R181, R182): zero extension in numbers, and the four cleared words. -/

namespace Sys2Proof.Machine

/-! ## MOV -/

theorem nibble_zext (x : Nibble) : x.setWidth 16 = BitVec.ofNat 16 x.toNat := BitVec.eq_of_toNat_eq (by simp)

theorem exec_mov (s : State) : exec .mov s = .next ((s.setReg .A (s.e.setWidth 16)).setE 0b0000#4).advance := rfl

/-- Settles O40: the three updates of R181 in the order of its pseudocode, with E's zero extension as a number. -/
theorem moveOverflowTakesE : Obligations.MoveOverflowTakesE := by
  intro s
  rw [exec_mov, nibble_zext]
  rfl

/-! ## The four cleared words -/

/-- What every word reads as after a store. -/
theorem wordAt_storedAt {s : State} {addr : Word} (hw : s.mem.wf = true) (ha : wordBit addr 15 = false) (v x : Word) :
    wordAt (storedAt s addr v) x = if x = addr then v else wordAt s x := by
  split
  case isTrue heq => rw [heq, wordAt_storedAt_same hw ha]
  case isFalse hne => exact wordAt_storedAt_other hne s v

/-- R182: the addresses of the four words of the register at `base`. -/
def fourAddrs (base : Word) : List Word := [base, base + 1#16, base + 2#16, base + 3#16]

theorem mem_fourAddrs (base : Word) {k : Nat} (hk : k < 4) : base + BitVec.ofNat 16 k ∈ fourAddrs base := by
  match k, hk with
  | 0, _ | 1, _ | 2, _ | 3, _ => simp [fourAddrs]

/-- The state after four zeros are stored from `base` on. -/
def fourCleared (s : State) (base : Word) : State :=
  storedAt (storedAt (storedAt (storedAt s base 0#16) (base + 1#16) 0#16) (base + 2#16) 0#16) (base + 3#16) 0#16

theorem fourCleared_registers (s : State) (base : Word) : sameRegisters s (fourCleared s base) :=
  ⟨rfl, rfl, rfl, rfl, rfl, rfl⟩

section
variable {s : State} {base : Word}

theorem writable_fourAddrs (h : ∀ k, k < 4 → writable s (base + BitVec.ofNat 16 k)) :
    writable s base ∧ writable s (base + 1#16) ∧ writable s (base + 2#16) ∧ writable s (base + 3#16) :=
  ⟨by simpa using h 0 (by omega), h 1 (by omega), h 2 (by omega), h 3 (by omega)⟩

theorem clearFour_writable (h : ∀ k, k < 4 → writable s (base + BitVec.ofNat 16 k)) :
    clearFour s base = .ok (fourCleared s base) :=
  (clearFour_ok_iff s base _).mpr ⟨writable_fourAddrs h, rfl⟩

/-- The canonical form is kept, and zero stands exactly at the four addresses: as all four stores are zeros, their order
does not matter. -/
theorem fourCleared_mem (hw : s.mem.wf = true) (h : ∀ k, k < 4 → writable s (base + BitVec.ofNat 16 k)) :
    (fourCleared s base).mem.wf = true ∧
      ∀ x, wordAt (fourCleared s base) x = if x ∈ fourAddrs base then 0#16 else wordAt s x := by
  obtain ⟨⟨h0, -⟩, ⟨h1, -⟩, ⟨h2, -⟩, ⟨h3, -⟩⟩ := writable_fourAddrs h
  have w0 := storedAt_mem_wf hw h0 0#16
  have w1 := storedAt_mem_wf w0 h1 0#16
  have w2 := storedAt_mem_wf w1 h2 0#16
  refine ⟨storedAt_mem_wf w2 h3 0#16, fun x => ?_⟩
  rw [fourCleared, wordAt_storedAt w2 h3, wordAt_storedAt w1 h2, wordAt_storedAt w0 h1, wordAt_storedAt hw h0]
  simp only [fourAddrs, List.mem_cons, List.not_mem_nil, or_false]
  by_cases hx : x = base ∨ x = base + 1#16 ∨ x = base + 2#16 ∨ x = base + 3#16
  case pos =>
    rw [if_pos hx]
    rcases hx with heq | heq | heq | heq <;> simp only [if_pos heq, ite_self]
  case neg =>
    obtain ⟨n0, n1, n2, n3⟩ : x ≠ base ∧ x ≠ base + 1#16 ∧ x ≠ base + 2#16 ∧ x ≠ base + 3#16 := by
      simpa only [not_or] using hx
    rw [if_neg hx, if_neg n3, if_neg n2, if_neg n1, if_neg n0]

end

/-! ## CLR -/

theorem exec_clr {s t : State} (h : clearFour s s.a = .ok t) : exec .clr s = .next t.advance := by
  change outcome (clearFour s s.a >>= fun t => pure t.advance) = _
  rw [h, res_ok_bind, res_pure, outcome_ok]

/-- Settles O41: CLR ends in the cleared state advanced, and every word of that state is known. -/
theorem clearZeroesFourWords : Obligations.ClearZeroesFourWords := by
  intro s hw h
  obtain ⟨hwf, hword⟩ := fourCleared_mem hw h
  refine ⟨_, exec_clr (clearFour_writable h), fun k hk => ?zero, fun x _ hx => ?others, fourCleared_registers s s.a,
    rfl, rfl, hwf⟩
  case zero => exact (hword _).trans (if_pos (mem_fourAddrs s.a hk))
  case others => exact (hword x).trans (if_neg hx)

end Sys2Proof.Machine
end

section
/-! MLS, DRS and DLS (44_mac.md R186 to R188): the state that one digit shift of a mantissa ends in, with its frame, and
the digits that each of the three instructions leaves there. -/

namespace Sys2Proof.Machine

/-! ## The state after one digit shift -/

/-- R186 to R188: `digits` to the mantissa at `base`, the digit shifted out to A with zeros above it, E cleared. -/
def digitShifted (s : State) (base : Word) (digits : List Nibble) (out : Nibble) : State :=
  (((mantStored s base digits).setReg .A (out.setWidth 16)).setE 0b0000#4).advance

/-- An instruction that ends so holds the new digits, and has changed nothing but A, E, P, M and the three words. -/
theorem completes_of_digitShifted {s : State} {i : Instr} {base : Word} {digits : List Nibble} {out : Nibble}
    (hw : s.mem.wf = true) (hl : layoutOk s.plat.mantLayout = true) (hm : mantWritable s base) (hd : digits.length = 12)
    (h : exec i s = .next (digitShifted s base digits out)) :
    ∃ t, exec i s = .next t ∧ digitsAt t base = digits ∧ t.a.toNat = out.toNat ∧ t.b = s.b ∧ t.e = 0b0000#4 ∧
      t.p = s.p + 1#16 ∧ t.m = s.p + 1#16 ∧ t.dmaWait = s.dmaWait ∧ t.plat = s.plat ∧ t.freeCount = s.freeCount ∧
      sameWordsExcept (mantAddrs s base) s t ∧ t.mem.wf = true :=
  have hout : (out.setWidth 16).toNat = out.toNat := BitVec.toNat_setWidth_of_le (by omega)
  ⟨_, h, digitsAt_mantStored hw hm hl hd, hout, rfl, rfl, rfl, rfl, rfl, rfl, rfl,
    fun _ _ hx => wordAt_mantStored_other hx digits, mantStored_mem_wf hw hm digits⟩

/-! ## The instructions -/

theorem mant_writable {s : State} {base : Word} (h : mantWritable s base) : mant s base = .ok (digitsAt s base) :=
  (mant_ok_iff s base _).mpr ⟨mantReadable_of_writable h, rfl⟩

theorem setMant_writable {s : State} {base : Word} (h : mantWritable s base) (digits : List Nibble) :
    setMant s base digits = .ok (mantStored s base digits) := (setMant_ok_iff s base digits _).mpr ⟨h, rfl⟩

/-- R186, R188: a left shift takes `fill` in at D12 and D1 out. -/
theorem shiftLeftEffect_writable {s : State} {base : Word} (h : mantWritable s base) (fill : Nibble) :
    shiftLeftEffect s base fill =
      .ok (digitShifted s base ((digitsAt s base).drop 1 ++ [fill]) ((digitsAt s base).getD 0 0#4)) := by
  rw [shiftLeftEffect, mant_writable h, res_ok_bind, setMant_writable h, res_ok_bind, res_pure, List.drop_one,
    List.getD_eq_getElem?_getD, ← List.head?_eq_getElem?, ← List.headD_eq_head?_getD]
  rfl

theorem exec_mls (s : State) :
    exec .mls s = .next (digitShifted s Config.ar2Base ((digitsAt s Config.ar2Base).drop 1 ++ [0#4])
      ((digitsAt s Config.ar2Base).getD 0 0#4)) := by
  change outcome (shiftLeftEffect s Config.ar2Base 0#4) = _
  rw [shiftLeftEffect_writable (mantWritable_ar2 s), outcome_ok]

/-- R188: the digit shifted in is the old A[3:0]. -/
theorem exec_dls (s : State) :
    exec .dls s = .next (digitShifted s Config.ar1Base
      ((digitsAt s Config.ar1Base).drop 1 ++ [BitVec.ofNat 4 s.a.toNat]) ((digitsAt s Config.ar1Base).getD 0 0#4)) := by
  change outcome (shiftLeftEffect s Config.ar1Base (BitVec.ofNat 4 s.a.toNat)) = _
  rw [shiftLeftEffect_writable (mantWritable_ar1 s), outcome_ok]

/-- R187: a right shift takes zero in at D1 and D12 out. -/
theorem exec_drs {s : State} (hl : layoutOk s.plat.mantLayout = true) :
    exec .drs s = .next (digitShifted s Config.ar1Base (0#4 :: (digitsAt s Config.ar1Base).take 11)
      ((digitsAt s Config.ar1Base).getD 11 0#4)) := by
  have hlen := digitsAt_length hl Config.ar1Base
  have htake : (digitsAt s Config.ar1Base).take 11 = (digitsAt s Config.ar1Base).dropLast := by
    rw [List.dropLast_eq_take, hlen]
  have hlast : (digitsAt s Config.ar1Base).getD 11 0#4 = (digitsAt s Config.ar1Base).getLastD 0#4 := by
    rw [List.getLastD_eq_getLast?, List.getLast?_eq_getElem?, hlen, List.getD_eq_getElem?_getD]
  change execDrs s = _
  rw [execDrs, mant_writable (mantWritable_ar1 s), res_ok_bind, setMant_writable (mantWritable_ar1 s), res_ok_bind,
    res_pure, outcome_ok, htake, hlast]
  rfl

/-- Settles O44: MLS is one left shift of AR2, whose mantissa words are RW on every platform. -/
theorem mantissaLeftShiftOfAR2 : Obligations.MantissaLeftShiftOfAR2 := by
  intro s hw hl
  have hlen := digitsAt_length hl Config.ar2Base
  exact completes_of_digitShifted hw hl (mantWritable_ar2 s) (by simp [hlen]) (exec_mls s)

/-- Settles O45: DRS and DLS end in the same shape of state, with different digits in AR1 and A. -/
theorem digitShiftsOfAR1 : Obligations.DigitShiftsOfAR1 := by
  intro s hw hl i digits out hi
  have hlen := digitsAt_length hl Config.ar1Base
  rcases hi with ⟨rfl, rfl, rfl⟩ | ⟨rfl, rfl, rfl⟩
  case inl => exact completes_of_digitShifted hw hl (mantWritable_ar1 s) (by simp [hlen]) (exec_drs hl)
  case inr => exact completes_of_digitShifted hw hl (mantWritable_ar1 s) (by simp [hlen]) (exec_dls s)

end Sys2Proof.Machine
end

section
/-! What an instruction that completes has done, said once for all 75: a sequence of the named updates of the state, each
register written by a writer of 10_state.md R11 and R12 only, each store at a writable word, and P and M set together at
the end. The facts that hold of every step (R13, R14, R23, R33) are inductions over that sequence. -/

namespace Sys2Proof.Machine

/-! ## Sequences of updates -/

/-- R11's tables, by register. -/
def writesReg (i : Instr) : Reg → Bool
  | .A => writesA i
  | .B => writesB i

/-- The states an instruction can reach from `s` by the updates it may make before its end. -/
inductive Updates (i : Instr) (s : State) : State → Prop where
  | none : Updates i s s
  | setReg {u : State} (r : Reg) (v : Word) (hw : writesReg i r = true) (h : Updates i s u) : Updates i s (u.setReg r v)
  | setE {u : State} (v : Nibble) (hw : writesE i = true) (h : Updates i s u) : Updates i s (u.setE v)
  | unlisted {u : State} (r : Reg) (h : Updates i s u) : Updates i s (u.unlisted r)
  | store {u : State} {addr : Word} (v : Word) (hw : writable u addr) (h : Updates i s u) :
      Updates i s (storedAt u addr v)

/-- R13, R14: an instruction ends after its updates by setting P and M. -/
def Completed (i : Instr) (s t : State) : Prop := ∃ (u : State) (nextP : Word), Updates i s u ∧ t = u.goto nextP

namespace Updates

variable {i : Instr} {s u : State}

theorem plat (h : Updates i s u) : u.plat = s.plat := by
  induction h with
  | none => rfl
  | setReg r v _ _ ih => rw [setReg_plat, ih]
  | setE v _ _ ih => rw [setE_plat, ih]
  | unlisted r _ ih => rw [unlisted_plat, ih]
  | store v _ _ ih => rw [storedAt_plat, ih]

theorem dmaWait (h : Updates i s u) : u.dmaWait = s.dmaWait := by
  induction h with
  | none => rfl
  | setReg r v _ _ ih => rw [setReg_dmaWait, ih]
  | setE v _ _ ih => rw [setE_dmaWait, ih]
  | unlisted r _ ih => rw [unlisted_dmaWait, ih]
  | store v _ _ ih => rw [storedAt_dmaWait, ih]

theorem mem_wf (h : Updates i s u) (hs : s.mem.wf = true) : u.mem.wf = true := by
  induction h with
  | none => exact hs
  | setReg r v _ _ ih => rw [setReg_mem, ih]
  | setE v _ _ ih => rw [setE_mem, ih]
  | unlisted r _ ih => rw [unlisted_mem, ih]
  | store v hw _ ih => exact storedAt_mem_wf ih hw.1 v

/-- R33: a word that MemMap does not make RW is never stored into. -/
theorem wordAt_not_rw (h : Updates i s u) {addr : Word} (ha : memKind s.plat addr.toNat ≠ .rw) :
    wordAt u addr = wordAt s addr := by
  induction h with
  | none => rfl
  | setReg r v _ _ ih => rw [← ih, wordAt, setReg_mem, wordAt]
  | setE v _ _ ih => rw [← ih, wordAt, setE_mem, wordAt]
  | unlisted r _ ih => rw [← ih, wordAt, unlisted_mem, wordAt]
  | @store u addr' v hw h ih =>
    have hne : addr ≠ addr' := by
      rintro rfl
      exact ha (h.plat ▸ hw.2)
    rw [wordAt_storedAt_other hne, ih]

/-- R11: a register that the instruction does not write keeps its word. -/
theorem reg (h : Updates i s u) (hu : s.plat.unlistedRegs = .unchanged) {r : Reg} (hr : writesReg i r = false) :
    u.reg r = s.reg r := by
  induction h with
  | none => rfl
  | setReg r' v hw _ ih =>
    cases r <;> cases r'
    case A.B | B.A => exact ih
    case A.A | B.B => rw [hr] at hw; cases hw
  | setE v _ _ ih => rw [← ih]; cases r <;> rfl
  | unlisted r' h ih => rw [unlisted_unchanged _ _ (h.plat ▸ hu), ih]
  | store v _ _ ih => rw [← ih]; cases r <;> rfl

/-- R12: E is kept by an instruction that does not write it. -/
theorem e (h : Updates i s u) (hr : writesE i = false) : u.e = s.e := by
  induction h with
  | none => rfl
  | setReg r v _ _ ih => rw [setReg_e, ih]
  | setE v hw _ ih => rw [hr] at hw; cases hw
  | unlisted r _ ih => rw [unlisted_e, ih]
  | store v _ _ ih => rw [storedAt_e, ih]

/-- Writability is the parameters' alone, so it may be known at the start. -/
theorem stored (h : Updates i s u) {addr : Word} (hw : writable s addr) (v : Word) : Updates i s (storedAt u addr v) :=
  .store v ((writable_congr h.plat addr).mpr hw) h

theorem mantStored (h : Updates i s u) {base : Word} (hw : mantWritable u base) (digits : List Nibble) :
    Updates i s (mantStored u base digits) := by
  obtain ⟨h0, h1, h2⟩ := hw
  exact .store _ h2 (.store _ h1 (.store _ h0 h))

theorem goto (h : Updates i s u) (nextP : Word) : Completed i s (u.goto nextP) := ⟨u, nextP, h, rfl⟩

theorem advance (h : Updates i s u) : Completed i s u.advance := h.goto _

end Updates

/-! ## Completion through results that may stop -/

/-- Whatever this result answers is a completion of the instruction. -/
def Completes (i : Instr) (s : State) (x : Res State) : Prop := ∀ t, x = .ok t → Completed i s t

section
variable {i : Instr} {s : State}

theorem Completes.of_outcome {x : Res State} (hx : Completes i s x) {t : State} (h : outcome x = .next t) :
    Completed i s t := hx t ((outcome_next_iff x t).mp h)

theorem Completes.bind {α : Type} {x : Res α} {f : α → Res State} (hf : ∀ v, x = .ok v → Completes i s (f v)) :
    Completes i s (x >>= f) := by
  intro t h
  obtain ⟨v, hv, hft⟩ := (res_bind_ok_iff x f t).mp h
  exact hf v hv t hft

theorem Completes.pure {t : State} (h : Completed i s t) : Completes i s (pure t) := by
  intro t' ht
  cases ht
  exact h

theorem Completes.refuse (r : Refusal) : Completes i s (refuse r) := fun _ h => absurd h (refuse_ne_ok r _)

theorem Completes.hang (f : Fault) : Completes i s (hang f) := fun _ h => absurd h (hang_ne_ok f _)

/-- R80, R81: the shape of the instructions that only read their operand. -/
theorem completed_of_operand {x : Res Word} {effect : Word → State} (he : ∀ v, Completed i s (effect v)) {t : State}
    (h : outcome (x >>= fun v => pure (effect v)) = .next t) : Completed i s t :=
  Completes.of_outcome (.bind fun v _ => .pure (he v)) h

/-- R80, R81: the shape of the instructions that use the address of their operand. -/
theorem completed_of_address {x : Res Word} {effect : Word → Res State} (he : ∀ addr, Completes i s (effect addr))
    {t : State} (h : outcome (x >>= effect) = .next t) : Completed i s t :=
  Completes.of_outcome (.bind fun addr _ => he addr) h

theorem completed_of_next {u t : State} (hu : Completed i s u)
    (h : Host.Outcome.next (φ := Fault) (ρ := Refusal) u = .next t) :
    Completed i s t := by
  cases h
  exact hu

/-! ## The shared effects -/

theorem addEffect_completed {r : Reg} (hr : writesReg i r = true) (he : writesE i = true) (v : Word) :
    Completed i s (addEffect s r v) := (((Updates.none).setReg r _ hr).setE _ he).advance

theorem compareEffect_completed (r : Reg) (v : Word) : Completed i s (compareEffect s r v) := (Updates.none).goto _

theorem replacedReg_completed {r : Reg} (hr : writesReg i r = true) (v : Word) :
    Completed i s (s.setReg r v).advance := ((Updates.none).setReg r v hr).advance

theorem storeEffect_completes (r : Reg) (addr : Word) : Completes i s (storeEffect s r addr) := by
  intro t h
  obtain ⟨hw, rfl⟩ := (storeEffect_ok_iff s r addr t).mp h
  exact ((Updates.none).store _ hw).advance

theorem countEffect_completes (count addr : Word) : Completes i s (countEffect s count addr) := by
  intro t h
  obtain ⟨hw, rfl⟩ := (countEffect_ok_iff s count addr t).mp h
  exact ((Updates.none).store _ hw).goto _

theorem callEffect_completes (target : Word) : Completes i s (callEffect s target) := by
  intro t h
  obtain ⟨-, hw, rfl⟩ := (callEffect_ok_iff s target t).mp h
  exact (((Updates.none).store _ hw).store _ (writable_spAddr _)).goto _

theorem goto_completes (target : Word) : Completes i s (pure (s.goto target)) := .pure ((Updates.none).goto _)

theorem testEffect_completed (cond : Bool) (n : Int) : Completed i s (testEffect s cond n) := (Updates.none).goto _

theorem testIncrementEffect_completed {r : Reg} (hr : writesReg i r = true) (cond : Bool) (n : Int) :
    Completed i s (testIncrementEffect s r cond n) := ((Updates.none).setReg r _ hr).goto _

theorem setReg_reg_self (s : State) (r : Reg) : s.setReg r (s.reg r) = s := by cases r <;> rfl

/-- R131: without S and C a bit test writes nothing, with one of them its register. -/
theorem testAlterEffect_completed {r : Reg} {set clear : Bool} (hr : writesReg i r = (set || clear)) (bit : Nat)
    (cond : Bool) (n : Int) : Completed i s (testAlterEffect s r bit cond set clear n) := by
  by_cases h : (set || clear) = true
  case pos => exact ((Updates.none).setReg r _ (hr.trans h)).goto _
  case neg =>
    obtain ⟨rfl, rfl⟩ : set = false ∧ clear = false := by simpa using h
    rw [testAlterEffect, show alterWordBit false false bit (s.reg r) = s.reg r from rfl, setReg_reg_self]
    exact (Updates.none).goto _

/-- R131: without S and C a test of E writes nothing, with one of them E. -/
theorem testAlterEEffect_completed {set clear : Bool} (he : writesE i = (set || clear)) (cond : Bool) (n : Int) :
    Completed i s (testAlterEEffect s cond set clear n) := by
  by_cases h : (set || clear) = true
  case pos => exact ((Updates.none).setE _ (he.trans h)).goto _
  case neg =>
    obtain ⟨rfl, rfl⟩ : set = false ∧ clear = false := by simpa using h
    exact (Updates.none).goto _

/-! ## The MAC group's results -/

theorem clearFour_completes : Completes i s (clearFour s s.a >>= fun t => pure t.advance) := by
  refine .bind fun t ht => .pure ?_
  obtain ⟨⟨h0, h1, h2, h3⟩, rfl⟩ := (clearFour_ok_iff s s.a t).mp ht
  exact ((((Updates.none.stored h0 _).stored h1 _).stored h2 _).stored h3 _).advance

theorem Updates.copyWord {u t : State} (h : Updates i s u) {source dest : Word} (hc : copyWord u source dest = .ok t) :
    Updates i s t := by
  obtain ⟨-, hw, rfl⟩ := (copyWord_ok_iff u source dest t).mp hc
  exact h.store _ hw

theorem Updates.copyFour {t : State} {source dest : Word} (hc : copyFour s source dest = .ok t) : Updates i s t := by
  simp only [Machine.copyFour, res_bind_ok_iff] at hc
  obtain ⟨u1, h1, u2, h2, u3, h3, h4⟩ := hc
  exact (((Updates.none.copyWord h1).copyWord h2).copyWord h3).copyWord h4

theorem Updates.setMant {u t : State} (h : Updates i s u) {base : Word} {digits : List Nibble}
    (hm : setMant u base digits = .ok t) : Updates i s t := by
  obtain ⟨hw, rfl⟩ := (setMant_ok_iff u base digits t).mp hm
  exact h.mantStored hw digits

theorem shiftRightEffect_completes (base : Word) (ha : writesReg i .A = true) (hb : writesReg i .B = true)
    (he : writesE i = true) : Completes i s (shiftRightEffect s base) := by
  unfold shiftRightEffect
  dsimp only
  split
  case isTrue => exact .refuse _
  case isFalse =>
    exact .bind fun _ _ => .bind fun _ h =>
      .pure ((((Updates.none.setMant h).setReg .A _ ha).setReg .B _ hb).setE _ he).advance

theorem shiftLeftEffect_completes (base : Word) (fill : Nibble) (ha : writesReg i .A = true) (he : writesE i = true) :
    Completes i s (shiftLeftEffect s base fill) :=
  .bind fun _ _ => .bind fun _ h => .pure (((Updates.none.setMant h).setReg .A _ ha).setE _ he).advance

theorem tensComplementEffect_completes (base : Word) (he : writesE i = true) :
    Completes i s (tensComplementEffect s base) :=
  .bind fun _ _ => .bind fun _ h => .pure (((Updates.none.setMant h).setE _ he).unlisted .A).advance

end

section
variable {s t : State}

theorem execRet_completed (h : execRet s = .next t) : Completed .ret s t := by
  refine Completes.of_outcome (.bind fun sp _ => ?_) h
  split
  case isTrue => exact .refuse _
  case isFalse =>
    refine .bind fun _ _ => .bind fun u hu => .pure ?_
    obtain ⟨hw, rfl⟩ := (memWrite_ok_iff s _ _ u).mp hu
    exact (Updates.none.store _ hw).goto _

theorem execXfr_completed (h : execXfr s = .next t) : Completed .xfr s t := by
  refine Completes.of_outcome ?_ h
  split
  case isTrue => exact .refuse _
  case isFalse => exact .bind fun _ hu => .pure (((Updates.copyFour hu).unlisted .A).unlisted .B).advance

theorem execDrs_completed (h : execDrs s = .next t) : Completed .drs s t :=
  Completes.of_outcome
    (.bind fun _ _ => .bind fun _ h => .pure (((Updates.none.setMant h).setReg .A _ rfl).setE _ rfl).advance) h

theorem execFxa_completed (h : execFxa s = .next t) : Completed .fxa s t :=
  Completes.of_outcome
    (.bind fun _ _ => .bind fun _ _ => .bind fun _ _ => .bind fun _ h =>
      .pure (((Updates.none.setMant h).setE _ rfl).unlisted .A).advance) h

theorem execFmp_completed (h : execFmp s = .next t) : Completed .fmp s t :=
  Completes.of_outcome
    (.bind fun _ _ => .bind fun _ _ => .bind fun _ _ => .bind fun _ h =>
      .pure ((((Updates.none.setMant h).setReg .A _ rfl).setE _ rfl).unlisted .B).advance) h

theorem execFdv_completed (h : execFdv s = .next t) : Completed .fdv s t := by
  refine Completes.of_outcome (.bind fun _ _ => .bind fun _ _ => .bind fun _ _ => ?_) h
  split
  case h_1 => exact .hang _
  case h_2 =>
    exact .bind fun _ h => .pure ((((Updates.none.setMant h).setReg .B _ rfl).setE _ rfl).unlisted .A).advance

theorem execMdi_completed (h : execMdi s = .next t) : Completed .mdi s t :=
  Completes.of_outcome
    (.bind fun _ _ => .bind fun _ _ => .bind fun _ h =>
      .pure (((Updates.none.setMant h).setE _ rfl).unlisted .A).advance) h

theorem execNrm_completed (h : execNrm s = .next t) : Completed .nrm s t :=
  Completes.of_outcome
    (.bind fun _ _ => .bind fun _ h => .pure (((Updates.none.setMant h).setReg .B _ rfl).setE _ rfl).advance) h

/-! ## Every instruction -/

/-- Every instruction but DMA, and EXA and EXB, which run another, ends after updates that its own tables allow. -/
theorem exec_completed {i : Instr} (ha : i ≠ .exa) (hb : i ≠ .exb) (hd : i ≠ .dma) (h : exec i s = .next t) :
    Completed i s t := by
  cases i with
  | ada ref | adaReg r i => exact completed_of_operand (addEffect_completed (r := .A) rfl rfl) h
  | adb ref | adbReg r i => exact completed_of_operand (addEffect_completed (r := .B) rfl rfl) h
  | cpa ref | cpaReg r i => exact completed_of_operand (compareEffect_completed .A) h
  | cpb ref | cpbReg r i => exact completed_of_operand (compareEffect_completed .B) h
  | lda ref | ldaReg r i => exact completed_of_operand (replacedReg_completed (r := .A) rfl) h
  | ldb ref | ldbReg r i => exact completed_of_operand (replacedReg_completed (r := .B) rfl) h
  | ior ref | and ref | iorReg r i | andReg r i =>
    exact completed_of_operand (fun _ => replacedReg_completed (r := .A) rfl _) h
  | sta ref | staReg r => exact completed_of_address (storeEffect_completes .A) h
  | stb ref | stbReg r => exact completed_of_address (storeEffect_completes .B) h
  | isz ref | dsz ref | iszReg r | dszReg r => exact completed_of_address (countEffect_completes _) h
  | jsm ref | jsmReg r => exact completed_of_address callEffect_completes h
  | jmp ref | jmpReg r => exact completed_of_address goto_completes h
  | aar n | sar n | sal n | rar n | cma | tca => exact completed_of_next (replacedReg_completed (r := .A) rfl _) h
  | abr n | sbr n | sbl n | rbr n | cmb | tcb => exact completed_of_next (replacedReg_completed (r := .B) rfl _) h
  | sza n | szb n | rza n | rzb n => exact completed_of_next (testEffect_completed _ n) h
  | sia n | ria n => exact completed_of_next (testIncrementEffect_completed (r := .A) rfl _ n) h
  | sib n | rib n => exact completed_of_next (testIncrementEffect_completed (r := .B) rfl _ n) h
  | sla n set clear | sam n set clear | sap n set clear =>
    exact completed_of_next (testAlterEffect_completed (r := .A) rfl _ _ n) h
  | slb n set clear | sbm n set clear | sbp n set clear =>
    exact completed_of_next (testAlterEffect_completed (r := .B) rfl _ _ n) h
  | ses n set clear | sec n set clear => exact completed_of_next (testAlterEEffect_completed rfl _ n) h
  | exa => exact absurd rfl ha
  | exb => exact absurd rfl hb
  | dma => exact absurd rfl hd
  | mov => exact completed_of_next ((Updates.none.setReg .A _ rfl).setE _ rfl).advance h
  | ret => exact execRet_completed h
  | clr => exact clearFour_completes.of_outcome h
  | xfr => exact execXfr_completed h
  | mrx | mry => exact (shiftRightEffect_completes _ rfl rfl rfl).of_outcome h
  | mls | dls => exact (shiftLeftEffect_completes _ _ rfl rfl).of_outcome h
  | drs => exact execDrs_completed h
  | fxa => exact execFxa_completed h
  | fmp => exact execFmp_completed h
  | fdv => exact execFdv_completed h
  | cmx | cmy => exact (tensComplementEffect_completes _ rfl).of_outcome h
  | mdi => exact execMdi_completed h
  | nrm => exact execNrm_completed h

theorem execDma_next (h : exec .dma s = .next t) : s.plat.dmaAgent = .fitted ∧ t = dmaHandOver s := by
  change execDma s = .next t at h
  unfold execDma at h
  split at h
  case h_1 => cases h
  case h_2 hf =>
    cases h
    exact ⟨hf, rfl⟩

/-- R164: whatever EXA and EXB answer, an instruction that is neither of them answers. -/
theorem executeWord_next {fuel : Nat} {w : Word} (h : executeWord fuel s w = .next t) :
    ∃ i, i ≠ .exa ∧ i ≠ .exb ∧ exec i s = .next t := by
  induction fuel generalizing w with
  | zero => cases h
  | succ fuel ih =>
    cases hd : decode s.plat w with
    | error e =>
      rw [executeWord_error hd] at h
      cases h
    | ok i =>
      by_cases ha : i = .exa
      case pos =>
        rw [executeWord_exa (ha ▸ hd)] at h
        exact ih h
      case neg =>
        by_cases hb : i = .exb
        case pos =>
          rw [executeWord_exb (hb ▸ hd)] at h
          exact ih h
        case neg =>
          rw [executeWord_ok hd ha hb] at h
          exact ⟨i, ha, hb, h⟩

/-- What any instruction can do when it answers. -/
theorem exec_next {i : Instr} (h : exec i s = .next t) : (∃ j, Completed j s t) ∨ t = dmaHandOver s := by
  obtain ⟨j, ha, hb, hj⟩ : ∃ j, j ≠ .exa ∧ j ≠ .exb ∧ exec j s = .next t := by
    by_cases ha : i = .exa
    case pos => subst ha; exact executeWord_next h
    case neg =>
      by_cases hb : i = .exb
      case pos => subst hb; exact executeWord_next h
      case neg => exact ⟨i, ha, hb, h⟩
  by_cases hd : j = .dma
  case pos =>
    subst hd
    exact .inr (execDma_next hj).2
  case neg => exact .inl ⟨j, exec_completed ha hb hd hj⟩

/-- Settles O59: the updates of an instruction write A, B and E only as its tables say, and DMA leaves all three. -/
theorem registersChangeOnlyByTheirWriters : Obligations.RegistersChangeOnlyByTheirWriters := by
  intro i s t hu ha hb h
  by_cases hd : i = .dma
  case pos =>
    subst hd
    obtain ⟨-, rfl⟩ := execDma_next h
    exact ⟨fun _ => rfl, fun _ => rfl, fun _ => rfl⟩
  case neg =>
    obtain ⟨u, nextP, hs, rfl⟩ := exec_completed ha hb hd h
    exact ⟨hs.reg hu (r := .A), hs.reg hu (r := .B), hs.e⟩

/-! ## Every step and every run -/

/-- R20: what a step can do while `dma_wait` is set. -/
theorem dmaWaiting_next (h : dmaWaiting s = .next t) :
    t = { s with freeCount := s.freeCount + 1 } ∨ ∃ r, t = dmaReleased s r := by
  unfold dmaWaiting at h
  split at h
  case h_1 => cases h
  case h_2 =>
    split at h
    case h_1 => cases h; exact .inl rfl
    case h_2 r _ => cases h; exact .inr ⟨r, rfl⟩

/-- R15, R20: all that a step can do. -/
theorem step_next (h : step s = .next t) :
    (s.dmaWait = false ∧ ∃ i, Completed i s.loadM t) ∨ (s.dmaWait = false ∧ t = dmaHandOver s.loadM) ∨
      (s.dmaWait = true ∧ t = { s with freeCount := s.freeCount + 1 }) ∨
      (s.dmaWait = true ∧ ∃ r, t = dmaReleased s r) := by
  unfold step at h
  split at h
  case isTrue hw =>
    rcases dmaWaiting_next h with hc | hr
    · exact .inr (.inr (.inl ⟨hw, hc⟩))
    · exact .inr (.inr (.inr ⟨hw, hr⟩))
  case isFalse hw =>
    have hw : s.dmaWait = false := by simpa using hw
    split at h
    case h_1 =>
      rcases exec_next h with hc | hd
      · exact .inl ⟨hw, hc⟩
      · exact .inr (.inl ⟨hw, hd⟩)
    case h_2 => cases h
    case h_3 => cases h

theorem step_plat (h : step s = .next t) : t.plat = s.plat := by
  rcases step_next h with ⟨-, i, u, nextP, hu, rfl⟩ | ⟨-, rfl⟩ | ⟨-, rfl⟩ | ⟨-, r, rfl⟩
  case inl => exact hu.plat
  all_goals rfl

theorem step_wordAt_not_rw (h : step s = .next t) {addr : Word} (ha : memKind s.plat addr.toNat ≠ .rw) :
    wordAt t addr = wordAt s addr := by
  rcases step_next h with ⟨-, i, u, nextP, hu, rfl⟩ | ⟨-, rfl⟩ | ⟨-, rfl⟩ | ⟨-, r, rfl⟩
  case inl => exact hu.wordAt_not_rw ha
  case inr.inr.inr => exact dmaStores_readWord ha r.writes s.mem
  all_goals rfl

theorem step_inv (hs : s.Inv) (h : step s = .next t) : t.Inv := by
  obtain ⟨hmem, -⟩ := hs
  rcases step_next h with ⟨-, i, u, nextP, hu, rfl⟩ | ⟨-, rfl⟩ | ⟨hwait, rfl⟩ | ⟨-, r, rfl⟩
  case inl => exact ⟨hu.mem_wf hmem, fun _ => rfl⟩
  case inr.inl => exact ⟨hmem, fun hd => absurd hd (by simp)⟩
  case inr.inr.inl => exact ⟨hmem, fun hd => absurd (hwait.symm.trans hd) (by simp)⟩
  case inr.inr.inr => exact ⟨dmaStores_wf s.plat r.writes hmem, fun _ => rfl⟩

/-- A relation of states that every step keeps and that composes holds from end to end of every run. -/
theorem run_induction {R : State → State → Prop} (refl : ∀ s, R s s)
    (trans : ∀ s t u, step s = .next t → R t u → R s u) {k : Nat} (h : Sys2Proof.core.run k s = .next t) : R s t := by
  induction k generalizing s with
  | zero =>
    cases h
    exact refl _
  | succ k ih =>
    cases hs : step s with
    | next u =>
      rw [run_next hs] at h
      exact trans s u t hs (ih h)
    | fault f =>
      rw [run_fault hs] at h
      cases h
    | refused r =>
      rw [run_refused hs] at h
      cases h

theorem run_plat {k : Nat} (h : Sys2Proof.core.run k s = .next t) : t.plat = s.plat :=
  run_induction (R := fun s t => t.plat = s.plat) (fun _ => rfl) (fun _ _ _ hs ht => ht.trans (step_plat hs)) h

/-- The two states have the same parameters, and the same word wherever MemMap is not RW. -/
def sameOutsideRw (s t : State) : Prop :=
  t.plat = s.plat ∧ ∀ addr : Word, memKind s.plat addr.toNat ≠ .rw → wordAt t addr = wordAt s addr

theorem sameOutsideRw_of_step {u : State} (h : step s = .next t) (htu : sameOutsideRw t u) : sameOutsideRw s u := by
  obtain ⟨hplat, hwords⟩ := htu
  have hst := step_plat h
  exact ⟨hplat.trans hst, fun addr ha => (hwords addr (hst ▸ ha)).trans (step_wordAt_not_rw h ha)⟩

/-- Settles O56: each of the four things a step can do keeps the invariant. -/
theorem stepKeepsInvariant : Obligations.StepKeepsInvariant := fun _ _ => step_inv

/-- Settles O57: no step changes the parameters, so no run does. -/
theorem parametersNeverChange : Obligations.ParametersNeverChange := fun _ _ _ => run_plat

/-- Settles O58: no step changes a word outside RW memory, and the parameters that say which words those are stay. -/
theorem onlyRwMemoryChanges : Obligations.OnlyRwMemoryChanges := by
  intro k s t addr _ h _ ha
  have hsame : sameOutsideRw s t :=
    run_induction (fun _ => ⟨rfl, fun _ _ => rfl⟩) (fun _ _ _ => sameOutsideRw_of_step) h
  exact hsame.2 addr ha

end

end Sys2Proof.Machine
end

section
/-! The coding table as one relation between words and instructions (30_encoding.md R51 to R59), which the encoder and the
decoder both follow; the "-" positions (R58); and the words that no row has (R62, R63, R66). -/

namespace Sys2Proof

/-! ## The table -/

/-- The coding table: the word is the one that a format's fields give the instruction. -/
inductive Coded : Word → Instr → Prop where
  | mr {op : BitVec 4} {ref : MemRef} {i : Instr} (h : memForm op.toNat ref = some i) : Coded (mrWord op ref) i
  | sr {type : BitVec 4} {r : Reg} {code : BitVec 4} {i : Instr} (h : shiftForm type.toNat r code = some i) :
      Coded (srWord r code type) i
  | zeroSkip (increment reverse : Bool) (r : Reg) {n : Int} (hn : skipOk n = true) :
      Coded (asWord r reverse n increment 0b1000#4) (zeroSkipForm increment reverse r n)
  | bitSkip {type : BitVec 4} {r : Reg} {n : Int} {s c : Bool} {i : Instr} (hn : skipOk n = true)
      (h : bitSkipForm type.toNat r n s c = some i) : Coded (asWord r s n c type) i
  | ses {n : Int} (s c : Bool) (hn : skipOk n = true) : Coded (asWord .A s n c 0b1100#4) (.ses n s c)
  | sec {n : Int} (s c : Bool) (hn : skipOk n = true) : Coded (asWord .A s n c 0b1101#4) (.sec n s c)
  | rr {op : BitVec 4} {r : Reg} {ind : Bool} {i : Instr} (h : registerForm op.toNat r ind = some (.ok i)) :
      Coded (rrWord op r ind) i

/-! ## Fields of words -/

/-- The type field, bits 3:0 of the register space's formats (R61). -/
def typeOf (w : Word) : BitVec 4 := w.extractLsb' 0 4

/-- The operation field of format MR (R51). -/
def memOpOf (w : Word) : BitVec 4 := w.extractLsb' 11 4

/-- The operation field of format RR (R55). -/
def regOpOf (w : Word) : BitVec 4 := w.extractLsb' 4 4

theorem ofBool_wordBit (w : Word) (i : Nat) : BitVec.ofBool (wordBit w i) = w.extractLsb' i 1 := by
  apply BitVec.eq_of_getLsbD_eq
  intro k hk
  obtain rfl : k = 0 := by omega
  simp [wordBit]

theorem regBit_regOf (w : Word) : regBit (regOf w) = w.extractLsb' 11 1 := by
  rw [← ofBool_wordBit, regOf]
  cases wordBit w 11 <;> rfl

theorem pageBit_memRefOf (w : Word) : pageBit (memRefOf w).page = w.extractLsb' 10 1 := by
  rw [← ofBool_wordBit, memRefOf]
  cases wordBit w 10 <;> rfl

/-- Two fields that stand side by side are one field. -/
theorem field_append {w : Word} {start mid m n : Nat} {x : BitVec m} {y : BitVec n} (hx : x = w.extractLsb' mid m)
    (hy : y = w.extractLsb' start n) (h : mid = start + n) : x ++ y = w.extractLsb' start (m + n) := by
  rw [hx, hy]
  exact BitVec.extractLsb'_append_extractLsb'_eq_extractLsb' h

theorem field_all (w : Word) : w.extractLsb' 0 16 = w := BitVec.extractLsb'_eq_self

/-- R51: a word is made of its MR fields. -/
theorem mrWord_fields (w : Word) : mrWord (memOpOf w) (memRefOf w) = w :=
  (field_append (field_append (field_append (ofBool_wordBit w 15) rfl rfl) (pageBit_memRefOf w) rfl) rfl rfl).trans
    (field_all w)

/-- The register space (R60). -/
def inRegisterSpace (w : Word) : Prop := w.extractLsb' 12 4 = 0b0111#4

section
variable {w : Word} (hs : inRegisterSpace w)
include hs

theorem registerSpace_reg : 0b0111#4 ++ regBit (regOf w) = w.extractLsb' 11 5 :=
  field_append hs.symm (regBit_regOf w) rfl

/-- R53: a word of the register space without "-" bits is made of its SR fields. -/
theorem srWord_fields (h109 : w.extractLsb' 9 2 = 0b00#2) (h4 : w.extractLsb' 4 1 = 0b0#1) :
    srWord (regOf w) (shiftCodeOf w) (typeOf w) = w :=
  (field_append (field_append (field_append (field_append (registerSpace_reg hs) h109.symm rfl) rfl rfl) h4.symm rfl) rfl
    rfl).trans (field_all w)

/-- R54, R57: a word of the register space is made of its AS fields. -/
theorem asWord_fields : asWord (regOf w) (wordBit w 10) (skipOf w) (wordBit w 4) (typeOf w) = w :=
  (field_append (field_append (field_append (field_append (registerSpace_reg hs) (ofBool_wordBit w 10) rfl)
    BitVec.ofInt_toInt rfl) (ofBool_wordBit w 4) rfl) rfl rfl).trans (field_all w)

/-- R55: a word of the register space with type 1111 and without "-" bits is made of its RR fields. -/
theorem rrWord_fields (h109 : w.extractLsb' 9 2 = 0b00#2) (ht : typeOf w = 0b1111#4) :
    rrWord (regOpOf w) (regOf w) (wordBit w 8) = w :=
  (field_append (field_append (field_append (field_append (registerSpace_reg hs) h109.symm rfl) (ofBool_wordBit w 8) rfl)
    rfl rfl) ht.symm rfl).trans (field_all w)

end

/-! ## Fields of the formats' words -/

theorem fields_mrWord (op : BitVec 4) (ref : MemRef) :
    memOpOf (mrWord op ref) = op ∧ memRefOf (mrWord op ref) = ref := by
  obtain ⟨ind, page, addr⟩ := ref
  have hop : memOpOf (mrWord op ⟨ind, page, addr⟩) = op := by
    apply BitVec.eq_of_getLsbD_eq
    intro k hk
    simp only [memOpOf, mrWord, BitVec.getLsbD_extractLsb', BitVec.getLsbD_append]
    simp [hk, show ¬ 11 + k < 10 by omega, show 11 + k - 10 = k + 1 by omega]
  have hind : wordBit (mrWord op ⟨ind, page, addr⟩) 15 = ind := by
    simp only [wordBit, mrWord, BitVec.getLsbD_append]
    simp
  have hpage : wordBit (mrWord op ⟨ind, page, addr⟩) 10 = (pageBit page).getLsbD 0 := by
    simp only [wordBit, mrWord, BitVec.getLsbD_append]
    simp
  have haddr : (mrWord op ⟨ind, page, addr⟩).extractLsb' 0 10 = addr := by
    apply BitVec.eq_of_getLsbD_eq
    intro k hk
    simp only [mrWord, BitVec.getLsbD_extractLsb', BitVec.getLsbD_append]
    simp [hk]
  rw [memRefOf, hind, hpage, haddr]
  cases page <;> exact ⟨hop, rfl⟩

theorem fields_srWord (r : Reg) (code type : BitVec 4) :
    inRegisterSpace (srWord r code type) ∧ typeOf (srWord r code type) = type ∧ regOf (srWord r code type) = r ∧
      shiftCodeOf (srWord r code type) = code ∧ wordBit (srWord r code type) 10 = false ∧
      wordBit (srWord r code type) 9 = false ∧ wordBit (srWord r code type) 4 = false := by
  unfold inRegisterSpace
  cases r <;> revert code type <;> decide

/-- R57: a distance in range is the two's-complement value of its five bits. -/
theorem toInt_of_skipOk {n : Int} (hn : skipOk n = true) : (BitVec.ofInt 5 n).toInt = n := by
  simp only [skipOk, Bool.and_eq_true, decide_eq_true_eq] at hn
  rw [BitVec.toInt_ofInt]
  exact Int.bmod_eq_of_le (by omega) (by omega)

theorem skipOk_skipOf (w : Word) : skipOk (skipOf w) = true := by
  have h : ∀ d : BitVec 5, skipOk d.toInt = true := by decide
  exact h _

theorem fields_asWord (r : Reg) (s : Bool) {n : Int} (hn : skipOk n = true) (c : Bool) (type : BitVec 4) :
    inRegisterSpace (asWord r s n c type) ∧ typeOf (asWord r s n c type) = type ∧ regOf (asWord r s n c type) = r ∧
      wordBit (asWord r s n c type) 10 = s ∧ skipOf (asWord r s n c type) = n ∧ wordBit (asWord r s n c type) 4 = c := by
  have hspace : inRegisterSpace (asWord r s n c type) := by
    unfold inRegisterSpace asWord
    rw [BitVec.extractLsb'_append_eq_of_le (by decide), BitVec.extractLsb'_append_eq_of_le (by decide),
      BitVec.extractLsb'_append_eq_of_le (by decide), BitVec.extractLsb'_append_eq_of_le (by decide)]
    exact BitVec.extractLsb'_append_eq_left
  have hreg : wordBit (asWord r s n c type) 11 = (regBit r).getLsbD 0 := by
    simp only [wordBit, asWord, BitVec.getLsbD_append]
    simp
  have hs : wordBit (asWord r s n c type) 10 = s := by
    simp only [wordBit, asWord, BitVec.getLsbD_append]
    simp
  have hskip : (asWord r s n c type).extractLsb' 5 5 = BitVec.ofInt 5 n := by
    unfold asWord
    rw [BitVec.extractLsb'_append_eq_of_le (by decide), BitVec.extractLsb'_append_eq_of_le (by decide)]
    exact BitVec.extractLsb'_append_eq_right
  have hc : wordBit (asWord r s n c type) 4 = c := by
    simp only [wordBit, asWord, BitVec.getLsbD_append]
    simp
  refine ⟨hspace, BitVec.extractLsb'_append_eq_right, ?_, hs, ?_, hc⟩
  · rw [regOf, hreg]
    cases r <;> rfl
  · rw [skipOf, hskip, toInt_of_skipOk hn]

theorem fields_rrWord (op : BitVec 4) (r : Reg) (ind : Bool) :
    inRegisterSpace (rrWord op r ind) ∧ typeOf (rrWord op r ind) = 0b1111#4 ∧ regOf (rrWord op r ind) = r ∧
      regOpOf (rrWord op r ind) = op ∧ wordBit (rrWord op r ind) 8 = ind ∧ wordBit (rrWord op r ind) 10 = false ∧
      wordBit (rrWord op r ind) 9 = false := by
  unfold inRegisterSpace
  cases r <;> cases ind <;> revert op <;> decide

end Sys2Proof
end

section
/-! The decoder, branch by branch (30_encoding.md R60): which words reach which branch, and what each branch answers. -/

namespace Sys2Proof

/-! ## The forms -/

/-- R59: the operations 0000 to 1101 are the memory forms. -/
theorem memForm_isSome_iff (op : Nat) (ref : MemRef) : (memForm op ref).isSome = true ↔ op < 14 := by
  match op with
  | 0 | 1 | 2 | 3 | 4 | 5 | 6 | 7 | 8 | 9 | 10 | 11 | 12 | 13 => simp [memForm]
  | n + 14 => simp [memForm]

theorem shiftForm_isSome_iff (type : Nat) (r : Reg) (code : BitVec 4) :
    (shiftForm type r code).isSome = true ↔ type = 0 ∨ type = 2 ∨ type = 4 ∨ type = 6 := by
  constructor
  · intro h
    unfold shiftForm at h
    split at h
    case h_9 => cases h
    all_goals simp
  · rintro (rfl | rfl | rfl | rfl) <;> cases r <;> rfl

theorem bitSkipForm_isSome_iff (type : Nat) (r : Reg) (n : Int) (s c : Bool) :
    (bitSkipForm type r n s c).isSome = true ↔ type = 9 ∨ type = 10 ∨ type = 11 := by
  constructor
  · intro h
    unfold bitSkipForm at h
    split at h
    case h_7 => cases h
    all_goals simp
  · rintro (rfl | rfl | rfl) <;> cases r <;> rfl

/-- R55: the operations 0000 to 1101 are the register forms. -/
theorem registerForm_isSome_iff (op : Nat) (r : Reg) (ind : Bool) : (registerForm op r ind).isSome = true ↔ op < 14 := by
  match op with
  | 0 | 1 | 2 | 3 | 4 | 5 | 6 | 7 | 8 | 9 | 10 | 11 | 12 | 13 => simp [registerForm]
  | n + 14 => simp [registerForm]

/-! ## Bits 15:12 -/

theorem low_of_space (w : Word) : w.extractLsb' 12 3 = (w.extractLsb' 12 4).extractLsb' 0 3 := by
  apply BitVec.eq_of_getLsbD_eq
  intro k hk
  simp only [BitVec.getLsbD_extractLsb']
  simp [hk, show k < 4 by omega]

theorem bit15_of_space (w : Word) : wordBit w 15 = (w.extractLsb' 12 4).getLsbD 3 := by
  simp only [wordBit, BitVec.getLsbD_extractLsb']
  simp

theorem low_of_memOp (w : Word) : w.extractLsb' 12 3 = (memOpOf w).extractLsb' 1 3 := by
  apply BitVec.eq_of_getLsbD_eq
  intro k hk
  simp only [memOpOf, BitVec.getLsbD_extractLsb']
  simp [hk, show 1 + k < 4 by omega, show 11 + (1 + k) = 12 + k by omega]

/-- R60: what bits 15:12 say of the format. -/
theorem space_cases (w : Word) : (memOpOf w).toNat < 14 ∨ inRegisterSpace w ∨ w.extractLsb' 12 4 = 0b1111#4 := by
  have hop : ∀ op : BitVec 4, op.extractLsb' 1 3 ≠ 0b111#3 → op.toNat < 14 := by decide
  have hsp : ∀ t : BitVec 4, t.extractLsb' 0 3 = 0b111#3 → t = 0b0111#4 ∨ t = 0b1111#4 := by decide
  by_cases h : w.extractLsb' 12 3 = 0b111#3
  case pos => exact .inr (hsp _ (low_of_space w ▸ h))
  case neg => exact .inl (hop _ (low_of_memOp w ▸ h))

section
variable {plat : Config.Platform} {w : Word}

/-- R60: a word with a memory operation is its memory form. -/
theorem decode_memory {i : Instr} (h : memForm (memOpOf w).toNat (memRefOf w) = some i) : decode plat w = .ok i := by
  have hop : ∀ op : BitVec 4, op.toNat < 14 → op.extractLsb' 1 3 ≠ 0b111#3 := by decide
  have hlt := (memForm_isSome_iff _ _).mp (Option.isSome_of_eq_some h)
  rw [decode, if_neg (low_of_memOp w ▸ hop _ hlt)]
  change (match memForm (memOpOf w).toNat (memRefOf w) with | some i => Except.ok i | none => _) = _
  rw [h]

theorem decode_high (h : w.extractLsb' 12 4 = 0b1111#4) : decode plat w = decodeUnassigned plat w := by
  rw [decode, if_pos (by rw [low_of_space, h]; rfl), if_pos (by rw [bit15_of_space, h]; rfl)]

theorem decode_registerSpace (hs : inRegisterSpace w) : decode plat w = decodeRegisterSpace plat w := by
  rw [decode, if_pos (by rw [low_of_space, hs]; rfl), if_neg (by rw [bit15_of_space, hs]; decide)]

/-! ## The register space, by its type -/

theorem decode_shift (hs : inRegisterSpace w) {i : Instr}
    (h : shiftForm (typeOf w).toNat (regOf w) (shiftCodeOf w) = some i) :
    decode plat w =
      if dashRefused plat (wordBit w 10 || wordBit w 9 || wordBit w 4) then .error .dashBit else .ok i := by
  have ht := (shiftForm_isSome_iff _ _ _).mp (Option.isSome_of_eq_some h)
  unfold typeOf at h ht
  rw [decode_registerSpace hs]
  rcases ht with ht | ht | ht | ht <;> rw [ht] at h <;> simp [decodeRegisterSpace, ht, h]

theorem decode_zeroSkip (hs : inRegisterSpace w) (ht : typeOf w = 0b1000#4) :
    decode plat w = .ok (zeroSkipForm (wordBit w 4) (wordBit w 10) (regOf w) (skipOf w)) := by
  unfold typeOf at ht
  simp [decode_registerSpace hs, decodeRegisterSpace, ht]

theorem decode_bitSkip (hs : inRegisterSpace w) {i : Instr}
    (h : bitSkipForm (typeOf w).toNat (regOf w) (skipOf w) (wordBit w 10) (wordBit w 4) = some i) :
    decode plat w = .ok i := by
  have ht := (bitSkipForm_isSome_iff _ _ _ _ _).mp (Option.isSome_of_eq_some h)
  unfold typeOf at h ht
  rw [decode_registerSpace hs]
  rcases ht with ht | ht | ht <;> rw [ht] at h <;> simp [decodeRegisterSpace, ht, h]

theorem decode_ses (hs : inRegisterSpace w) (ht : typeOf w = 0b1100#4) :
    decode plat w = if dashRefused plat (wordBit w 11) then .error .dashBit
      else .ok (.ses (skipOf w) (wordBit w 10) (wordBit w 4)) := by
  unfold typeOf at ht
  simp [decode_registerSpace hs, decodeRegisterSpace, ht]

theorem decode_sec (hs : inRegisterSpace w) (ht : typeOf w = 0b1101#4) :
    decode plat w = if dashRefused plat (wordBit w 11) then .error .dashBit
      else .ok (.sec (skipOf w) (wordBit w 10) (wordBit w 4)) := by
  unfold typeOf at ht
  simp [decode_registerSpace hs, decodeRegisterSpace, ht]

theorem decode_register (hs : inRegisterSpace w) (ht : typeOf w = 0b1111#4) {result : Except DecodeError Instr}
    (h : registerForm (regOpOf w).toNat (regOf w) (wordBit w 8) = some result) :
    decode plat w = if dashRefused plat (wordBit w 10 || wordBit w 9) then .error .dashBit else result := by
  unfold typeOf at ht
  unfold regOpOf at h
  simp [decode_registerSpace hs, decodeRegisterSpace, ht, h, -BitVec.extractLsb'_toNat]

theorem decode_register_unassigned (hs : inRegisterSpace w) (ht : typeOf w = 0b1111#4) (h : 14 ≤ (regOpOf w).toNat) :
    decode plat w = if dashRefused plat (wordBit w 10 || wordBit w 9) then .error .dashBit
      else decodeUnassigned plat (withoutRegisterDashes w) := by
  have hn : registerForm (w.extractLsb' 4 4).toNat (regOf w) (wordBit w 8) = none := by
    rw [← Option.not_isSome_iff_eq_none, registerForm_isSome_iff]
    exact Nat.not_lt.mpr h
  unfold typeOf at ht
  simp [decode_registerSpace hs, decodeRegisterSpace, ht, hn, -BitVec.extractLsb'_toNat]

/-- R62: the types that no format has. -/
def unassignedTypes : List (BitVec 4) := [0b0001#4, 0b0011#4, 0b0101#4, 0b0111#4, 0b1110#4]

theorem decode_unassignedType (hs : inRegisterSpace w) (ht : typeOf w ∈ unassignedTypes) :
    decode plat w = decodeUnassigned plat w := by
  simp only [unassignedTypes, List.mem_cons, List.not_mem_nil, or_false] at ht
  unfold typeOf at ht
  rw [decode_registerSpace hs]
  rcases ht with ht | ht | ht | ht | ht <;> simp [decodeRegisterSpace, ht]

end

/-- R61: the five kinds of type. -/
theorem type_cases (w : Word) :
    (∃ i, shiftForm (typeOf w).toNat (regOf w) (shiftCodeOf w) = some i) ∨ typeOf w = 0b1000#4 ∨
      (∃ i, bitSkipForm (typeOf w).toNat (regOf w) (skipOf w) (wordBit w 10) (wordBit w 4) = some i) ∨
      typeOf w = 0b1100#4 ∨ typeOf w = 0b1101#4 ∨ typeOf w = 0b1111#4 ∨ typeOf w ∈ unassignedTypes := by
  simp only [← Option.isSome_iff_exists, shiftForm_isSome_iff, bitSkipForm_isSome_iff]
  generalize typeOf w = t
  revert t
  decide

end Sys2Proof
end

section
/-! The coding table and the encoder; the "-" positions masked out; and what a word without "-" bits can be. -/

namespace Sys2Proof

/-! ## The encoder on the coding table -/

theorem shiftCode_toNat {n : Nat} (h : shiftCountOk n = true) : (shiftCode n).toNat + 1 = n := by
  simp only [shiftCountOk, Bool.and_eq_true, decide_eq_true_eq] at h
  simp only [shiftCode, BitVec.toNat_ofNat]
  omega

theorem shiftCodeLeft_toNat {n : Nat} (h : shiftCountOk n = true) : 16 - (shiftCodeLeft n).toNat = n := by
  simp only [shiftCountOk, Bool.and_eq_true, decide_eq_true_eq] at h
  simp only [shiftCodeLeft, BitVec.toNat_ofNat]
  omega

/-- R56: the counts that a code stands for are in range, and give the code back. -/
theorem shiftCode_of_code (code : BitVec 4) :
    shiftCountOk (code.toNat + 1) = true ∧ shiftCode (code.toNat + 1) = code ∧ shiftCountOk (16 - code.toNat) = true ∧
      shiftCodeLeft (16 - code.toNat) = code := by
  revert code
  decide

/-- The coding table gives the instruction this word, on every platform. -/
def EncodedAs (i : Instr) (w : Word) : Prop :=
  i.wf = true ∧ i.unencoded? = none ∧ ∀ plat, encode plat i = some w

theorem ofNat_of_toNat {x : BitVec 4} {n : Nat} (h : x.toNat = n) : x = BitVec.ofNat 4 n := by
  subst h
  simp

theorem encoded_memForm {op : BitVec 4} {ref : MemRef} {i : Instr} (h : memForm op.toNat ref = some i) :
    EncodedAs i (mrWord op ref) := by
  generalize hn : op.toNat = n at h
  rw [ofNat_of_toNat hn]
  unfold memForm at h
  split at h
  case h_15 => cases h
  all_goals cases h; exact ⟨rfl, rfl, fun _ => rfl⟩

theorem encoded_shiftForm {type : BitVec 4} {r : Reg} {code : BitVec 4} {i : Instr}
    (h : shiftForm type.toNat r code = some i) : EncodedAs i (srWord r code type) := by
  obtain ⟨hr, hrcode, hl, hlcode⟩ := shiftCode_of_code code
  generalize hn : type.toNat = n at h
  rw [ofNat_of_toNat hn]
  unfold shiftForm at h
  split at h
  case h_9 => cases h
  case h_5 | h_6 =>
    cases h
    refine ⟨hl, rfl, fun _ => ?_⟩
    rw [encode, hlcode]
  all_goals
    cases h
    refine ⟨hr, rfl, fun _ => ?_⟩
    rw [encode, hrcode]

theorem encoded_bitSkipForm {type : BitVec 4} {r : Reg} {n : Int} {s c : Bool} {i : Instr} (hn : skipOk n = true)
    (h : bitSkipForm type.toNat r n s c = some i) : EncodedAs i (asWord r s n c type) := by
  generalize ht : type.toNat = t at h
  rw [ofNat_of_toNat ht]
  unfold bitSkipForm at h
  split at h
  case h_7 => cases h
  all_goals cases h; exact ⟨hn, rfl, fun _ => rfl⟩

theorem encoded_registerForm {op : BitVec 4} {r : Reg} {ind : Bool} {i : Instr}
    (h : registerForm op.toNat r ind = some (.ok i)) : EncodedAs i (rrWord op r ind) := by
  generalize hn : op.toNat = n at h
  rw [ofNat_of_toNat hn]
  unfold registerForm at h
  split at h
  case h_15 => cases h
  all_goals cases ind <;> cases h <;> exact ⟨rfl, rfl, fun _ => rfl⟩

theorem encoded_of_coded {w : Word} {i : Instr} (h : Coded w i) : EncodedAs i w := by
  cases h with
  | mr h => exact encoded_memForm h
  | sr h => exact encoded_shiftForm h
  | zeroSkip increment reverse r hn =>
    cases increment <;> cases reverse <;> cases r <;> exact ⟨hn, rfl, fun _ => rfl⟩
  | bitSkip hn h => exact encoded_bitSkipForm hn h
  | ses s c hn => exact ⟨hn, rfl, fun _ => rfl⟩
  | sec s c hn => exact ⟨hn, rfl, fun _ => rfl⟩
  | rr h => exact encoded_registerForm h

/-- Every well-formed instruction of the coding table has a word there. -/
theorem coded_of_wf {i : Instr} (hwf : i.wf = true) (hu : i.unencoded? = none) : ∃ w, Coded w i := by
  cases i with
  | ada ref => exact ⟨_, .mr (op := 0b0000#4) rfl⟩
  | adb ref => exact ⟨_, .mr (op := 0b0001#4) rfl⟩
  | cpa ref => exact ⟨_, .mr (op := 0b0010#4) rfl⟩
  | cpb ref => exact ⟨_, .mr (op := 0b0011#4) rfl⟩
  | lda ref => exact ⟨_, .mr (op := 0b0100#4) rfl⟩
  | ldb ref => exact ⟨_, .mr (op := 0b0101#4) rfl⟩
  | sta ref => exact ⟨_, .mr (op := 0b0110#4) rfl⟩
  | stb ref => exact ⟨_, .mr (op := 0b0111#4) rfl⟩
  | ior ref => exact ⟨_, .mr (op := 0b1000#4) rfl⟩
  | isz ref => exact ⟨_, .mr (op := 0b1001#4) rfl⟩
  | and ref => exact ⟨_, .mr (op := 0b1010#4) rfl⟩
  | dsz ref => exact ⟨_, .mr (op := 0b1011#4) rfl⟩
  | jsm ref => exact ⟨_, .mr (op := 0b1100#4) rfl⟩
  | jmp ref => exact ⟨_, .mr (op := 0b1101#4) rfl⟩
  | aar n => exact ⟨_, .sr (type := 0b0000#4) (r := .A) (congrArg (some ∘ Instr.aar) (shiftCode_toNat hwf))⟩
  | abr n => exact ⟨_, .sr (type := 0b0000#4) (r := .B) (congrArg (some ∘ Instr.abr) (shiftCode_toNat hwf))⟩
  | sar n => exact ⟨_, .sr (type := 0b0010#4) (r := .A) (congrArg (some ∘ Instr.sar) (shiftCode_toNat hwf))⟩
  | sbr n => exact ⟨_, .sr (type := 0b0010#4) (r := .B) (congrArg (some ∘ Instr.sbr) (shiftCode_toNat hwf))⟩
  | sal n => exact ⟨_, .sr (type := 0b0100#4) (r := .A) (congrArg (some ∘ Instr.sal) (shiftCodeLeft_toNat hwf))⟩
  | sbl n => exact ⟨_, .sr (type := 0b0100#4) (r := .B) (congrArg (some ∘ Instr.sbl) (shiftCodeLeft_toNat hwf))⟩
  | rar n => exact ⟨_, .sr (type := 0b0110#4) (r := .A) (congrArg (some ∘ Instr.rar) (shiftCode_toNat hwf))⟩
  | rbr n => exact ⟨_, .sr (type := 0b0110#4) (r := .B) (congrArg (some ∘ Instr.rbr) (shiftCode_toNat hwf))⟩
  | sza n => exact ⟨_, .zeroSkip false false .A hwf⟩
  | szb n => exact ⟨_, .zeroSkip false false .B hwf⟩
  | rza n => exact ⟨_, .zeroSkip false true .A hwf⟩
  | rzb n => exact ⟨_, .zeroSkip false true .B hwf⟩
  | sia n => exact ⟨_, .zeroSkip true false .A hwf⟩
  | sib n => exact ⟨_, .zeroSkip true false .B hwf⟩
  | ria n => exact ⟨_, .zeroSkip true true .A hwf⟩
  | rib n => exact ⟨_, .zeroSkip true true .B hwf⟩
  | sla n s c => exact ⟨_, .bitSkip (type := 0b1001#4) (r := .A) hwf rfl⟩
  | slb n s c => exact ⟨_, .bitSkip (type := 0b1001#4) (r := .B) hwf rfl⟩
  | sam n s c => exact ⟨_, .bitSkip (type := 0b1010#4) (r := .A) hwf rfl⟩
  | sbm n s c => exact ⟨_, .bitSkip (type := 0b1010#4) (r := .B) hwf rfl⟩
  | sap n s c => exact ⟨_, .bitSkip (type := 0b1011#4) (r := .A) hwf rfl⟩
  | sbp n s c => exact ⟨_, .bitSkip (type := 0b1011#4) (r := .B) hwf rfl⟩
  | ses n s c => exact ⟨_, .ses s c hwf⟩
  | sec n s c => exact ⟨_, .sec s c hwf⟩
  | adaReg r i => exact ⟨_, .rr (op := 0b0000#4) rfl⟩
  | adbReg r i => exact ⟨_, .rr (op := 0b0001#4) rfl⟩
  | cpaReg r i => exact ⟨_, .rr (op := 0b0010#4) rfl⟩
  | cpbReg r i => exact ⟨_, .rr (op := 0b0011#4) rfl⟩
  | ldaReg r i => exact ⟨_, .rr (op := 0b0100#4) rfl⟩
  | ldbReg r i => exact ⟨_, .rr (op := 0b0101#4) rfl⟩
  | staReg r => exact ⟨_, .rr (op := 0b0110#4) (ind := true) rfl⟩
  | stbReg r => exact ⟨_, .rr (op := 0b0111#4) (ind := true) rfl⟩
  | iorReg r i => exact ⟨_, .rr (op := 0b1000#4) rfl⟩
  | iszReg r => exact ⟨_, .rr (op := 0b1001#4) (ind := true) rfl⟩
  | andReg r i => exact ⟨_, .rr (op := 0b1010#4) rfl⟩
  | dszReg r => exact ⟨_, .rr (op := 0b1011#4) (ind := true) rfl⟩
  | jsmReg r => exact ⟨_, .rr (op := 0b1100#4) (ind := true) rfl⟩
  | jmpReg r => exact ⟨_, .rr (op := 0b1101#4) (ind := true) rfl⟩
  | _ => cases hu

/-! ## The decoder on the coding table -/

theorem bit11_of_regOf_A {w : Word} (h : regOf w = .A) : wordBit w 11 = false := by
  cases hb : wordBit w 11 with
  | false => rfl
  | true =>
    rw [regOf, hb] at h
    cases h

/-- R55, R63: the word of a register form, the restricted ones included. -/
theorem decode_rrWord {op : BitVec 4} {r : Reg} {ind : Bool} {result : Except DecodeError Instr}
    (h : registerForm op.toNat r ind = some result) (plat : Config.Platform) : decode plat (rrWord op r ind) = result := by
  obtain ⟨hs, htype, hr, hop, h8, h10, h9⟩ := fields_rrWord op r ind
  rw [decode_register (result := result) hs htype (by rw [hr, hop, h8]; exact h), h10, h9]
  rfl

/-- The decoder reads the table's word as its instruction, on every platform. -/
theorem decode_of_coded {w : Word} {i : Instr} (h : Coded w i) (plat : Config.Platform) : decode plat w = .ok i := by
  cases h with
  | @mr op ref i h =>
    obtain ⟨hop, href⟩ := fields_mrWord op ref
    exact decode_memory (by rw [hop, href]; exact h)
  | @sr type r code i h =>
    obtain ⟨hs, htype, hr, hcode, h10, h9, h4⟩ := fields_srWord r code type
    rw [decode_shift (i := i) hs (by rw [htype, hr, hcode]; exact h), h10, h9, h4]
    rfl
  | @zeroSkip increment reverse r n hn =>
    obtain ⟨hs, htype, hr, h10, hskip, h4⟩ := fields_asWord r reverse hn increment 0b1000#4
    rw [decode_zeroSkip hs htype, hr, h10, hskip, h4]
  | @bitSkip type r n s c i hn h =>
    obtain ⟨hs, htype, hr, h10, hskip, h4⟩ := fields_asWord r s hn c type
    exact decode_bitSkip hs (by rw [htype, hr, h10, hskip, h4]; exact h)
  | @ses n s c hn =>
    obtain ⟨hs, htype, hr, h10, hskip, h4⟩ := fields_asWord .A s hn c 0b1100#4
    rw [decode_ses hs htype, bit11_of_regOf_A hr, h10, hskip, h4]
    rfl
  | @sec n s c hn =>
    obtain ⟨hs, htype, hr, h10, hskip, h4⟩ := fields_asWord .A s hn c 0b1101#4
    rw [decode_sec hs htype, bit11_of_regOf_A hr, h10, hskip, h4]
    rfl
  | @rr op r ind i h => exact decode_rrWord h plat

end Sys2Proof
end

section
/-! The "-" positions (30_encoding.md R58): what masking them out leaves alone, and that the decoder sees them only to
refuse a word. -/

namespace Sys2Proof.Machine

/-! ## Masks and fields -/

theorem field_and_of_ones {m : Word} {start len : Nat} (h : m.extractLsb' start len = BitVec.allOnes len) (w : Word) :
    (w &&& m).extractLsb' start len = w.extractLsb' start len := by
  rw [BitVec.extractLsb'_and, h, BitVec.and_allOnes]

theorem wordBit_and (w m : Word) (k : Nat) : wordBit (w &&& m) k = (wordBit w k && wordBit m k) := BitVec.getLsbD_and

/-- A mask with ones at the listed bits only takes a word to zero exactly when the word has no one there. -/
theorem and_eq_zero_iff_bits {m : Word} {bits : List Nat}
    (hm : ∀ k, k < 16 → (wordBit m k = true ↔ k ∈ bits)) (hb : ∀ k ∈ bits, k < 16) (w : Word) :
    w &&& m = 0#16 ↔ ∀ k ∈ bits, wordBit w k = false := by
  constructor
  · intro h k hk
    have hbit : wordBit (w &&& m) k = false := by rw [h]; exact BitVec.getLsbD_zero
    rwa [wordBit_and, (hm k (hb k hk)).mpr hk, Bool.and_true] at hbit
  · intro h
    apply BitVec.eq_of_getLsbD_eq
    intro k hk
    change wordBit (w &&& m) k = wordBit 0#16 k
    rw [wordBit_and, show wordBit 0#16 k = false from BitVec.getLsbD_zero]
    by_cases hmk : k ∈ bits
    case pos => rw [h k hmk, Bool.false_and]
    case neg => rw [Bool.eq_false_iff.mpr (mt (hm k hk).mp hmk), Bool.and_false]

theorem and_ne_zero_eq_any {m : Word} {bits : List Nat}
    (hm : ∀ k, k < 16 → (wordBit m k = true ↔ k ∈ bits)) (hb : ∀ k ∈ bits, k < 16) (w : Word) :
    (w &&& m != 0#16) = bits.any (wordBit w) := by
  cases hany : bits.any (wordBit w) with
  | false =>
    rw [bne_eq_false_iff_eq, and_eq_zero_iff_bits hm hb]
    exact fun k hk => Bool.eq_false_iff.mpr (List.any_eq_false.mp hany k hk)
  | true =>
    obtain ⟨k, hk, hbit⟩ := List.any_eq_true.mp hany
    rw [bne_iff_ne]
    intro hzero
    rw [(and_eq_zero_iff_bits hm hb w).mp hzero k hk] at hbit
    cases hbit

/-- R53: the "-" bits of a shift-rotate. -/
theorem shiftDashes (w : Word) :
    (w &&& 0x0610#16 != 0#16) = (wordBit w 10 || wordBit w 9 || wordBit w 4) := by
  rw [and_ne_zero_eq_any (bits := [10, 9, 4]) (by decide) (by decide), List.any_cons, List.any_cons, List.any_cons,
    List.any_nil, Bool.or_false, Bool.or_assoc]

/-- R54: the "-" bit of SES and SEC. -/
theorem carryDashes (w : Word) : (w &&& 0x0800#16 != 0#16) = wordBit w 11 := by
  rw [and_ne_zero_eq_any (bits := [11]) (by decide) (by decide), List.any_cons, List.any_nil, Bool.or_false]

/-- R55: the "-" bits of a register reference. -/
theorem registerDashes (w : Word) : (w &&& 0x0600#16 != 0#16) = (wordBit w 10 || wordBit w 9) := by
  rw [and_ne_zero_eq_any (bits := [10, 9]) (by decide) (by decide), List.any_cons, List.any_cons, List.any_nil,
    Bool.or_false]

/-! ## The positions of a word's format -/

/-- The word with its "-" positions cleared. -/
def undashed (w : Word) : Word := w &&& ~~~ dashPositions w

section
variable {w : Word}

theorem dashPositions_of_not_registerSpace (h : ¬ inRegisterSpace w) : dashPositions w = 0#16 := if_neg h

theorem dashPositions_shift (hs : inRegisterSpace w) {i : Instr}
    (h : shiftForm (typeOf w).toNat (regOf w) (shiftCodeOf w) = some i) : dashPositions w = 0x0610#16 := by
  have ht := (shiftForm_isSome_iff _ _ _).mp (Option.isSome_of_eq_some h)
  unfold typeOf at ht
  unfold inRegisterSpace at hs
  rcases ht with ht | ht | ht | ht <;> simp [dashPositions, hs, ht]

theorem dashPositions_carry (hs : inRegisterSpace w) (ht : typeOf w = 0b1100#4 ∨ typeOf w = 0b1101#4) :
    dashPositions w = 0x0800#16 := by
  unfold typeOf at ht
  unfold inRegisterSpace at hs
  rcases ht with ht | ht <;> simp [dashPositions, hs, ht]

theorem dashPositions_register (hs : inRegisterSpace w) (ht : typeOf w = 0b1111#4) : dashPositions w = 0x0600#16 := by
  unfold typeOf at ht
  unfold inRegisterSpace at hs
  simp [dashPositions, hs, ht]

/-- The types with no "-" position. -/
def plainTypes : List (BitVec 4) :=
  [0b0001#4, 0b0011#4, 0b0101#4, 0b0111#4, 0b1000#4, 0b1001#4, 0b1010#4, 0b1011#4, 0b1110#4]

theorem dashPositions_plain (hs : inRegisterSpace w) (ht : typeOf w ∈ plainTypes) : dashPositions w = 0#16 := by
  simp only [plainTypes, List.mem_cons, List.not_mem_nil, or_false] at ht
  unfold typeOf at ht
  unfold inRegisterSpace at hs
  rcases ht with ht | ht | ht | ht | ht | ht | ht | ht | ht <;> simp [dashPositions, hs, ht]

end

/-- R58: a word has no "-" position, or those of a shift-rotate, of SES and SEC, or of a register reference. -/
theorem dash_cases (w : Word) :
    dashPositions w = 0#16 ∨
    (inRegisterSpace w ∧ dashPositions w = 0x0610#16 ∧
      ∃ i, shiftForm (typeOf w).toNat (regOf w) (shiftCodeOf w) = some i) ∨
    (inRegisterSpace w ∧ dashPositions w = 0x0800#16 ∧ (typeOf w = 0b1100#4 ∨ typeOf w = 0b1101#4)) ∨
    (inRegisterSpace w ∧ dashPositions w = 0x0600#16 ∧ typeOf w = 0b1111#4) := by
  by_cases hs : inRegisterSpace w
  case neg => exact .inl (dashPositions_of_not_registerSpace hs)
  case pos =>
    have hplain : ∀ t : BitVec 4, t = 0b1000#4 ∨ (t.toNat = 9 ∨ t.toNat = 10 ∨ t.toNat = 11) ∨ t ∈ unassignedTypes →
        t ∈ plainTypes := by decide
    rcases type_cases w with ⟨i, h⟩ | ht | ⟨i, h⟩ | ht | ht | ht | ht
    · exact .inr (.inl ⟨hs, dashPositions_shift hs h, i, h⟩)
    · exact .inl (dashPositions_plain hs (hplain _ (.inl ht)))
    · have ht := (bitSkipForm_isSome_iff _ _ _ _ _).mp (Option.isSome_of_eq_some h)
      exact .inl (dashPositions_plain hs (hplain _ (.inr (.inl ht))))
    · exact .inr (.inr (.inl ⟨hs, dashPositions_carry hs (.inl ht), .inl ht⟩))
    · exact .inr (.inr (.inl ⟨hs, dashPositions_carry hs (.inr ht), .inr ht⟩))
    · exact .inr (.inr (.inr ⟨hs, dashPositions_register hs ht, ht⟩))
    · exact .inl (dashPositions_plain hs (hplain _ (.inr (.inr ht))))

/-- The positions lie beside bits 15:12 and 3:0, which decide them. -/
theorem fields_undashed (w : Word) :
    (undashed w).extractLsb' 12 4 = w.extractLsb' 12 4 ∧ typeOf (undashed w) = typeOf w := by
  have hm : (~~~ dashPositions w).extractLsb' 12 4 = BitVec.allOnes 4 ∧
      (~~~ dashPositions w).extractLsb' 0 4 = BitVec.allOnes 4 := by
    rcases dash_cases w with h | ⟨-, h, -⟩ | ⟨-, h, -⟩ | ⟨-, h, -⟩ <;> rw [h] <;> decide
  exact ⟨field_and_of_ones hm.1 w, field_and_of_ones hm.2 w⟩

theorem inRegisterSpace_undashed (w : Word) : inRegisterSpace (undashed w) ↔ inRegisterSpace w := by
  unfold inRegisterSpace
  rw [(fields_undashed w).1]

theorem dashPositions_undashed (w : Word) : dashPositions (undashed w) = dashPositions w := by
  obtain ⟨hspace, htype⟩ := fields_undashed w
  unfold typeOf at htype
  simp only [dashPositions, hspace, htype]

theorem undashed_clean (w : Word) : undashed w &&& dashPositions (undashed w) = 0#16 := by
  rw [dashPositions_undashed, undashed, BitVec.and_assoc, BitVec.not_and_self]
  exact BitVec.and_zero

theorem undashed_of_clean {w : Word} (h : w &&& dashPositions w = 0#16) : undashed w = w := by
  have hsplit : w &&& (dashPositions w ||| ~~~ dashPositions w) = w := by
    rw [BitVec.or_not_self, BitVec.and_allOnes]
  rw [BitVec.and_or_distrib_left, h, BitVec.zero_or] at hsplit
  exact hsplit

/-! ## The decoder and the positions -/

section
variable {plat : Config.Platform} {w : Word}

/-- A bit beside the positions stays. -/
theorem wordBit_undashed {m : Word} (hd : dashPositions w = m) {k : Nat} (hk : wordBit (~~~ m) k = true) :
    wordBit (undashed w) k = wordBit w k := by
  rw [undashed, hd, wordBit_and, hk, Bool.and_true]

theorem regOf_undashed {m : Word} (hd : dashPositions w = m) (hk : wordBit (~~~ m) 11 = true) :
    regOf (undashed w) = regOf w := by
  rw [regOf, wordBit_undashed hd hk, regOf]

/-- A field beside the positions stays. -/
theorem field_undashed {m : Word} (hd : dashPositions w = m) {start len : Nat}
    (h : (~~~ m).extractLsb' start len = BitVec.allOnes len) :
    (undashed w).extractLsb' start len = w.extractLsb' start len := by
  rw [undashed, hd]
  exact field_and_of_ones h w

/-- The decoder of a word with "-" positions, as it should be. -/
def MaskedDecode (plat : Config.Platform) (w : Word) : Prop :=
  decode plat w = if dashRefused plat (w &&& dashPositions w != 0#16) then .error .dashBit else decode plat (undashed w)

theorem maskedDecode_of_clean (h : w &&& dashPositions w = 0#16) : MaskedDecode plat w := by
  rw [MaskedDecode, undashed_of_clean h, h]
  rfl

theorem maskedDecode_shift (hs : inRegisterSpace w) (hd : dashPositions w = 0x0610#16) {i : Instr}
    (h : shiftForm (typeOf w).toNat (regOf w) (shiftCodeOf w) = some i) : MaskedDecode plat w := by
  have hclean := undashed_clean w
  rw [dashPositions_undashed, hd, ← bne_eq_false_iff_eq, shiftDashes] at hclean
  have hform : shiftForm (typeOf (undashed w)).toNat (regOf (undashed w)) (shiftCodeOf (undashed w)) = some i := by
    rw [(fields_undashed w).2, regOf_undashed hd (by decide), shiftCodeOf, field_undashed hd (by decide)]
    exact h
  rw [MaskedDecode, hd, shiftDashes, decode_shift hs h, decode_shift ((inRegisterSpace_undashed w).mpr hs) hform, hclean]
  rfl

theorem maskedDecode_carry (hs : inRegisterSpace w) (hd : dashPositions w = 0x0800#16)
    (ht : typeOf w = 0b1100#4 ∨ typeOf w = 0b1101#4) : MaskedDecode plat w := by
  have hclean := undashed_clean w
  rw [dashPositions_undashed, hd, ← bne_eq_false_iff_eq, carryDashes] at hclean
  have hs' := (inRegisterSpace_undashed w).mpr hs
  have htype := (fields_undashed w).2
  have h10 := wordBit_undashed (k := 10) hd (by decide)
  have h4 := wordBit_undashed (k := 4) hd (by decide)
  have hskip : skipOf (undashed w) = skipOf w := by rw [skipOf, field_undashed hd (by decide), skipOf]
  rw [MaskedDecode, hd, carryDashes]
  rcases ht with ht | ht
  · rw [decode_ses hs ht, decode_ses hs' (htype.trans ht), hclean, h10, h4, hskip]
    rfl
  · rw [decode_sec hs ht, decode_sec hs' (htype.trans ht), hclean, h10, h4, hskip]
    rfl

theorem maskedDecode_register (hs : inRegisterSpace w) (hd : dashPositions w = 0x0600#16) (ht : typeOf w = 0b1111#4) :
    MaskedDecode plat w := by
  have hclean := undashed_clean w
  rw [dashPositions_undashed, hd, ← bne_eq_false_iff_eq, registerDashes] at hclean
  have hs' := (inRegisterSpace_undashed w).mpr hs
  have ht' := (fields_undashed w).2.trans ht
  have hop : regOpOf (undashed w) = regOpOf w := by rw [regOpOf, field_undashed hd (by decide), regOpOf]
  have hr := regOf_undashed hd (by decide)
  have h8 := wordBit_undashed (k := 8) hd (by decide)
  have hmask : withoutRegisterDashes (undashed w) = withoutRegisterDashes w := by
    rw [withoutRegisterDashes, undashed, hd, BitVec.and_assoc]
    rfl
  rw [MaskedDecode, hd, registerDashes]
  by_cases hlt : (regOpOf w).toNat < 14
  case pos =>
    obtain ⟨result, h⟩ := Option.isSome_iff_exists.mp ((registerForm_isSome_iff _ (regOf w) (wordBit w 8)).mpr hlt)
    rw [decode_register hs ht h, decode_register hs' ht' (by rw [hop, hr, h8]; exact h), hclean]
    rfl
  case neg =>
    have hge : 14 ≤ (regOpOf w).toNat := Nat.not_lt.mp hlt
    rw [decode_register_unassigned hs ht hge, decode_register_unassigned hs' ht' (by rw [hop]; exact hge), hclean, hmask]
    rfl

/-- R58: a 1 in a "-" position refuses the word or, where it does not, plays no part. -/
theorem decode_eq_masked (plat : Config.Platform) (w : Word) : MaskedDecode plat w := by
  rcases dash_cases w with h | ⟨hs, hd, i, h⟩ | ⟨hs, hd, ht⟩ | ⟨hs, hd, ht⟩
  · exact maskedDecode_of_clean (by rw [h]; exact BitVec.and_zero)
  · exact maskedDecode_shift hs hd h
  · exact maskedDecode_carry hs hd ht
  · exact maskedDecode_register hs hd ht

theorem decode_undashed (h : dashRefused plat (w &&& dashPositions w != 0#16) = false) :
    decode plat w = decode plat (undashed w) := by
  rw [decode_eq_masked plat w, h]
  rfl

theorem decode_dashRefused (h : dashRefused plat (w &&& dashPositions w != 0#16) = true) :
    decode plat w = .error .dashBit := by
  rw [decode_eq_masked plat w, h]
  rfl

theorem dashRefused_eq_true_iff (dashes : Bool) :
    dashRefused plat dashes = true ↔ plat.dashBits = .strict ∧ dashes = true := by
  unfold dashRefused
  cases plat.dashBits <;> simp

end

/-- Settles O5: the "-" positions are the decoder's only under strict, where they refuse the word. -/
theorem dashBitsRefusedOrMasked : Obligations.DashBitsRefusedOrMasked := by
  intro plat w
  constructor
  · intro hstrict hw
    exact decode_dashRefused ((dashRefused_eq_true_iff _).mpr ⟨hstrict, bne_iff_ne.mpr hw⟩)
  · intro hignore
    refine decode_undashed (Bool.eq_false_iff.mpr fun h => ?_)
    obtain ⟨hstrict, -⟩ := (dashRefused_eq_true_iff _).mp h
    rw [hignore] at hstrict
    cases hstrict

end Sys2Proof.Machine
end

section
/-! What a word without "-" bits can be (30_encoding.md section 4), and from it the four statements on words: decode of
encode, encode of decode, the unassigned space (R62, R66), and the restricted register forms (R63). -/

namespace Sys2Proof.Machine

/-! ## The unassigned space -/

/-- R62, by fields. -/
theorem unassignedWord_iff (w : Word) :
    unassignedWord w = true ↔ w.extractLsb' 12 4 = 0b1111#4 ∨
      (inRegisterSpace w ∧ (typeOf w ∈ unassignedTypes ∨ (typeOf w = 0b1111#4 ∧ 14 ≤ (regOpOf w).toNat))) := by
  have hop : ∀ op : BitVec 4, 14 ≤ op.toNat ↔ op = 0b1110#4 ∨ op = 0b1111#4 := by decide
  rw [hop]
  simp only [unassignedWord, inRegisterSpace, typeOf, regOpOf, unassignedTypes, Bool.or_eq_true, Bool.and_eq_true,
    beq_iff_eq, List.contains_iff_mem]

theorem dashedRegisterWord_iff (w : Word) :
    dashedRegisterWord w = true ↔ inRegisterSpace w ∧ typeOf w = 0b1111#4 ∧ w.extractLsb' 9 2 ≠ 0b00#2 := by
  simp only [dashedRegisterWord, inRegisterSpace, typeOf, Bool.and_eq_true, beq_iff_eq, bne_iff_ne, and_assoc]

theorem registerDashes_field (w : Word) : w &&& 0x0600#16 = 0#16 ↔ w.extractLsb' 9 2 = 0b00#2 := by
  constructor
  · intro h
    rw [← field_and_of_ones (m := 0x0600#16) (by decide), h]
    rfl
  · intro h
    have hbit : ∀ k, k < 2 → wordBit w (9 + k) = false := by
      intro k hk
      have hf : (w.extractLsb' 9 2).getLsbD k = false := by rw [h]; exact BitVec.getLsbD_zero
      rwa [BitVec.getLsbD_extractLsb', decide_eq_true hk, Bool.true_and] at hf
    have hbits : (wordBit w 10 || wordBit w 9) = false := by rw [hbit 1 (by omega), hbit 0 (by omega)]; rfl
    rwa [← registerDashes, bne_eq_false_iff_eq] at hbits

theorem not_registerSpace_of_high {w : Word} (h : w.extractLsb' 12 4 = 0b1111#4) : ¬ inRegisterSpace w := by
  rw [inRegisterSpace, h]
  decide

section
variable {w : Word}

theorem dashPositions_of_dashed (h : dashedRegisterWord w = true) : w &&& dashPositions w ≠ 0#16 := by
  obtain ⟨hs, ht, hf⟩ := (dashedRegisterWord_iff w).mp h
  rw [dashPositions_register hs ht, Ne, registerDashes_field]
  exact hf

/-- Only a register reference of the unassigned space has "-" positions. -/
theorem dashed_of_unassigned (hu : unassignedWord w = true) (h : w &&& dashPositions w ≠ 0#16) :
    dashedRegisterWord w = true := by
  have hplain : ∀ t ∈ unassignedTypes, t ∈ plainTypes := by decide
  rcases (unassignedWord_iff w).mp hu with hh | ⟨hs, ht | ⟨ht, -⟩⟩
  · rw [dashPositions_of_not_registerSpace (not_registerSpace_of_high hh)] at h
    exact absurd BitVec.and_zero h
  · rw [dashPositions_plain hs (hplain _ ht)] at h
    exact absurd BitVec.and_zero h
  · rw [dashPositions_register hs ht, Ne, registerDashes_field] at h
    exact (dashedRegisterWord_iff w).mpr ⟨hs, ht, h⟩

theorem withoutRegisterDashes_eq (hc : w &&& 0x0600#16 = 0#16) : withoutRegisterDashes w = w := by
  have hsplit : w &&& (0x0600#16 ||| 0xF9FF#16) = w := BitVec.and_allOnes
  rwa [BitVec.and_or_distrib_left, hc, BitVec.zero_or] at hsplit

/-- R60: a word of the unassigned space that no "-" bit refuses is looked up in ENC_UNKNOWN. -/
theorem decode_of_unassigned (hu : unassignedWord w = true) (hc : w &&& dashPositions w = 0#16) (plat : Config.Platform) :
    decode plat w = decodeUnassigned plat w := by
  rcases (unassignedWord_iff w).mp hu with hh | ⟨hs, ht | ⟨ht, hop⟩⟩
  · exact decode_high hh
  · exact decode_unassignedType hs ht
  · rw [dashPositions_register hs ht] at hc
    have hbits : (wordBit w 10 || wordBit w 9) = false := by rw [← registerDashes, hc]; rfl
    rw [decode_register_unassigned hs ht hop, withoutRegisterDashes_eq hc, hbits]
    rfl

theorem unassignedWord_undashed (w : Word) : unassignedWord (undashed w) = unassignedWord w := by
  obtain ⟨hspace, htype⟩ := fields_undashed w
  have hop : inRegisterSpace w → typeOf w = 0b1111#4 → regOpOf (undashed w) = regOpOf w := fun hs ht => by
    rw [regOpOf, field_undashed (dashPositions_register hs ht) (by decide), regOpOf]
  rw [Bool.eq_iff_iff, unassignedWord_iff, unassignedWord_iff, hspace, inRegisterSpace_undashed, htype]
  refine or_congr_right (and_congr_right fun hs => or_congr_right (and_congr_right fun ht => ?_))
  rw [hop hs ht]

/-- R63: the word is a register form that its direct bit restricts. -/
def Restricted (w : Word) (e : DecodeError) : Prop :=
  ∃ (op : BitVec 4) (r : Reg), w = rrWord op r false ∧ registerForm op.toNat r false = some (.error e)

theorem registerForm_error {op : Nat} {r : Reg} {ind : Bool} {e : DecodeError}
    (h : registerForm op r ind = some (.error e)) :
    ind = false ∧ (e = .directRegisterRestricted ∨ e = .jmpDirectRegister) := by
  unfold registerForm at h
  split at h
  case h_15 => cases h
  all_goals cases ind <;> cases h <;> simp

/-- Without "-" bits a word is one of the coding table, a restricted register form, or unassigned. -/
theorem clean_word_cases (hc : w &&& dashPositions w = 0#16) :
    (∃ i, Coded w i) ∨ (∃ e, Restricted w e) ∨ unassignedWord w = true := by
  rcases space_cases w with hop | hs | hh
  · obtain ⟨i, h⟩ := Option.isSome_iff_exists.mp ((memForm_isSome_iff _ (memRefOf w)).mpr hop)
    exact .inl ⟨i, mrWord_fields w ▸ .mr h⟩
  · rcases type_cases w with ⟨i, h⟩ | ht | ⟨i, h⟩ | ht | ht | ht | ht
    · rw [dashPositions_shift hs h] at hc
      have h109 : w.extractLsb' 9 2 = 0b00#2 := by rw [← field_and_of_ones (m := 0x0610#16) (by decide), hc]; rfl
      have h4 : w.extractLsb' 4 1 = 0b0#1 := by rw [← field_and_of_ones (m := 0x0610#16) (by decide), hc]; rfl
      exact .inl ⟨i, srWord_fields hs h109 h4 ▸ .sr h⟩
    · have hcoded := Coded.zeroSkip (wordBit w 4) (wordBit w 10) (regOf w) (skipOk_skipOf w)
      rw [← ht, asWord_fields hs] at hcoded
      exact .inl ⟨_, hcoded⟩
    · exact .inl ⟨i, asWord_fields hs ▸ .bitSkip (skipOk_skipOf w) h⟩
    · rw [dashPositions_carry hs (.inl ht), ← bne_eq_false_iff_eq, carryDashes] at hc
      have hr : regOf w = .A := by rw [regOf, hc]; rfl
      have hcoded := Coded.ses (wordBit w 10) (wordBit w 4) (skipOk_skipOf w)
      rw [← hr, ← ht, asWord_fields hs] at hcoded
      exact .inl ⟨_, hcoded⟩
    · rw [dashPositions_carry hs (.inr ht), ← bne_eq_false_iff_eq, carryDashes] at hc
      have hr : regOf w = .A := by rw [regOf, hc]; rfl
      have hcoded := Coded.sec (wordBit w 10) (wordBit w 4) (skipOk_skipOf w)
      rw [← hr, ← ht, asWord_fields hs] at hcoded
      exact .inl ⟨_, hcoded⟩
    · by_cases hlt : (regOpOf w).toNat < 14
      case neg => exact .inr (.inr ((unassignedWord_iff w).mpr (.inr ⟨hs, .inr ⟨ht, Nat.not_lt.mp hlt⟩⟩)))
      case pos =>
        rw [dashPositions_register hs ht, registerDashes_field] at hc
        have hw := rrWord_fields hs hc ht
        obtain ⟨result, h⟩ := Option.isSome_iff_exists.mp ((registerForm_isSome_iff _ (regOf w) (wordBit w 8)).mpr hlt)
        cases result with
        | ok i => exact .inl ⟨i, hw ▸ .rr h⟩
        | error e =>
          have h8 := (registerForm_error h).1
          rw [h8] at h hw
          exact .inr (.inl ⟨e, _, _, hw.symm, h⟩)
    · exact .inr (.inr ((unassignedWord_iff w).mpr (.inr ⟨hs, .inl ht⟩)))
  · exact .inr (.inr ((unassignedWord_iff w).mpr (.inl hh)))

theorem decode_of_restricted {e : DecodeError} (h : Restricted w e) (plat : Config.Platform) :
    decode plat w = .error e := by
  obtain ⟨op, r, rfl, hf⟩ := h
  exact decode_rrWord hf plat

theorem restricted_error {e : DecodeError} (h : Restricted w e) :
    e = .directRegisterRestricted ∨ e = .jmpDirectRegister := by
  obtain ⟨op, r, -, hf⟩ := h
  exact (registerForm_error hf).2

theorem decodeUnassigned_error_iff (plat : Config.Platform) (w : Word) :
    decodeUnassigned plat w = .error .unassigned ↔ ∀ row ∈ plat.encUnknown, w &&& row.mask ≠ row.pattern := by
  unfold decodeUnassigned
  cases h : plat.encUnknown.find? (fun row => w &&& row.mask == row.pattern) with
  | none => simpa using h
  | some row =>
    have hmem := List.mem_of_find?_eq_some h
    have hmatch : w &&& row.mask = row.pattern := by simpa using List.find?_some h
    exact iff_of_false (by simp) fun hall => hall row hmem hmatch

/-- On the default platform, where ENC_UNKNOWN is empty, the whole unassigned space is refused. -/
theorem unassignedWord_eq_false (h1 : decode Config.defaultPlatform w ≠ .error .unassigned)
    (h2 : decode Config.defaultPlatform w ≠ .error .dashBit) : unassignedWord w = false := by
  rw [Bool.eq_false_iff]
  intro hu
  by_cases hc : w &&& dashPositions w = 0#16
  case pos => exact h1 (decode_of_unassigned hu hc Config.defaultPlatform)
  case neg => exact h2 (decode_dashRefused ((dashRefused_eq_true_iff _).mpr ⟨rfl, bne_iff_ne.mpr hc⟩))

theorem coded_not_unassigned {i : Instr} (h : Coded w i) : unassignedWord w = false := by
  have hd := decode_of_coded h Config.defaultPlatform
  exact unassignedWord_eq_false (by rw [hd]; simp) (by rw [hd]; simp)

theorem restricted_not_unassigned {e : DecodeError} (h : Restricted w e) : unassignedWord w = false := by
  have hd := decode_of_restricted h Config.defaultPlatform
  rcases restricted_error h with rfl | rfl <;> exact unassignedWord_eq_false (by rw [hd]; simp) (by rw [hd]; simp)

/-! ## What the decoder can answer -/

theorem decode_ok_cases {plat : Config.Platform} {i : Instr} (h : decode plat w = .ok i) :
    (plat.dashBits = .strict → undashed w = w) ∧
      (Coded (undashed w) i ∨ ∃ row ∈ plat.encUnknown, i = instrOfUnencoded row.instr) := by
  have hr : dashRefused plat (w &&& dashPositions w != 0#16) = false := by
    rw [Bool.eq_false_iff]
    intro hr
    rw [decode_dashRefused hr] at h
    cases h
  constructor
  · intro hstrict
    by_cases hc : w &&& dashPositions w = 0#16
    case pos => exact undashed_of_clean hc
    case neg => exact absurd ((dashRefused_eq_true_iff _).mpr ⟨hstrict, bne_iff_ne.mpr hc⟩) (by rw [hr]; simp)
  · rw [decode_undashed hr] at h
    rcases clean_word_cases (undashed_clean w) with ⟨j, hj⟩ | ⟨e, he⟩ | hu
    · rw [decode_of_coded hj] at h
      cases h
      exact .inl hj
    · rw [decode_of_restricted he] at h
      cases h
    · rw [decode_of_unassigned hu (undashed_clean w), decodeUnassigned] at h
      split at h
      case h_1 row hrow =>
        cases h
        exact .inr ⟨row, List.mem_of_find?_eq_some hrow, rfl⟩
      case h_2 => cases h

end

theorem unencoded_of_name (u : Config.Unencoded) : (instrOfUnencoded u).unencoded? = some u := by cases u <;> rfl

/-- Settles O2: under strict a word that decodes has no "-" bit, and the coding table is one to one on the rest. -/
theorem decodedWordIsTheEncodedWord : Obligations.DecodedWordIsTheEncodedWord := by
  intro plat w i hstrict h hu
  obtain ⟨hw, hcoded | ⟨row, -, rfl⟩⟩ := decode_ok_cases h
  · obtain ⟨hwf, -, henc⟩ := encoded_of_coded (hw hstrict ▸ hcoded)
    exact ⟨hwf, henc plat⟩
  · rw [unencoded_of_name] at hu
    cases hu

/-- Settles O4: the refusal of a "-" bit comes first, and of the words that remain only those of the unassigned space are
looked up in ENC_UNKNOWN. -/
theorem exactlyTheUnassignedWordsAreRefused : Obligations.ExactlyTheUnassignedWordsAreRefused := by
  intro plat w
  by_cases hr : dashRefused plat (w &&& dashPositions w != 0#16) = true
  case pos =>
    obtain ⟨hstrict, hdash⟩ := (dashRefused_eq_true_iff _).mp hr
    rw [decode_dashRefused hr]
    refine iff_of_false (by simp) ?_
    rintro ⟨hu, -, hn⟩
    exact hn ⟨hstrict, dashed_of_unassigned hu (bne_iff_ne.mp hdash)⟩
  case neg =>
    have hn : ¬ (plat.dashBits = .strict ∧ dashedRegisterWord w = true) := fun ⟨hstrict, hdashed⟩ =>
      hr ((dashRefused_eq_true_iff _).mpr ⟨hstrict, bne_iff_ne.mpr (dashPositions_of_dashed hdashed)⟩)
    rw [decode_undashed (Bool.eq_false_iff.mpr hr), ← unassignedWord_undashed]
    rcases clean_word_cases (undashed_clean w) with ⟨i, hi⟩ | ⟨e, he⟩ | hu
    · rw [decode_of_coded hi, coded_not_unassigned hi]
      simp
    · rw [decode_of_restricted he, restricted_not_unassigned he]
      rcases restricted_error he with rfl | rfl <;> simp
    · rw [decode_of_unassigned hu (undashed_clean w), decodeUnassigned_error_iff]
      exact ⟨fun hrows => ⟨hu, hrows, hn⟩, fun ⟨_, hrows, _⟩ => hrows⟩

/-! ## ENC_UNKNOWN -/

/-- At most one of the two entries matches the word, unless they are one entry. -/
def OneMatchAt (w : Word) (x y : Config.EncRow) : Prop := w &&& x.mask = x.pattern → w &&& y.mask = y.pattern → x = y

theorem oneMatchAt_of_disjoint {x y : Config.EncRow} (h : x.disjoint y) (w : Word) :
    OneMatchAt w x y ∧ OneMatchAt w y x := by
  have hboth : w &&& x.mask = x.pattern → w &&& y.mask = y.pattern → False := fun hx hy =>
    h (by rw [← hx, ← hy, BitVec.and_assoc, BitVec.and_assoc, BitVec.and_comm x.mask])
  exact ⟨fun hx hy => (hboth hx hy).elim, fun hy hx => (hboth hx hy).elim⟩

/-- R66: two entries that one word matches are one entry. -/
theorem row_unique {rows : List Config.EncRow} (h : encUnknownOk rows) (w : Word) {x y : Config.EncRow}
    (hx : x ∈ rows) (hy : y ∈ rows) : OneMatchAt w x y := by
  obtain ⟨-, -, hdisjoint⟩ := h
  exact List.Pairwise.forall_of_forall_of_flip (fun _ _ _ _ => rfl)
    (hdisjoint.imp fun hab => (oneMatchAt_of_disjoint hab w).1) (hdisjoint.imp fun hab => (oneMatchAt_of_disjoint hab w).2)
    hx hy

/-- R66: the canonical word of an entry decodes to the entry's instruction. -/
theorem decode_pattern {plat : Config.Platform} (h : encUnknownOk plat.encUnknown) {row : Config.EncRow}
    (hrow : row ∈ plat.encUnknown) : decode plat row.pattern = .ok (instrOfUnencoded row.instr) := by
  obtain ⟨hmask, hdash, hspace⟩ := h.1 row hrow
  have hu := hspace row.pattern hmask
  have hc : row.pattern &&& dashPositions row.pattern = 0#16 := by
    refine Classical.byContradiction fun hc => ?_
    rw [dashed_of_unassigned hu hc] at hdash
    cases hdash
  rw [decode_of_unassigned hu hc, decodeUnassigned]
  cases hfind : plat.encUnknown.find? (fun r => row.pattern &&& r.mask == r.pattern) with
  | none => exact absurd (by simpa using hmask) (List.find?_eq_none.mp hfind row hrow)
  | some found =>
    have hfound : row.pattern &&& found.mask = found.pattern := by simpa using List.find?_some hfind
    rw [row_unique h row.pattern (List.mem_of_find?_eq_some hfind) hrow hfound hmask]

theorem unencoded_name {i : Instr} {u : Config.Unencoded} (h : i.unencoded? = some u) :
    i = instrOfUnencoded u ∧ ∀ plat, encode plat i = unencodedWord plat u := by
  cases i <;> cases h <;> exact ⟨rfl, fun _ => rfl⟩

/-- Settles O1: the coding table gives the words of 52 instructions and the decoder follows it; ENC_UNKNOWN gives the words
of the other 23, and no two of its entries share one. -/
theorem decodeInvertsEncode : Obligations.DecodeInvertsEncode := by
  intro plat i ⟨hrows, _⟩ hwf hword
  cases hu : i.unencoded? with
  | none =>
    obtain ⟨w, hw⟩ := coded_of_wf hwf hu
    obtain ⟨-, -, henc⟩ := encoded_of_coded hw
    exact ⟨w, henc plat, decode_of_coded hw plat⟩
  | some u =>
    obtain ⟨rfl, henc⟩ := unencoded_name hu
    simp only [Instr.hasWord, hu] at hword
    obtain ⟨row, hrow⟩ := Option.isSome_iff_exists.mp (List.find?_isSome.mpr (List.any_eq_true.mp hword))
    have hname : row.instr = u := by simpa using List.find?_some hrow
    refine ⟨row.pattern, ?_, ?_⟩
    · rw [henc, unencodedWord, hrow]
      rfl
    · rw [decode_pattern hrows (List.mem_of_find?_eq_some hrow), hname]

end Sys2Proof.Machine
end

section
/-! The fetch and the decoding of its word (10_state.md R15; 60_exceptions.md R211), and why no program of the coding
table's instructions hangs without pointer chains. -/

namespace Sys2Proof.Machine

/-! ## The fetch -/

section
variable {s : State}

theorem fetchInstr_ok (hr : readable s s.p) {i : Instr} (hd : decode s.plat (wordAt s s.p) = .ok i) :
    fetchInstr s = .ok i := by
  rw [fetchInstr, memRead_readable hr, res_ok_bind, hd]
  rfl

theorem fetchInstr_error (hr : readable s s.p) {e : DecodeError} (hd : decode s.plat (wordAt s s.p) = .error e) :
    fetchInstr s = refuse (refusalOf e) := by
  rw [fetchInstr, memRead_readable hr, res_ok_bind, hd]

theorem fetchInstr_not_readable (hr : ¬ readable s s.p) : fetchInstr s = refuse (accessRefusal s.p) := by
  rw [fetchInstr, memRead_not_readable hr]
  rfl

theorem step_of_fetch (hw : s.dmaWait = false) {i : Instr} (hf : fetchInstr s = .ok i) : step s = exec i s.loadM := by
  rw [step, hw, hf]
  rfl

theorem step_refused (hw : s.dmaWait = false) {r : Refusal} (hf : fetchInstr s = refuse r) : step s = .refused r := by
  rw [step, hw, hf]
  rfl

theorem fetchInstr_ok_iff {i : Instr} :
    fetchInstr s = .ok i ↔ readable s s.p ∧ decode s.plat (wordAt s s.p) = .ok i := by
  constructor
  · intro h
    by_cases hr : readable s s.p
    case neg =>
      rw [fetchInstr_not_readable hr] at h
      exact absurd h (refuse_ne_ok _ _)
    case pos =>
      cases hd : decode s.plat (wordAt s s.p) with
      | ok j =>
        rw [fetchInstr_ok hr hd] at h
        cases h
        exact ⟨hr, rfl⟩
      | error e =>
        rw [fetchInstr_error hr hd] at h
        exact absurd h (refuse_ne_ok _ _)
  · rintro ⟨hr, hd⟩
    exact fetchInstr_ok hr hd

end

/-- Settles O7: the fetch answers the decoded instruction, and loads M from P. -/
theorem stepRunsDecodedInstruction : Obligations.StepRunsDecodedInstruction :=
  fun _ _ hw hr hd => step_of_fetch hw (fetchInstr_ok hr hd)

/-- Settles O8: each refusal of the fetch is the step's. -/
theorem stepRefusesWhatItCannotFetch : Obligations.StepRefusesWhatItCannotFetch := by
  intro s hw
  refine ⟨fun h15 => ?bit15, fun h15 habsent => ?absent, fun e hr hd => step_refused hw (fetchInstr_error hr hd)⟩
  case bit15 =>
    have hr : ¬ readable s s.p := fun hr => absurd (h15.symm.trans hr.1) (by simp)
    rw [step_refused hw (fetchInstr_not_readable hr), accessRefusal, if_pos h15]
  case absent =>
    have hr : ¬ readable s s.p := fun hr => hr.2 habsent
    rw [step_refused hw (fetchInstr_not_readable hr), accessRefusal, h15]
    rfl

/-- Settles O6: at each of the five operations, and at JMP's, the direct register form is the decoder's error. -/
theorem directRegisterFormsRefused : Obligations.DirectRegisterFormsRefused := by
  intro s r hw hr
  have hstep : ∀ (op : BitVec 4) (e : DecodeError), registerForm op.toNat r false = some (.error e) →
      wordAt s s.p = rrWord op r false → step s = .refused (refusalOf e) := fun op e hf hword =>
    step_refused hw (fetchInstr_error hr (hword ▸ decode_rrWord hf s.plat))
  constructor
  · intro op hop
    have hf : registerForm op.toNat r false = some (.error .directRegisterRestricted) := by
      simp only [List.mem_cons, List.not_mem_nil, or_false] at hop
      rcases hop with rfl | rfl | rfl | rfl | rfl <;> rfl
    exact hstep op _ hf
  · exact hstep 0b1101#4 _ rfl

theorem decode_written {w word : Word} {i : Instr} (h : Coded word i) (hw : word = w) (plat : Config.Platform) :
    decode plat w = .ok i := hw ▸ decode_of_coded h plat

/-- Settles O3: each of the seven words is made of the fields that the coding table gives its instruction. -/
theorem writtenOutWordsDecode : Obligations.WrittenOutWordsDecode :=
  ⟨decode_written (.mr (op := 0b1010#4) (ref := ⟨true, .zero, 0o20#10⟩) rfl) (by decide) _,
   decode_written (.sr (type := 0b0100#4) (r := .A) (code := 0b1100#4) rfl) (by decide) _,
   decode_written (.zeroSkip true true .B (n := -1) rfl) (by decide) _,
   decode_written (.bitSkip (type := 0b1001#4) (r := .A) (n := 2) (s := true) (c := true) rfl rfl) (by decide) _,
   decode_written (.ses false true (n := 1) rfl) (by decide) _,
   decode_written (.rr (op := 0b0100#4) (r := .B) (ind := true) rfl) (by decide) _,
   decode_written (.rr (op := 0b1101#4) (r := .B) (ind := true) rfl) (by decide) _⟩

/-! ## Results that never hang -/

/-- The result is an answer or a refusal. -/
def NeverHangs {α : Type} (x : Res α) : Prop := ∀ f, x ≠ hang f

theorem neverHangs_ok {α : Type} (v : α) : NeverHangs (.ok v : Res α) := fun _ h => by cases h

theorem neverHangs_refuse {α : Type} (r : Refusal) : NeverHangs (refuse r : Res α) := fun _ h => by cases h

theorem NeverHangs.bind {α β : Type} {x : Res α} {f : α → Res β} (hx : NeverHangs x) (hf : ∀ v, NeverHangs (f v)) :
    NeverHangs (x >>= f) := by
  match x with
  | .ok v => exact hf v
  | .error (.refused r) => exact neverHangs_refuse r
  | .error (.fault g) => exact absurd rfl (hx g)

theorem NeverHangs.outcome {x : Res State} (hx : NeverHangs x) (f : Fault) : outcome x ≠ .fault f := by
  match x with
  | .ok t => simp [Machine.outcome]
  | .error (.refused r) => simp [Machine.outcome]
  | .error (.fault g) => exact absurd rfl (hx g)

theorem memRead_neverHangs (s : State) (addr : Word) : NeverHangs (memRead s addr) := by
  by_cases h : readable s addr
  case pos => rw [memRead_readable h]; exact neverHangs_ok _
  case neg => rw [memRead_not_readable h]; exact neverHangs_refuse _

theorem memWrite_neverHangs (s : State) (addr v : Word) : NeverHangs (memWrite s addr v) := by
  by_cases h : writable s addr
  case pos => rw [memWrite_writable h]; exact neverHangs_ok _
  case neg => rw [memWrite_not_writable h]; exact neverHangs_refuse _

theorem storeEffect_neverHangs (s : State) (r : Reg) (addr : Word) : NeverHangs (storeEffect s r addr) :=
  (memWrite_neverHangs s addr _).bind fun _ => neverHangs_ok _

theorem countEffect_neverHangs (s : State) (count addr : Word) : NeverHangs (countEffect s count addr) :=
  (memRead_neverHangs s addr).bind fun _ => (memWrite_neverHangs s addr _).bind fun _ => neverHangs_ok _

theorem callEffect_neverHangs (s : State) (target : Word) : NeverHangs (callEffect s target) := by
  refine (memRead_neverHangs s _).bind fun sp => ?_
  split
  case isTrue => exact neverHangs_refuse _
  case isFalse =>
    exact (memWrite_neverHangs s _ _).bind fun u => (memWrite_neverHangs u _ _).bind fun _ => neverHangs_ok _

section
variable {s : State} (hc : s.plat.indirectChain ≠ .multilevel)
include hc

/-- R37: without pointer chains `Deref` reads nothing. -/
theorem deref_neverHangs (pointer : Word) : NeverHangs (deref s pointer) := by
  unfold deref
  split
  case isFalse => exact neverHangs_ok _
  case isTrue =>
    split
    case h_1 => exact neverHangs_refuse _
    case h_2 => exact neverHangs_ok _
    case h_3 hm => exact absurd hm hc

theorem memFormAddress_neverHangs (ref : MemRef) : NeverHangs (memFormAddress s ref) := by
  unfold memFormAddress
  split
  case isTrue => exact (memRead_neverHangs s _).bind fun pointer => deref_neverHangs hc pointer
  case isFalse => exact neverHangs_ok _

theorem regFormAddress_neverHangs (r : Reg) : NeverHangs (regFormAddress s r) := deref_neverHangs hc _

theorem memOperand_neverHangs (ref : MemRef) : NeverHangs (memOperand s ref) :=
  (memFormAddress_neverHangs hc ref).bind fun addr => memRead_neverHangs s addr

theorem regOperand_neverHangs (r : Reg) (ind : Bool) : NeverHangs (regOperand s r ind) := by
  unfold regOperand
  split
  case isTrue => exact (regFormAddress_neverHangs hc r).bind fun addr => memRead_neverHangs s addr
  case isFalse => exact neverHangs_ok _

/-- No instruction of the coding table hangs without pointer chains. -/
theorem exec_ne_fault {i : Instr} (hu : i.unencoded? = none) (f : Fault) : exec i s ≠ .fault f := by
  cases i with
  | ada ref | adb ref | cpa ref | cpb ref | lda ref | ldb ref | ior ref | and ref =>
    exact ((memOperand_neverHangs hc ref).bind fun _ => neverHangs_ok _).outcome f
  | adaReg r i | adbReg r i | cpaReg r i | cpbReg r i | ldaReg r i | ldbReg r i | iorReg r i | andReg r i =>
    exact ((regOperand_neverHangs hc r i).bind fun _ => neverHangs_ok _).outcome f
  | sta ref | stb ref =>
    exact ((memFormAddress_neverHangs hc ref).bind fun addr => storeEffect_neverHangs s _ addr).outcome f
  | staReg r | stbReg r =>
    exact ((regFormAddress_neverHangs hc r).bind fun addr => storeEffect_neverHangs s _ addr).outcome f
  | isz ref | dsz ref =>
    exact ((memFormAddress_neverHangs hc ref).bind fun addr => countEffect_neverHangs s _ addr).outcome f
  | iszReg r | dszReg r =>
    exact ((regFormAddress_neverHangs hc r).bind fun addr => countEffect_neverHangs s _ addr).outcome f
  | jsm ref => exact ((memFormAddress_neverHangs hc ref).bind fun addr => callEffect_neverHangs s addr).outcome f
  | jsmReg r => exact ((regFormAddress_neverHangs hc r).bind fun addr => callEffect_neverHangs s addr).outcome f
  | jmp ref => exact ((memFormAddress_neverHangs hc ref).bind fun _ => neverHangs_ok _).outcome f
  | jmpReg r => exact ((regFormAddress_neverHangs hc r).bind fun _ => neverHangs_ok _).outcome f
  | aar n | abr n | sar n | sbr n | sal n | sbl n | rar n | rbr n => exact (neverHangs_ok _).outcome f
  | sza n | szb n | rza n | rzb n | sia n | sib n | ria n | rib n => exact (neverHangs_ok _).outcome f
  | sla n set clear | slb n set clear | sam n set clear | sbm n set clear => exact (neverHangs_ok _).outcome f
  | sap n set clear | sbp n set clear | ses n set clear | sec n set clear => exact (neverHangs_ok _).outcome f
  | _ => cases hu

end

/-! ## Runs of table instructions -/

/-- The premise of such a run: no DMA wait, no word for the 23 unencoded instructions, no pointer chains. -/
def TableState (s : State) : Prop :=
  s.dmaWait = false ∧ s.plat.encUnknown = [] ∧ s.plat.indirectChain ≠ .multilevel

section
variable {s : State} (hs : TableState s)
include hs

theorem unencoded_of_fetch {i : Instr} (hf : fetchInstr s = .ok i) : i.unencoded? = none := by
  obtain ⟨-, hrows, -⟩ := hs
  obtain ⟨-, hd⟩ := fetchInstr_ok_iff.mp hf
  obtain ⟨-, hcoded | ⟨row, hrow, -⟩⟩ := decode_ok_cases hd
  · obtain ⟨-, hu, -⟩ := encoded_of_coded hcoded
    exact hu
  · rw [hrows] at hrow
    cases hrow

theorem tableState_step_ne_fault (f : Fault) : step s ≠ .fault f := by
  intro h
  have hplain := fun i hf => unencoded_of_fetch (i := i) hs hf
  obtain ⟨hw, -, hc⟩ := hs
  match hf : fetchInstr s with
  | .ok i =>
    rw [step_of_fetch hw hf] at h
    exact exec_ne_fault (s := s.loadM) hc (hplain i hf) f h
  | .error (.refused r) =>
    rw [step_refused hw hf] at h
    cases h
  | .error (.fault g) =>
    refine ((memRead_neverHangs s s.p).bind fun w => ?_) g hf
    split
    case h_1 => exact neverHangs_ok _
    case h_2 => exact neverHangs_refuse _

theorem tableState_step {t : State} (h : step s = .next t) : TableState t := by
  have hplain := fun i hf => unencoded_of_fetch (i := i) hs hf
  obtain ⟨hw, hrows, hc⟩ := hs
  have hplat := step_plat h
  match hf : fetchInstr s with
  | .ok i =>
    have hu := hplain i hf
    rw [step_of_fetch hw hf] at h
    obtain ⟨u, nextP, hupd, rfl⟩ := exec_completed (by rintro rfl; cases hu) (by rintro rfl; cases hu)
      (by rintro rfl; cases hu) h
    exact ⟨hupd.dmaWait.trans hw, hplat ▸ hrows, hplat ▸ hc⟩
  | .error (.refused r) =>
    rw [step_refused hw hf] at h
    cases h
  | .error (.fault g) =>
    rw [step, hw, hf] at h
    cases h

theorem tableState_safeRun : SafeRun s := by
  intro k f
  induction k generalizing s with
  | zero => exact fun h => by cases h
  | succ k ih =>
    cases hstep : step s with
    | next t =>
      rw [run_next hstep]
      exact ih (tableState_step hs hstep)
    | fault g => exact absurd hstep (tableState_step_ne_fault hs g)
    | refused r =>
      rw [run_refused hstep]
      exact fun h => by cases h

end

/-- Settles O60: the premise is an invariant of the step, under which no step hangs. -/
theorem singleLevelTableProgramsNeverHang : Obligations.SingleLevelTableProgramsNeverHang :=
  fun _ hw hrows hc => tableState_safeRun ⟨hw, hrows, hc⟩

end Sys2Proof.Machine
end

section
/-! Accesses and operand locations (20_memory.md R31 to R37, 40_memory_reference.md R80, R81): reads after writes, MemMap's
refusals, the addresses of operands, and pointer chains, whose bound of 32768 reads no chain that ends can feel. -/

namespace Sys2Proof.Machine

/-! ## Reads and writes -/

/-- Settles O9: a write is one store, and stores are read back word by word. -/
theorem readReturnsLastWrite : Obligations.ReadReturnsLastWrite := by
  intro s t addr v hmem h
  obtain ⟨hw, rfl⟩ := (memWrite_ok_iff s addr v t).mp h
  have hr : readable (storedAt s addr v) addr := readable_of_writable hw
  refine ⟨hw, ?read, fun x _ hx => ?others, ⟨rfl, rfl, rfl, rfl, rfl, rfl⟩, rfl, rfl, storedAt_mem_wf hmem hw.1 v⟩
  case read => rw [memRead_readable hr, wordAt_storedAt_same hmem hw.1]
  case others => exact wordAt_storedAt_other (by simpa using hx) s v

theorem accessRefusal_bit15 {addr : Word} (h : wordBit addr 15 = true) : accessRefusal addr = .addressBit15 := if_pos h

theorem accessRefusal_memmap {addr : Word} (h : wordBit addr 15 = false) : accessRefusal addr = .memmap := by
  rw [accessRefusal, h]
  rfl

/-- Settles O10: what is neither readable nor writable is refused under the name that bit 15 gives. -/
theorem accessesRefusedByMemMap : Obligations.AccessesRefusedByMemMap := by
  intro s addr v
  refine ⟨fun h15 => ?bit15, fun h15 hk => ?absent, fun h15 hk => ?rom, fun a ha => ?pinned⟩
  case bit15 =>
    have hr : ¬ readable s addr := fun hr => by rw [hr.1] at h15; cases h15
    rw [memRead_not_readable hr, memWrite_not_writable (mt readable_of_writable hr), accessRefusal_bit15 h15]
    exact ⟨rfl, rfl⟩
  case absent =>
    have hr : ¬ readable s addr := fun hr => hr.2 hk
    rw [memRead_not_readable hr, memWrite_not_writable (mt readable_of_writable hr), accessRefusal_memmap h15]
    exact ⟨rfl, rfl⟩
  case rom =>
    have hr : readable s addr := ⟨h15, by rw [hk]; simp⟩
    have hw : ¬ writable s addr := fun hw => by rw [hw.2] at hk; cases hk
    rw [memRead_readable hr, memWrite_not_writable hw, accessRefusal_memmap h15]
    exact ⟨rfl, rfl⟩
  case pinned =>
    simp only [List.mem_cons, List.not_mem_nil, or_false] at ha
    rcases ha with rfl | rfl | rfl | rfl | rfl | rfl | rfl | rfl | rfl <;>
      exact writable_pinned s (by decide) (by decide)

/-! ## Operand locations -/

/-- R80: page zero, or the 1024-word page of P. -/
theorem directAddress_toNat (p : Word) (ref : MemRef) :
    (directAddress p ref).toNat = (match ref.page with | .zero => 0 | .current => p.toNat / 1024 * 1024) + ref.addr.toNat := by
  obtain ⟨ind, page, addr⟩ := ref
  have haddr := addr.isLt
  have hp := p.isLt
  cases page with
  | zero =>
    change (0#6 ++ addr).toNat = 0 + addr.toNat
    rw [BitVec.toNat_append, ← Nat.shiftLeft_add_eq_or_of_lt haddr]
    rfl
  | current =>
    change (p.extractLsb' 10 6 ++ addr).toNat = p.toNat / 1024 * 1024 + addr.toNat
    rw [BitVec.toNat_append, ← Nat.shiftLeft_add_eq_or_of_lt haddr, BitVec.extractLsb'_toNat, Nat.shiftRight_eq_div_pow,
      Nat.shiftLeft_eq]
    omega

theorem memFormAddress_direct {s : State} {ref : MemRef} (h : ref.indirect = false) :
    memFormAddress s ref = .ok (directAddress s.p ref) := by
  rw [memFormAddress, h]
  rfl

theorem memFormAddress_indirect {s : State} {ref : MemRef} (h : ref.indirect = true) :
    memFormAddress s ref = memRead s (directAddress s.p ref) >>= deref s := by
  rw [memFormAddress, h]
  rfl

/-- Settles O11: the address of each form, then the access at it. -/
theorem operandLocation : Obligations.OperandLocation := by
  intro s ref r
  refine ⟨directAddress_toNat s.p ref, memFormAddress_direct, fun hi hr h15 => ?_, fun hi hr => ?_, fun hi hr => ?_,
    fun addr h => ⟨fun hr => ?_, fun hr => ?_⟩, rfl, rfl, deref_bit15_clear s, fun addr h => ⟨fun hr => ?_, fun hr => ?_⟩⟩
  · rw [memFormAddress_indirect hi, memRead_readable hr, res_ok_bind, deref_bit15_clear s h15]
  · rw [memFormAddress_indirect hi, memRead_readable hr, res_ok_bind]
  · rw [memFormAddress_indirect hi, memRead_not_readable hr]
    rfl
  · rw [memOperand, h, res_ok_bind, memRead_readable hr]
  · rw [memOperand, h, res_ok_bind, memRead_not_readable hr]
  · rw [regOperand, if_pos rfl, h, res_ok_bind, memRead_readable hr]
  · rw [regOperand, if_pos rfl, h, res_ok_bind, memRead_not_readable hr]

/-! ## Pointers with bit 15 set -/

/-- R37: dropping bit 15 is the remainder by 2^15. -/
theorem pointerAddress_eq (pointer : Word) : pointerAddress pointer = BitVec.ofNat 16 (pointer.toNat % 32768) := by
  apply BitVec.eq_of_toNat_eq
  rw [pointerAddress, BitVec.toNat_setWidth, BitVec.extractLsb'_toNat, BitVec.toNat_ofNat]
  rfl

section
variable {s : State} {pointer : Word}

theorem deref_refuse (h15 : wordBit pointer 15 = true) (hc : s.plat.indirectChain = .refuse) :
    deref s pointer = refuse .indirectBit15 := by
  rw [deref, if_pos h15, hc]

theorem deref_ignoreBit15 (h15 : wordBit pointer 15 = true) (hc : s.plat.indirectChain = .ignoreBit15) :
    deref s pointer = .ok (pointerAddress pointer) := by
  rw [deref, if_pos h15, hc]
  rfl

theorem deref_multilevel (h15 : wordBit pointer 15 = true) (hc : s.plat.indirectChain = .multilevel) :
    deref s pointer = derefChain s chainLimit pointer := by
  rw [deref, if_pos h15, hc]

theorem derefChain_clear (h15 : wordBit pointer 15 = false) (fuel : Nat) : derefChain s fuel pointer = .ok pointer := by
  cases fuel <;> simp [derefChain, h15]

theorem derefChain_zero_set (h15 : wordBit pointer 15 = true) : derefChain s 0 pointer = hang .hangIndirect := by
  rw [derefChain, if_pos h15]

theorem derefChain_succ_set (h15 : wordBit pointer 15 = true) (fuel : Nat) :
    derefChain s (fuel + 1) pointer = memRead s (pointerAddress pointer) >>= derefChain s fuel := by
  rw [derefChain, if_pos h15]

end

/-- Settles O12: the three values of INDIRECT_CHAIN, the last one a chain of one further pointer. -/
theorem pointerBit15ByParameter : Obligations.PointerBit15ByParameter := by
  intro s pointer
  rw [← pointerAddress_eq]
  refine ⟨deref_bit15_clear s, deref_refuse, deref_ignoreBit15, fun h15 hc hr hnext => ?_⟩
  rw [deref_multilevel h15 hc, chainLimit, derefChain_succ_set h15, memRead_readable hr, res_ok_bind, derefChain_clear hnext]

/-! ## Pointer chains -/

/-- The pointer that a pointer with bit 15 set leads to. -/
def nextPointer (s : State) (pointer : Word) : Word := wordAt s (pointerAddress pointer)

/-- The pointer that a chain comes to after `n` reads. -/
def pointerAfter (s : State) : Nat → Word → Word
  | 0, pointer => pointer
  | n + 1, pointer => pointerAfter s n (nextPointer s pointer)

theorem pointerAfter_add (s : State) (m n : Nat) (pointer : Word) :
    pointerAfter s (m + n) pointer = pointerAfter s n (pointerAfter s m pointer) := by
  induction m generalizing pointer with
  | zero => rw [Nat.zero_add, pointerAfter]
  | succ m ih => rw [Nat.succ_add, pointerAfter, ih, pointerAfter]

/-- The chain from this pointer goes on for `n` reads: each of its first `n + 1` pointers has bit 15 set, and each of the
first `n` leads to a readable word. -/
def ChainGoesOn (s : State) (n : Nat) (pointer : Word) : Prop :=
  (∀ k, k ≤ n → wordBit (pointerAfter s k pointer) 15 = true) ∧
    ∀ k, k < n → readable s (pointerAddress (pointerAfter s k pointer))

section
variable {s : State}

theorem chainGoesOn_succ_iff (n : Nat) (pointer : Word) :
    ChainGoesOn s (n + 1) pointer ↔ wordBit pointer 15 = true ∧ readable s (pointerAddress pointer) ∧
      ChainGoesOn s n (nextPointer s pointer) := by
  constructor
  · rintro ⟨hbit, hread⟩
    exact ⟨hbit 0 (by omega), hread 0 (by omega), fun k hk => hbit (k + 1) (by omega), fun k hk => hread (k + 1) (by omega)⟩
  · rintro ⟨hbit, hread, hbits, hreads⟩
    refine ⟨fun k hk => ?_, fun k hk => ?_⟩
    · match k with
      | 0 => exact hbit
      | k + 1 => exact hbits k (by omega)
    · match k with
      | 0 => exact hread
      | k + 1 => exact hreads k (by omega)

/-- The model's limit is reached exactly where the chain goes on. -/
theorem derefChain_hang_iff (n : Nat) (pointer : Word) :
    derefChain s n pointer = hang .hangIndirect ↔ ChainGoesOn s n pointer := by
  induction n generalizing pointer with
  | zero =>
    cases h15 : wordBit pointer 15 with
    | false =>
      rw [derefChain_clear h15]
      refine iff_of_false (fun h => by cases h) fun ⟨hbit, _⟩ => ?_
      exact Bool.noConfusion (h15.symm.trans (hbit 0 (by omega)))
    | true =>
      rw [derefChain_zero_set h15]
      refine iff_of_true rfl ⟨fun k hk => ?_, fun k hk => by omega⟩
      rwa [Nat.le_zero.mp hk, pointerAfter]
  | succ n ih =>
    rw [chainGoesOn_succ_iff]
    cases h15 : wordBit pointer 15 with
    | false =>
      rw [derefChain_clear h15]
      exact iff_of_false (fun h => by cases h) fun h => by cases h.1
    | true =>
      rw [derefChain_succ_set h15]
      by_cases hr : readable s (pointerAddress pointer)
      case neg =>
        rw [memRead_not_readable hr]
        exact iff_of_false (fun h => by cases h) fun ⟨_, hread, _⟩ => hr hread
      case pos =>
        rw [memRead_readable hr, res_ok_bind]
        exact (ih _).trans ⟨fun hgo => ⟨rfl, hr, hgo⟩, fun ⟨_, _, hgo⟩ => hgo⟩

/-- A chain that does not reach the limit ends the same way under a larger one. -/
theorem derefChain_stable {n : Nat} {pointer : Word} (h : derefChain s n pointer ≠ hang .hangIndirect) :
    derefChain s (n + 1) pointer = derefChain s n pointer := by
  induction n generalizing pointer with
  | zero =>
    cases h15 : wordBit pointer 15 with
    | false => rw [derefChain_clear h15, derefChain_clear h15]
    | true => exact absurd (derefChain_zero_set h15) h
  | succ n ih =>
    cases h15 : wordBit pointer 15 with
    | false => rw [derefChain_clear h15, derefChain_clear h15]
    | true =>
      rw [derefChain_succ_set h15] at h
      rw [derefChain_succ_set h15, derefChain_succ_set h15]
      by_cases hr : readable s (pointerAddress pointer)
      case neg =>
        rw [memRead_not_readable hr]
        rfl
      case pos =>
        rw [memRead_readable hr, res_ok_bind] at h ⊢
        exact ih h

theorem pointer_toNat {pointer : Word} (h15 : wordBit pointer 15 = true) : 32768 ≤ pointer.toNat := by
  have hmsb : pointer.msb = true := by rw [BitVec.msb_eq_getLsbD_last]; exact h15
  exact BitVec.le_toNat_of_msb_true hmsb

/-- The pigeonhole principle: `n + 1` numbers below `n` are not all different. -/
theorem repeats_of_lt (n : Nat) {f : Nat → Nat} (hf : ∀ k, k ≤ n → f k < n) : ∃ i j, i < j ∧ j ≤ n ∧ f i = f j := by
  induction n generalizing f with
  | zero => exact absurd (hf 0 (Nat.le_refl 0)) (Nat.not_lt_zero _)
  | succ n ih =>
    by_cases hlast : ∃ k, k ≤ n ∧ f k = f (n + 1)
    case pos =>
      obtain ⟨k, hk, heq⟩ := hlast
      exact ⟨k, n + 1, by omega, Nat.le_refl _, heq⟩
    case neg =>
      have hne : ∀ k, k ≤ n → f k ≠ f (n + 1) := fun k hk heq => hlast ⟨k, hk, heq⟩
      have hg : ∀ k, k ≤ n → (if f k = n then f (n + 1) else f k) < n := by
        intro k hk
        have hlt := hf k (by omega)
        have hltLast := hf (n + 1) (Nat.le_refl _)
        have hk := hne k hk
        split <;> omega
      obtain ⟨i, j, hij, hj, heq⟩ := ih hg
      have hi' := hne i (by omega)
      have hj' := hne j hj
      refine ⟨i, j, hij, by omega, ?_⟩
      split at heq <;> split at heq <;> omega

/-- Among 32769 pointers with bit 15 set, two are the same. -/
theorem chain_repeats {pointer : Word} (h : ChainGoesOn s chainLimit pointer) :
    ∃ i j, i < j ∧ j ≤ chainLimit ∧ pointerAfter s i pointer = pointerAfter s j pointer := by
  obtain ⟨hbit, -⟩ := h
  obtain ⟨i, j, hij, hj, heq⟩ := repeats_of_lt chainLimit (f := fun k => (pointerAfter s k pointer).toNat % 32768)
    fun k _ => Nat.mod_lt _ (by omega)
  have hi15 := pointer_toNat (hbit i (by omega))
  have hj15 := pointer_toNat (hbit j hj)
  have heq : (pointerAfter s i pointer).toNat % 32768 = (pointerAfter s j pointer).toNat % 32768 := heq
  exact ⟨i, j, hij, hj, BitVec.eq_of_toNat_eq (by omega)⟩

/-- After a repetition the chain visits only pointers it has visited. -/
theorem chain_visited {pointer : Word} {i j : Nat} (hij : i < j) (h : pointerAfter s i pointer = pointerAfter s j pointer)
    (k : Nat) : ∃ k', k' < j ∧ pointerAfter s k pointer = pointerAfter s k' pointer := by
  induction k using Nat.strongRecOn with
  | ind k ih =>
    by_cases hk : k < j
    case pos => exact ⟨k, hk, rfl⟩
    case neg =>
      obtain ⟨k', hk', heq⟩ := ih (i + (k - j)) (by omega)
      refine ⟨k', hk', ?_⟩
      calc pointerAfter s k pointer
        _ = pointerAfter s (k - j) (pointerAfter s j pointer) := by
          rw [← pointerAfter_add, Nat.add_sub_cancel' (Nat.not_lt.mp hk)]
        _ = pointerAfter s (i + (k - j)) pointer := by rw [← h, ← pointerAfter_add]
        _ = pointerAfter s k' pointer := heq

/-- R37: a chain that goes on for 32768 reads goes on for ever. -/
theorem chainGoesOn_forever {pointer : Word} (h : ChainGoesOn s chainLimit pointer) (n : Nat) : ChainGoesOn s n pointer := by
  obtain ⟨i, j, hij, hj, hsame⟩ := chain_repeats h
  obtain ⟨hbit, hread⟩ := h
  refine ⟨fun k _ => ?_, fun k _ => ?_⟩
  · obtain ⟨k', hk', heq⟩ := chain_visited hij hsame k
    rw [heq]
    exact hbit k' (by omega)
  · obtain ⟨k', hk', heq⟩ := chain_visited hij hsame k
    rw [heq]
    exact hread k' (by omega)

/-- Where the limit is not reached, and where the chain never ends, one read more or less makes no difference. -/
theorem derefChain_after_read {pointer : Word} (h15 : wordBit pointer 15 = true)
    (hr : readable s (pointerAddress pointer)) :
    derefChain s 32767 (nextPointer s pointer) = derefChain s chainLimit (nextPointer s pointer) := by
  by_cases hh : derefChain s 32767 (nextPointer s pointer) = hang .hangIndirect
  case neg => exact (derefChain_stable hh).symm
  case pos =>
    have hgo : ChainGoesOn s chainLimit pointer :=
      (chainGoesOn_succ_iff 32767 pointer).mpr ⟨h15, hr, (derefChain_hang_iff _ _).mp hh⟩
    obtain ⟨-, -, hnext⟩ := (chainGoesOn_succ_iff chainLimit pointer).mp (chainGoesOn_forever hgo _)
    rw [hh, (derefChain_hang_iff _ _).mpr hnext]

end

/-- Settles O13: by the pigeonhole principle on the 32768 pointers with bit 15 set, a chain that has not ended within the
limit never ends. -/
theorem multilevelIndirectionIsTheRecursion : Obligations.MultilevelIndirectionIsTheRecursion := by
  intro s pointer hc
  constructor
  · intro h15
    rw [deref_multilevel h15 hc, chainLimit, derefChain_succ_set h15]
    by_cases hr : readable s (pointerAddress pointer)
    case neg =>
      rw [memRead_not_readable hr]
      rfl
    case pos =>
      rw [memRead_readable hr, res_ok_bind, res_ok_bind]
      cases hn : wordBit (nextPointer s pointer) 15 with
      | false => exact (derefChain_clear hn _).trans (deref_bit15_clear s hn).symm
      | true => exact (derefChain_after_read h15 hr).trans (deref_multilevel hn hc).symm
  · cases h15 : wordBit pointer 15 with
    | false =>
      rw [deref_bit15_clear s h15]
      refine iff_of_false (fun h => by cases h) fun hall => ?_
      have hzero := hall 0
      rw [derefChain_clear h15] at hzero
      cases hzero
    | true =>
      rw [deref_multilevel h15 hc]
      refine ⟨fun h fuel => ?_, fun h => h chainLimit⟩
      exact (derefChain_hang_iff _ _).mpr (chainGoesOn_forever ((derefChain_hang_iff _ _).mp h) fuel)

end Sys2Proof.Machine
end

section
/-! The Memory Reference Group (40_memory_reference.md R82 to R95): the effects that read an operand, the stores, counts,
calls and jumps at an operand's address, and the stops that pass through them. -/

namespace Sys2Proof.Machine

/-! ## Instructions that read an operand -/

theorem compareEffect_eq (s : State) (r : Reg) (v : Word) :
    compareEffect s r v = { s with p := if v = s.reg r then s.p + 1#16 else s.p + 2#16,
                                   m := if v = s.reg r then s.p + 1#16 else s.p + 2#16 } := by
  have htarget : skipNextTarget s.p (v != s.reg r) = if v = s.reg r then s.p + 1#16 else s.p + 2#16 := by
    by_cases h : v = s.reg r <;> simp [skipNextTarget, h]
  rw [compareEffect, htarget]
  rfl

/-- Settles O15: the four forms reach one effect, which compares with A or with B. -/
theorem compareSkipsOnDifference : Obligations.CompareSkipsOnDifference := by
  intro s v
  have hA : ∀ {x : Res Word}, x = .ok v → outcome (x >>= fun w => pure (compareEffect s .A w)) = _ := fun h =>
    (outcome_operand_ok h (compareEffect s .A)).trans (congrArg _ (compareEffect_eq s .A v))
  have hB : ∀ {x : Res Word}, x = .ok v → outcome (x >>= fun w => pure (compareEffect s .B w)) = _ := fun h =>
    (outcome_operand_ok h (compareEffect s .B)).trans (congrArg _ (compareEffect_eq s .B v))
  exact ⟨fun _ => hA, fun _ _ => hA, fun _ => hB, fun _ _ => hB⟩

/-- Settles O16: the operand's word takes the register's place. -/
theorem loadTakesOperand : Obligations.LoadTakesOperand := fun s _ =>
  ⟨fun _ h => outcome_operand_ok h (loadEffect s .A), fun _ _ h => outcome_operand_ok h (loadEffect s .A),
   fun _ h => outcome_operand_ok h (loadEffect s .B), fun _ _ h => outcome_operand_ok h (loadEffect s .B)⟩

/-- Settles O17: A takes the combination of itself with the operand's word. -/
theorem logicCombinesIntoA : Obligations.LogicCombinesIntoA := fun s _ =>
  ⟨fun _ h => outcome_operand_ok h (orEffect s), fun _ _ h => outcome_operand_ok h (orEffect s),
   fun _ h => outcome_operand_ok h (andEffect s), fun _ _ h => outcome_operand_ok h (andEffect s)⟩

/-! ## Instructions that use an address -/

theorem outcome_address_ok {x : Res Word} {addr : Word} (h : x = .ok addr) (effect : Word → Res State) :
    outcome (x >>= effect) = outcome (effect addr) := by
  rw [h, res_ok_bind]

/-- Settles O23: P and M take the address itself. -/
theorem jumpGoesToOperandAddress : Obligations.JumpGoesToOperandAddress := fun s _ =>
  ⟨fun _ h => outcome_address_ok h fun addr => pure (s.goto addr),
   fun _ h => outcome_address_ok h fun addr => pure (s.goto addr)⟩

theorem outcome_stop {α : Type} {x : Res α} {stop : Stop} (h : x = .error stop) (effect : α → Res State) :
    outcome (x >>= effect) = outcome (.error stop) := by
  rw [h]
  rfl

/-- Settles O18: each form's first act is to find its operand or its address, and it goes no further. -/
theorem operandRefusalStopsTheInstruction : Obligations.OperandRefusalStopsTheInstruction := by
  intro s stop ref r i
  refine ⟨fun h instr hi => ?_, fun h instr hi => ?_, fun h instr hi => ?_, fun h instr hi => ?_⟩ <;>
    simp only [List.mem_cons, List.not_mem_nil, or_false] at hi
  · rcases hi with rfl | rfl | rfl | rfl | rfl | rfl | rfl | rfl <;> exact outcome_stop h _
  · rcases hi with rfl | rfl | rfl | rfl | rfl | rfl | rfl | rfl <;> exact outcome_stop h _
  · rcases hi with rfl | rfl | rfl | rfl | rfl | rfl <;> exact outcome_stop h _
  · rcases hi with rfl | rfl | rfl | rfl | rfl | rfl <;> exact outcome_stop h _

/-! ## Stores and counts -/

/-- The instruction `i` uses the operand address `addr` by this effect (R88, R89, R91, R93, R94). -/
def ActsAt (i : Instr) (s : State) (effect : Res State) : Prop := exec i s = outcome effect

section
variable {s : State} {addr : Word}

theorem sameWords_storedAt (s : State) (addr v : Word) : sameWordsExcept [addr] s (storedAt s addr v) :=
  fun _ _ hx => wordAt_storedAt_other (by simpa using hx) s v

/-- R88, R89: what a store leaves. -/
theorem stored_completes {i : Instr} {r : Reg} (hmem : s.mem.wf = true) (hw : writable s addr)
    (h : ActsAt i s (storeEffect s r addr)) :
    ∃ t, exec i s = .next t ∧ wordAt t addr = s.reg r ∧ sameWordsExcept [addr] s t ∧ sameRegisters s t ∧
      t.p = s.p + 1#16 ∧ t.m = s.p + 1#16 ∧ t.mem.wf = true := by
  rw [ActsAt, (storeEffect_ok_iff s r addr _).mpr ⟨hw, rfl⟩] at h
  exact ⟨_, h, wordAt_storedAt_same hmem hw.1 _, sameWords_storedAt s addr _, ⟨rfl, rfl, rfl, rfl, rfl, rfl⟩, rfl, rfl,
    storedAt_mem_wf hmem hw.1 _⟩

end

/-- Settles O19: the four forms are one store, of A or of B. -/
theorem storeWritesOnlyItsWord : Obligations.StoreWritesOnlyItsWord := by
  intro s addr hmem hw
  exact ⟨fun ref h => ⟨stored_completes (r := .A) hmem hw (outcome_address_ok h (storeEffect s .A)),
      stored_completes (r := .B) hmem hw (outcome_address_ok h (storeEffect s .B))⟩,
    fun r h => ⟨stored_completes (r := .A) hmem hw (outcome_address_ok h (storeEffect s .A)),
      stored_completes (r := .B) hmem hw (outcome_address_ok h (storeEffect s .B))⟩⟩

/-- R91, R93: the four forms count at their address, by one or by 2^16 less one. -/
theorem counts_at {s : State} {addr : Word} {i : Instr} {count : Nat}
    (h : (∃ ref, memFormAddress s ref = .ok addr ∧ (i = .isz ref ∧ count = 1 ∨ i = .dsz ref ∧ count = 65535)) ∨
      (∃ r, regFormAddress s r = .ok addr ∧ (i = .iszReg r ∧ count = 1 ∨ i = .dszReg r ∧ count = 65535))) :
    exec i s = outcome (countEffect s (BitVec.ofNat 16 count) addr) := by
  rcases h with ⟨ref, ha, ⟨rfl, rfl⟩ | ⟨rfl, rfl⟩⟩ | ⟨r, ha, ⟨rfl, rfl⟩ | ⟨rfl, rfl⟩⟩
  · exact outcome_address_ok ha (countEffect s 1#16)
  · exact outcome_address_ok ha (countEffect s (-1#16))
  · exact outcome_address_ok ha (countEffect s 1#16)
  · exact outcome_address_ok ha (countEffect s (-1#16))

theorem add_ofNat_toNat (x : Word) (count : Nat) : (x + BitVec.ofNat 16 count).toNat = (x.toNat + count) % 65536 := by
  rw [BitVec.toNat_add, BitVec.toNat_ofNat, Nat.add_mod_mod]

/-- R91, R93: the skip of a count is on a sum of zero modulo 2^16. -/
theorem countTarget_eq (p x : Word) (count : Nat) :
    skipNextTarget p (x + BitVec.ofNat 16 count == 0#16) =
      p + (if (x.toNat + count) % 65536 = 0 then 2#16 else 1#16) := by
  have hz : x + BitVec.ofNat 16 count = 0#16 ↔ (x.toNat + count) % 65536 = 0 := by
    rw [← add_ofNat_toNat, BitVec.toNat_eq]
    rfl
  by_cases h : (x.toNat + count) % 65536 = 0
  case pos => rw [if_pos h, hz.mpr h]; rfl
  case neg => rw [if_neg h, beq_eq_false_iff_ne.mpr (mt hz.mp h)]; rfl

/-- Settles O20: the sum is written back, and its being zero decides the skip. -/
theorem countSkipsOnZero : Obligations.CountSkipsOnZero := by
  intro s addr hmem hw i count hi
  have hex := counts_at hi
  rw [(countEffect_ok_iff s _ addr _).mpr ⟨hw, rfl⟩] at hex
  refine ⟨_, hex, ?_, sameWords_storedAt s addr _, ⟨rfl, rfl, rfl, rfl, rfl, rfl⟩, countTarget_eq _ _ _, rfl,
    storedAt_mem_wf hmem hw.1 _⟩
  change (wordAt (storedAt s addr _) addr).toNat = _
  rw [wordAt_storedAt_same hmem hw.1, add_ofNat_toNat]

/-! ## Calls -/

/-- R94: both forms call their target. -/
theorem calls_target {s : State} {target : Word} {i : Instr}
    (h : (∃ ref, i = .jsm ref ∧ memFormAddress s ref = .ok target) ∨ (∃ r, i = .jsmReg r ∧ regFormAddress s r = .ok target)) :
    exec i s = outcome (callEffect s target) := by
  rcases h with ⟨ref, rfl, ha⟩ | ⟨r, rfl, ha⟩
  · exact outcome_address_ok ha (callEffect s)
  · exact outcome_address_ok ha (callEffect s)

/-- The state after a call: its own address on the stack, the stack pointer one higher, control at the target. -/
def called (s : State) (target : Word) : State :=
  (storedAt (storedAt s (wordAt s Config.spAddr) s.p) Config.spAddr (wordAt s Config.spAddr + 1#16)).goto target

section
variable {s : State} (hmem : s.mem.wf = true) (hw : writable s (wordAt s Config.spAddr))
include hmem hw

theorem called_mem_wf (target : Word) : (called s target).mem.wf = true :=
  storedAt_mem_wf (storedAt_mem_wf hmem hw.1 _) (writable_spAddr s).1 _

theorem wordAt_called (target x : Word) :
    wordAt (called s target) x = if x = Config.spAddr then wordAt s Config.spAddr + 1#16
      else if x = wordAt s Config.spAddr then s.p else wordAt s x := by
  change wordAt (storedAt (storedAt s _ _) _ _) x = _
  rw [wordAt_storedAt (storedAt_mem_wf hmem hw.1 _) (writable_spAddr s).1, wordAt_storedAt hmem hw.1]

end

/-- Settles O22: the two words of the stack change, and nothing else but P and M. -/
theorem callPushesItsAddress : Obligations.CallPushesItsAddress := by
  intro s target hmem hw hne i hi
  have hex := calls_target hi
  rw [(callEffect_ok_iff s target _).mpr ⟨hne, hw, rfl⟩] at hex
  refine ⟨called s target, hex, ?_, ?_, fun x _ hx => ?_, ⟨rfl, rfl, rfl, rfl, rfl, rfl⟩, rfl, rfl,
    called_mem_wf hmem hw target⟩
  · rw [wordAt_called hmem hw, if_neg hne, if_pos rfl]
  · rw [wordAt_called hmem hw, if_pos rfl]
  · obtain ⟨h1, h2⟩ : x ≠ wordAt s Config.spAddr ∧ x ≠ Config.spAddr := by simpa using hx
    rw [wordAt_called hmem hw, if_neg h2, if_neg h1]

end Sys2Proof.Machine
end

section
/-! Shift-Rotate, Alter-Skip and the complements (41_shift_rotate.md, 42_alter_skip.md R130 to R145,
43_complement_execute_dma.md R160 to R163): the words they compute, in numbers and bit by bit. -/

namespace Sys2Proof.Machine

/-! ## Shifts and rotations -/

/-- R111: the quotient rounds down. -/
theorem arithmeticRight_toInt (x : Word) (n : Nat) : (arithmeticRight x n).toInt = x.toInt / 2 ^ n := by
  rw [arithmeticRight, BitVec.toInt_sshiftRight, Int.shiftRight_eq_div_pow]
  norm_cast

/-- R111: the sign fills the vacated bits, and the bit it came from. -/
theorem arithmeticRight_sign (x : Word) {n k : Nat} (hk : 15 - n ≤ k) (hk16 : k < 16) :
    wordBit (arithmeticRight x n) k = wordBit x 15 := by
  rw [wordBit, arithmeticRight, BitVec.getLsbD_sshiftRight, decide_eq_false (by omega), Bool.not_false, Bool.true_and]
  split
  case isTrue hlt => rw [show n + k = 15 by omega, wordBit]
  case isFalse => rw [BitVec.msb_eq_getLsbD_last, wordBit]

/-- Settles O25: one shift, of A or of B. -/
theorem arithmeticRightShiftIsFloorDivision : Obligations.ArithmeticRightShiftIsFloorDivision := fun s n _ _ =>
  ⟨⟨arithmeticRight s.a n, arithmeticRight_toInt s.a n, fun _ => arithmeticRight_sign s.a, rfl⟩,
   ⟨arithmeticRight s.b n, arithmeticRight_toInt s.b n, fun _ => arithmeticRight_sign s.b, rfl⟩⟩

/-- R113: a quotient. -/
theorem logicalRight_eq (x : Word) (n : Nat) : logicalRight x n = BitVec.ofNat 16 (x.toNat / 2 ^ n) := by
  apply BitVec.eq_of_toNat_eq
  have hlt : x.toNat / 2 ^ n < 2 ^ 16 := Nat.lt_of_le_of_lt (Nat.div_le_self _ _) x.isLt
  rw [logicalRight, BitVec.toNat_ushiftRight, Nat.shiftRight_eq_div_pow, BitVec.toNat_ofNat, Nat.mod_eq_of_lt hlt]

/-- R115: a product modulo 2^16. -/
theorem logicalLeft_eq (x : Word) (n : Nat) : logicalLeft x n = BitVec.ofNat 16 (x.toNat * 2 ^ n) := by
  apply BitVec.eq_of_toNat_eq
  rw [logicalLeft, BitVec.toNat_shiftLeft, Nat.shiftLeft_eq, BitVec.toNat_ofNat]

/-- Settles O26: the two shifts in numbers, on A and on B. -/
theorem logicalShiftsDivideAndMultiply : Obligations.LogicalShiftsDivideAndMultiply := by
  intro s n _ _
  rw [← logicalRight_eq, ← logicalRight_eq, ← logicalLeft_eq, ← logicalLeft_eq]
  exact ⟨rfl, rfl, rfl, rfl⟩

/-- R117: bit k comes from bit k + n, counted round. -/
theorem rotatedRight_bit (x : Word) (n : Nat) {k : Nat} (hk : k < 16) :
    wordBit (rotatedRight x n) k = wordBit x ((k + n) % 16) := by
  rw [wordBit, rotatedRight, BitVec.getLsbD_rotateRight, wordBit]
  by_cases h : k < 16 - n % 16
  case pos =>
    rw [decide_eq_true h]
    exact congrArg x.getLsbD (by omega)
  case neg =>
    rw [decide_eq_false h, decide_eq_true hk, Bool.true_and]
    exact congrArg x.getLsbD (by omega)

theorem rotatedRight_all (x : Word) : rotatedRight x 16 = x := by
  apply BitVec.eq_of_getLsbD_eq
  intro k hk
  have h := rotatedRight_bit x 16 hk
  rwa [Nat.add_mod_right, Nat.mod_eq_of_lt hk] at h

/-- Settles O27: one rotation, of A or of B. -/
theorem rotateMovesEveryBitRound : Obligations.RotateMovesEveryBitRound := fun s n _ _ =>
  ⟨⟨rotatedRight s.a n, fun _ => rotatedRight_bit s.a n, fun h => h ▸ rotatedRight_all s.a, rfl⟩,
   ⟨rotatedRight s.b n, fun _ => rotatedRight_bit s.b n, fun h => h ▸ rotatedRight_all s.b, rfl⟩⟩

/-! ## Tests of a whole register -/

/-- R132, R133: the target of a skip on zero. -/
theorem skipTarget_zero (p x : Word) (n : Int) :
    skipTarget p (x == 0#16) n = if x = 0#16 then BitVec.ofInt 16 (p.toNat + n) else BitVec.ofInt 16 (p.toNat + 1) := by
  rw [skipTarget_eq]
  by_cases h : x = 0#16 <;> simp [h]

/-- R134, R135: the target of a skip on not zero. -/
theorem skipTarget_nonzero (p x : Word) (n : Int) :
    skipTarget p (x != 0#16) n = if x = 0#16 then BitVec.ofInt 16 (p.toNat + 1) else BitVec.ofInt 16 (p.toNat + n) := by
  rw [skipTarget_eq]
  by_cases h : x = 0#16 <;> simp [h]

/-- Settles O28: the four tests, by the target each skips to. -/
theorem zeroTestSkips : Obligations.ZeroTestSkips := by
  intro s n
  dsimp only
  simp only [← skipTarget_zero, ← skipTarget_nonzero]
  exact ⟨rfl, rfl, rfl, rfl⟩

/-- Settles O29: the same targets, computed from the register before its increment. -/
theorem incrementSkipsOnTheOldValue : Obligations.IncrementSkipsOnTheOldValue := by
  intro s n
  have hinc : ∀ x : Word, BitVec.ofNat 16 (x.toNat + 1) = x + 1#16 := fun x => (BitVec.add_def x 1#16).symm
  dsimp only
  simp only [← skipTarget_zero, ← skipTarget_nonzero, hinc]
  exact ⟨rfl, rfl, rfl, rfl⟩

/-! ## Tests of one bit -/

/-- R131: the bit altered, set winning over clear, and the others. -/
theorem alterWordBit_bit (set clear : Bool) {i : Nat} (hi : i < 16) (x : Word) {k : Nat} (hk : k < 16) :
    wordBit (alterWordBit set clear i x) k =
      if k = i then (if set then true else if clear then false else wordBit x k) else wordBit x k := by
  have hbit : wordBit (1#16 <<< i) k = decide (k = i) := by
    rw [wordBit, BitVec.getLsbD_shiftLeft, BitVec.getLsbD_one, decide_eq_true hk]
    by_cases h : k = i
    case pos => simp [h]
    case neg =>
      by_cases hlt : k < i
      case pos => simp [hlt, h]
      case neg => simp [hlt, h, show k - i ≠ 0 by omega]
  have hset : wordBit (x ||| (1#16 <<< i)) k = (wordBit x k || wordBit (1#16 <<< i) k) := BitVec.getLsbD_or
  have hclear : wordBit (x &&& ~~~(1#16 <<< i)) k = (wordBit x k && !wordBit (1#16 <<< i) k) := by
    rw [wordBit_and, wordBit, wordBit, wordBit, BitVec.getLsbD_not, decide_eq_true hk, Bool.true_and]
  rw [hbit] at hset hclear
  by_cases h : k = i
  case pos =>
    subst h
    cases set with
    | true => simpa [alterWordBit] using hset
    | false => cases clear <;> simp [alterWordBit, hclear]
  case neg =>
    cases set with
    | true => simpa [alterWordBit, h] using hset
    | false => cases clear <;> simp [alterWordBit, h, hclear]

/-- R140 to R145: a bit test ends with its bit altered and P and M at the target of its skip. -/
theorem testAlterEffect_A (s : State) (bit : Nat) (cond set clear : Bool) (n : Int) :
    testAlterEffect s .A bit cond set clear n =
      { s with a := alterWordBit set clear bit s.a, p := BitVec.ofInt 16 (s.p.toNat + if cond then n else 1),
               m := BitVec.ofInt 16 (s.p.toNat + if cond then n else 1) } := by
  rw [testAlterEffect, skipTarget_eq]
  rfl

theorem testAlterEffect_B (s : State) (bit : Nat) (cond set clear : Bool) (n : Int) :
    testAlterEffect s .B bit cond set clear n =
      { s with b := alterWordBit set clear bit s.b, p := BitVec.ofInt 16 (s.p.toNat + if cond then n else 1),
               m := BitVec.ofInt 16 (s.p.toNat + if cond then n else 1) } := by
  rw [testAlterEffect, skipTarget_eq]
  rfl

/-- Settles O30: the six tests share one effect, on bit 0 or bit 15 of A or of B. -/
theorem bitTestAltersAfterTheTest : Obligations.BitTestAltersAfterTheTest := by
  intro s n set clear
  have haltered : ∀ (x : Word) {i : Nat}, i < 16 → ∀ k, k < 16 → wordBit (alterWordBit set clear i x) k = _ :=
    fun x _ hi _ hk => alterWordBit_bit set clear hi x hk
  have hA : ∀ bit cond, Host.Outcome.next (φ := Fault) (ρ := Refusal) (testAlterEffect s .A bit cond set clear n) = _ :=
    fun bit cond => congrArg _ (testAlterEffect_A s bit cond set clear n)
  have hB : ∀ bit cond, Host.Outcome.next (φ := Fault) (ρ := Refusal) (testAlterEffect s .B bit cond set clear n) = _ :=
    fun bit cond => congrArg _ (testAlterEffect_B s bit cond set clear n)
  exact ⟨⟨_, haltered s.a (by omega), hA 0 _⟩, ⟨_, haltered s.b (by omega), hB 0 _⟩, ⟨_, haltered s.a (by omega), hA 15 _⟩,
    ⟨_, haltered s.b (by omega), hB 15 _⟩, ⟨_, haltered s.a (by omega), hA 15 _⟩, ⟨_, haltered s.b (by omega), hB 15 _⟩⟩

/-! ## Complements -/

theorem onesComplement_eq (x : Word) : onesComplement x = BitVec.ofNat 16 (65535 - x.toNat) := by
  apply BitVec.eq_of_toNat_eq
  rw [onesComplement, BitVec.toNat_not, BitVec.toNat_ofNat]
  omega

theorem twosComplement_eq (x : Word) : twosComplement x = BitVec.ofNat 16 (65536 - x.toNat) := by
  apply BitVec.eq_of_toNat_eq
  rw [twosComplement, BitVec.toNat_add, BitVec.toNat_not, BitVec.toNat_ofNat, BitVec.toNat_ofNat]
  omega

/-- Settles O32: the two complements in numbers, of A and of B. -/
theorem complementsReplaceTheRegister : Obligations.ComplementsReplaceTheRegister := by
  intro s
  rw [← onesComplement_eq, ← onesComplement_eq, ← twosComplement_eq, ← twosComplement_eq]
  exact ⟨rfl, rfl, rfl, rfl⟩

end Sys2Proof.Machine
end

section
/-! EXA, EXB and DMA (43_complement_execute_dma.md R164 to R166, 10_state.md R20), and the run that rests at a jump to
itself. -/

namespace Sys2Proof.Machine

section
variable {s : State}

theorem exec_exa (s : State) : exec .exa s = executeWord 2 s s.a := rfl

theorem exec_exb (s : State) : exec .exb s = executeWord 2 s s.b := rfl

/-- Settles O33: the first word already ends the chain. -/
theorem executeRunsTheRegistersWord : Obligations.ExecuteRunsTheRegistersWord := fun _ =>
  ⟨fun _ h ha hb => executeWord_ok h ha hb 1, fun _ h ha hb => executeWord_ok h ha hb 1,
   fun _ h => executeWord_error h 1, fun _ h => executeWord_error h 1⟩

/-- Two words that are EXA or EXB exhaust the chain. -/
theorem executeWord_one_hangs {w : Word} (h : decode s.plat w = .ok .exa ∨ decode s.plat w = .ok .exb) :
    executeWord 1 s w = .fault .hangExecute := by
  rcases h with h | h
  · exact executeWord_exa h 0
  · exact executeWord_exb h 0

/-- Settles O35: the second word ends the chain, or is EXA or EXB again. -/
theorem executeChainsOrHangs : Obligations.ExecuteChainsOrHangs := by
  intro s
  refine ⟨fun i hA hB ha hb => ?_, fun i hB hA ha hb => ?_, fun e hA hB => ?_, fun e hB hA => ?_, fun hA => ?_,
    fun hB => ?_, fun hA hB => ?_, fun hB hA => ?_⟩
  · rw [exec_exa, executeWord_exb hA, executeWord_ok hB ha hb]
  · rw [exec_exb, executeWord_exa hB, executeWord_ok hA ha hb]
  · rw [exec_exa, executeWord_exb hA, executeWord_error hB]
  · rw [exec_exb, executeWord_exa hB, executeWord_error hA]
  · rw [exec_exa, executeWord_exa hA, executeWord_one_hangs (.inl hA)]
  · rw [exec_exb, executeWord_exb hB, executeWord_one_hangs (.inr hB)]
  · rw [exec_exa, executeWord_exb hA, executeWord_one_hangs hB]
  · rw [exec_exb, executeWord_exa hB, executeWord_one_hangs hA]

/-- An instruction on A, B and E alone completes, with memory as it was. -/
theorem registerOnly_completes {i : Instr} (h : registerOnly i = true) (s : State) :
    ∃ t, exec i s = .next t ∧ t.mem = s.mem := by
  cases i with
  | adaReg r ind | adbReg r ind | cpaReg r ind | cpbReg r ind | ldaReg r ind | ldbReg r ind | iorReg r ind | andReg r ind =>
    cases ind with
    | false => exact ⟨_, rfl, rfl⟩
    | true => cases h
  | aar n | abr n | sar n | sbr n | sal n | sbl n | rar n | rbr n => exact ⟨_, rfl, rfl⟩
  | sza n | szb n | rza n | rzb n | sia n | sib n | ria n | rib n => exact ⟨_, rfl, rfl⟩
  | sla n set clear | slb n set clear | sam n set clear | sbm n set clear => exact ⟨_, rfl, rfl⟩
  | sap n set clear | sbp n set clear | ses n set clear | sec n set clear => exact ⟨_, rfl, rfl⟩
  | cma | cmb | tca | tcb | mov => exact ⟨_, rfl, rfl⟩
  | _ => cases h

/-- Settles O34: such an instruction is neither EXA nor EXB, so its word runs as it does itself. -/
theorem executeCompletesOnRegisterInstructions : Obligations.ExecuteCompletesOnRegisterInstructions := by
  intro s i h
  obtain ⟨t, hex, hmem⟩ := registerOnly_completes h s
  have hwords : sameWordsExcept [] s t := fun addr _ _ => by rw [wordAt, wordAt, hmem]
  have ha : i ≠ .exa := by rintro rfl; cases h
  have hb : i ≠ .exb := by rintro rfl; cases h
  exact ⟨fun hd => ⟨t, (executeWord_ok hd ha hb 1).trans hex, hex, hwords⟩,
    fun hd => ⟨t, (executeWord_ok hd ha hb 1).trans hex, hex, hwords⟩⟩

/-! ## DMA -/

/-- Settles O36: the two values of the DMA control. -/
theorem dmaHandsOverAndWaits : Obligations.DmaHandsOverAndWaits := by
  intro s
  constructor <;> intro h <;> change execDma s = _ <;> rw [execDma, h]
  rfl

theorem step_waiting (hw : s.dmaWait = true) : step s = dmaWaiting s := if_pos hw

/-- R20: a fitted control always answers. -/
theorem dmaWaiting_fitted (h : s.plat.dmaAgent = .fitted) : ∃ t, dmaWaiting s = .next t := by
  rw [dmaWaiting, h]
  cases Config.dmaRelease s.freeCount s.a s.b with
  | none => exact ⟨_, rfl⟩
  | some r => exact ⟨_, rfl⟩

/-- Settles O37: while waiting, a step counts a free value or is the release, whose stores stay in RW memory. -/
theorem waitingProcessorExecutesNothing : Obligations.WaitingProcessorExecutesNothing := by
  intro s hw
  refine ⟨fun h => ?absent, fun t h => ?step, fun h => ?fitted⟩
  case absent => rw [step_waiting hw, dmaWaiting, h]
  case fitted =>
    rw [step_waiting hw]
    exact dmaWaiting_fitted h
  case step =>
    have hplat := step_plat h
    have hwords := fun addr (_ : wordBit addr 15 = false) ha => step_wordAt_not_rw (addr := addr) h ha
    rw [step_waiting hw] at h
    rcases dmaWaiting_next h with rfl | ⟨r, rfl⟩
    · exact ⟨fun _ => rfl, fun hd => absurd (hw.symm.trans hd) (by simp)⟩
    · exact ⟨fun hd => (by cases hd), fun _ => ⟨rfl, hplat, hwords⟩⟩

/-! ## The end of a run -/

/-- Settles O24: the jump is fetched and executed, and ends in the state it began in. -/
theorem jumpToItselfRestsForEver : Obligations.JumpToItselfRestsForEver := by
  intro s ref hw hm hr _ hd ha k
  have hstep : step s = .next s := by
    rw [step_of_fetch hw (fetchInstr_ok hr hd), loadM_eq_self s hm]
    refine (outcome_address_ok ha fun addr => pure (s.goto addr)).trans ?_
    exact congrArg _ (loadM_eq_self s hm)
  induction k with
  | zero => rfl
  | succ k ih => rw [run_next hstep, ih]

end

end Sys2Proof.Machine
end

section
/-! RET, and the instructions that go through the four words of a register in ascending order (44_mac.md R180, R182, R183,
R198): what they leave, and which word's refusal they report. -/

namespace Sys2Proof.Machine

/-! ## RET -/

/-- The state after a return: the stack pointer one lower, control after the popped address. -/
def returned (s : State) : State :=
  (storedAt s Config.spAddr (wordAt s Config.spAddr - 1#16)).goto (wordAt s (wordAt s Config.spAddr - 1#16) + 1#16)

section
variable {s : State}

theorem memRead_spAddr (s : State) : memRead s Config.spAddr = .ok (wordAt s Config.spAddr) :=
  memRead_readable (readable_of_writable (writable_spAddr s))

theorem exec_ret (hr : readable s (wordAt s Config.spAddr - 1#16)) (hne : wordAt s Config.spAddr - 1#16 ≠ Config.spAddr) :
    exec .ret s = .next (returned s) := by
  change execRet s = _
  rw [execRet, memRead_spAddr, res_ok_bind, if_neg hne, memRead_readable hr, res_ok_bind,
    memWrite_writable (writable_spAddr s), res_ok_bind]
  rfl

theorem exec_ret_aliased (h : wordAt s Config.spAddr - 1#16 = Config.spAddr) : exec .ret s = .refused .stackAliasesSp := by
  change execRet s = _
  rw [execRet, memRead_spAddr, res_ok_bind, if_pos h]
  rfl

theorem exec_ret_refused (h : ¬ readable s (wordAt s Config.spAddr - 1#16)) :
    exec .ret s = .refused (accessRefusal (wordAt s Config.spAddr - 1#16)) := by
  have hne : wordAt s Config.spAddr - 1#16 ≠ Config.spAddr := fun he =>
    h (by rw [he]; exact readable_of_writable (writable_spAddr s))
  change execRet s = _
  rw [execRet, memRead_spAddr, res_ok_bind, if_neg hne, memRead_not_readable h]
  rfl

theorem wordAt_returned (hmem : s.mem.wf = true) (x : Word) :
    wordAt (returned s) x = if x = Config.spAddr then wordAt s Config.spAddr - 1#16 else wordAt s x :=
  wordAt_storedAt hmem (writable_spAddr s).1 _ x

end

/-- Settles O38: only the stack pointer word changes. -/
theorem returnPopsAndAddsOne : Obligations.ReturnPopsAndAddsOne := by
  intro s hmem hr hne
  refine ⟨returned s, exec_ret hr hne, rfl, rfl, ?_, fun x _ hx => ?_, ⟨rfl, rfl, rfl, rfl, rfl, rfl⟩,
    storedAt_mem_wf hmem (writable_spAddr s).1 _⟩
  · rw [wordAt_returned hmem, if_pos rfl]
  · rw [wordAt_returned hmem, if_neg (by simpa using hx)]

/-- A JSM that answers has found its target and called it. -/
theorem called_of_jsm {s t : State} (h : (∃ ref, exec (.jsm ref) s = .next t) ∨ (∃ r, exec (.jsmReg r) s = .next t)) :
    ∃ target, wordAt s Config.spAddr ≠ Config.spAddr ∧ writable s (wordAt s Config.spAddr) ∧ t = called s target := by
  have hcall : ∀ x : Res Word, outcome (x >>= callEffect s) = .next t → ∃ target, callEffect s target = .ok t := by
    intro x hx
    obtain ⟨target, -, ht⟩ := (res_bind_ok_iff _ _ _).mp ((outcome_next_iff _ _).mp hx)
    exact ⟨target, ht⟩
  obtain ⟨target, ht⟩ : ∃ target, callEffect s target = .ok t := by
    rcases h with ⟨ref, h⟩ | ⟨r, h⟩
    · exact hcall (memFormAddress s ref) h
    · exact hcall (regFormAddress s r) h
  exact ⟨target, (callEffect_ok_iff s target t).mp ht⟩

/-- Settles O39: the word that RET pops is the one that JSM pushed, and the stack pointer goes up and down again. -/
theorem callThenReturnComesBack : Obligations.CallThenReturnComesBack := by
  intro s t hmem h
  obtain ⟨target, hne, hw, rfl⟩ := called_of_jsm h
  have hsp : wordAt (called s target) Config.spAddr - 1#16 = wordAt s Config.spAddr := by
    rw [wordAt_called hmem hw, if_pos rfl, BitVec.add_sub_cancel]
  have hr : readable (called s target) (wordAt s Config.spAddr) := readable_of_writable hw
  have hmem' := called_mem_wf hmem hw target
  have hp : wordAt (called s target) (wordAt s Config.spAddr) + 1#16 = s.p + 1#16 := by
    rw [wordAt_called hmem hw, if_neg hne, if_pos rfl]
  have hpop := exec_ret (s := called s target) (by rw [hsp]; exact hr) (by rw [hsp]; exact hne)
  refine ⟨returned (called s target), hpop, ?_, ?_, ?_, fun x _ hx => ?_,
    ⟨rfl, rfl, rfl, rfl, rfl, rfl⟩⟩
  · change wordAt (called s target) (wordAt (called s target) Config.spAddr - 1#16) + 1#16 = _
    rw [hsp, hp]
  · change wordAt (called s target) (wordAt (called s target) Config.spAddr - 1#16) + 1#16 = _
    rw [hsp, hp]
  · rw [wordAt_returned hmem', if_pos rfl, hsp]
  · rw [wordAt_returned hmem', hsp]
    split
    case isTrue hx' => rw [hx']
    case isFalse hx' => rw [wordAt_called hmem hw, if_neg hx', if_neg (by simpa using hx)]

/-! ## Accesses in ascending order -/

/-- `count` actions, numbered from `start` on, one after the other. -/
def inOrder (act : Nat → State → Res State) : Nat → Nat → State → Res State
  | _, 0, s => pure s
  | start, count + 1, s => act start s >>= inOrder act (start + 1) count

theorem inOrder_ok {act : Nat → State → Res State} {states : Nat → State} {start count : Nat}
    (h : ∀ k, start ≤ k → k < start + count → act k (states k) = .ok (states (k + 1))) :
    inOrder act start count (states start) = .ok (states (start + count)) := by
  induction count generalizing start with
  | zero => rfl
  | succ count ih =>
    rw [inOrder, h start (by omega) (by omega), res_ok_bind, ih fun k hk hlt => h k (by omega) (by omega),
      Nat.add_assoc, Nat.add_comm 1 count]

/-- The first action that is refused refuses the whole, where every action keeps the parameters, which alone decide. -/
theorem inOrder_refused {act : Nat → State → Res State} {r : Refusal} {plat : Config.Platform} {start count k : Nat}
    (hk : start ≤ k) (hlt : k < start + count)
    (hpre : ∀ j, start ≤ j → j < k → ∀ u : State, u.plat = plat → ∃ v : State, act j u = .ok v ∧ v.plat = plat)
    (hstop : ∀ u : State, u.plat = plat → act k u = refuse r) {s : State} (hs : s.plat = plat) :
    inOrder act start count s = refuse r := by
  induction count generalizing start s with
  | zero => omega
  | succ count ih =>
    rw [inOrder]
    by_cases heq : start = k
    case pos =>
      rw [heq, hstop s hs]
      rfl
    case neg =>
      obtain ⟨v, hv, hvplat⟩ := hpre start (Nat.le_refl _) (by omega) s hs
      rw [hv, res_ok_bind]
      exact ih (by omega) (by omega) (fun j hj => hpre j (by omega)) hvplat

/-- The word `k` places after `base`. -/
def wordNo (base : Word) (k : Nat) : Word := base + BitVec.ofNat 16 k

theorem wordNo_zero (base : Word) : wordNo base 0 = base := BitVec.add_zero base

theorem clearFour_eq_inOrder (s : State) (base : Word) :
    clearFour s base = inOrder (fun k u => memWrite u (wordNo base k) 0#16) 0 4 s := by
  simp only [inOrder, wordNo_zero, bind_pure]
  rfl

theorem copyFour_eq_inOrder (s : State) (source dest : Word) :
    copyFour s source dest = inOrder (fun k u => copyWord u (wordNo source k) (wordNo dest k)) 0 4 s := by
  simp only [inOrder, wordNo_zero, bind_pure]
  rfl

theorem touchFour_eq_inOrder (s : State) (base : Word) :
    (touchFour s base >>= fun _ => pure s) = inOrder (fun k u => memRead u (wordNo base k) >>= fun _ => pure u) 0 4 s := by
  simp only [inOrder, wordNo_zero, touchFour, bind_assoc, pure_bind]
  rfl

/-! ## Refusals of CLR, XFR and MDI -/

section
variable {s : State} {k : Nat} (hk : k < 4)
include hk

theorem clearFour_refused {base : Word} (hpre : ∀ j, j < k → writable s (wordNo base j))
    (hstop : ¬ writable s (wordNo base k)) : clearFour s base = refuse (accessRefusal (wordNo base k)) := by
  rw [clearFour_eq_inOrder]
  refine inOrder_refused (k := k) (by omega) (by omega) (fun j _ hj u hu => ?_) (fun u hu => ?_) rfl
  · exact ⟨_, memWrite_writable ((writable_congr hu _).mpr (hpre j hj)) _, hu⟩
  · exact memWrite_not_writable (mt (writable_congr hu _).mp hstop) _

theorem copyFour_refused {source dest : Word} {r : Refusal}
    (hpre : ∀ j, j < k → readable s (wordNo source j) ∧ writable s (wordNo dest j))
    (hstop : ∀ u : State, u.plat = s.plat → copyWord u (wordNo source k) (wordNo dest k) = refuse r) :
    copyFour s source dest = refuse r := by
  rw [copyFour_eq_inOrder]
  refine inOrder_refused (k := k) (by omega) (by omega) (fun j _ hj u hu => ?_) hstop rfl
  obtain ⟨hr, hw⟩ := hpre j hj
  exact ⟨_, (copyWord_ok_iff _ _ _ _).mpr ⟨(readable_congr hu _).mpr hr, (writable_congr hu _).mpr hw, rfl⟩, hu⟩

theorem touchFour_refused {base : Word} (hpre : ∀ j, j < k → readable s (wordNo base j))
    (hstop : ¬ readable s (wordNo base k)) : touchFour s base = refuse (accessRefusal (wordNo base k)) := by
  have h : (touchFour s base >>= fun _ => pure s) = refuse (accessRefusal (wordNo base k)) := by
    rw [touchFour_eq_inOrder]
    refine inOrder_refused (k := k) (by omega) (by omega) (fun j _ hj u hu => ?_) (fun u hu => ?_) rfl
    · rw [memRead_readable ((readable_congr hu _).mpr (hpre j hj))]
      exact ⟨u, rfl, hu⟩
    · rw [memRead_not_readable (mt (readable_congr hu _).mp hstop)]
      rfl
  match ht : touchFour s base with
  | .ok _ => rw [ht] at h; cases h
  | .error e =>
    have he : (.error e : Res State) = refuse (accessRefusal (wordNo base k)) := by rw [ht] at h; exact h
    cases he
    rfl

end

theorem copyWord_source_refused {u : State} {source : Word} (h : ¬ readable u source) (dest : Word) :
    copyWord u source dest = refuse (accessRefusal source) := by
  rw [copyWord, memRead_not_readable h]
  rfl

theorem copyWord_dest_refused {u : State} {source dest : Word} (hr : readable u source) (h : ¬ writable u dest) :
    copyWord u source dest = refuse (accessRefusal dest) := by
  rw [copyWord, memRead_readable hr, res_ok_bind, memWrite_not_writable h]

/-- R183: the two ranges coincide or are apart. -/
def Apart (x y : Word) : Prop := x = y ∨ x.toNat + 4 ≤ y.toNat ∨ y.toNat + 4 ≤ x.toNat

theorem partlyOverlap_eq_false {x y : Word} (h : Apart x y) : partlyOverlap x y = false := by
  rcases h with rfl | h | h
  · simp [partlyOverlap]
  · simp [partlyOverlap, show ¬ y.toNat < x.toNat + 4 by omega]
  · simp [partlyOverlap, show ¬ x.toNat < y.toNat + 4 by omega]

theorem exec_xfr_apart {s : State} (h : Apart s.a s.b) :
    exec .xfr s = outcome (copyFour s s.a s.b >>= fun t => pure ((t.unlisted .A).unlisted .B).advance) := by
  change execXfr s = _
  rw [execXfr, partlyOverlap_eq_false h]
  rfl

section
variable {s : State}

theorem mantReadable_of_four {base : Word} (h : ∀ k, k < 4 → readable s (wordNo base k)) : mantReadable s base := by
  have hone : ∀ i, i < 3 → readable s (mantAddr s.plat.mantLayout base i) := fun i hi => by
    rcases mantAddr_cases s.plat.mantLayout base hi with he | he | he | he <;> rw [he]
    · exact wordNo_zero base ▸ h 0 (by omega)
    · exact h 1 (by omega)
    · exact h 2 (by omega)
    · exact h 3 (by omega)
  exact ⟨hone 0 (by omega), hone 1 (by omega), hone 2 (by omega)⟩

/-- A mantissa word that is readable and not writable refuses the write by MemMap. -/
theorem memWrite_memmap {u : State} {addr : Word} (hr : readable s addr) (hu : u.plat = s.plat) (h : ¬ writable s addr)
    (v : Word) : memWrite u addr v = refuse .memmap := by
  rw [memWrite_not_writable (mt (writable_congr hu addr).mp h), accessRefusal_memmap hr.1]

theorem setMant_refused {base : Word} (hr : mantReadable s base) (h : ¬ mantWritable s base) (digits : List Nibble) :
    setMant s base digits = refuse .memmap := by
  obtain ⟨hr0, hr1, hr2⟩ := hr
  unfold setMant
  dsimp only
  by_cases h0 : writable s (mantAddr s.plat.mantLayout base 0)
  case neg =>
    rw [memWrite_memmap hr0 rfl h0]
    rfl
  case pos =>
    rw [memWrite_writable h0, res_ok_bind]
    by_cases h1 : writable s (mantAddr s.plat.mantLayout base 1)
    case neg =>
      rw [memWrite_memmap (u := storedAt s _ _) hr1 rfl h1]
      rfl
    case pos =>
      rw [memWrite_writable ((writable_congr (storedAt_plat s _ _) _).mpr h1), res_ok_bind]
      exact memWrite_memmap (u := storedAt (storedAt s _ _) _ _) hr2 rfl (fun h2 => h ⟨h0, h1, h2⟩) _

theorem touchFour_readable {base : Word} (h : ∀ k, k < 4 → readable s (wordNo base k)) : touchFour s base = .ok () :=
  (touchFour_ok_iff s base ()).mpr
    ⟨wordNo_zero base ▸ h 0 (by omega), h 1 (by omega), h 2 (by omega), h 3 (by omega)⟩

theorem exec_mdi_touched (h : ∀ k, k < 4 → readable s (wordNo s.a k)) :
    exec .mdi s = outcome (mantVal s s.a >>= fun v =>
      setMantVal s s.a (if decide (v = mantModulus - 1) then 10 ^ 11 else v + 1) >>= fun t =>
        pure ((t.setE (overflowE (decide (v = mantModulus - 1)))).unlisted .A).advance) := by
  change execMdi s = _
  rw [execMdi, touchFour_readable h, res_ok_bind]

theorem mantVal_decimal {base : Word} (hr : mantReadable s base) (hd : decimalAt s base) :
    mantVal s base = .ok (valueAt s base) := (mantVal_ok_iff s base _).mpr ⟨hr, hd, rfl⟩

/-- Stores and counts at an address that is not writable. -/
theorem storeEffect_refused {addr : Word} (h : ¬ writable s addr) (r : Reg) :
    storeEffect s r addr = refuse (accessRefusal addr) := by
  rw [storeEffect, memWrite_not_writable h]
  rfl

theorem countEffect_refused {addr : Word} (h : ¬ writable s addr) (count : Word) :
    countEffect s count addr = refuse (accessRefusal addr) := by
  unfold countEffect
  by_cases hr : readable s addr
  case neg =>
    rw [memRead_not_readable hr]
    rfl
  case pos =>
    rw [memRead_readable hr, res_ok_bind, memWrite_not_writable h]
    rfl

theorem callEffect_refused (h : ¬ writable s (wordAt s Config.spAddr)) (target : Word) :
    callEffect s target = refuse (accessRefusal (wordAt s Config.spAddr)) := by
  have hne : wordAt s Config.spAddr ≠ Config.spAddr := fun he => h (by rw [he]; exact writable_spAddr s)
  rw [callEffect, memRead_spAddr, res_ok_bind, if_neg hne, memWrite_not_writable h]
  rfl

theorem callEffect_aliased (h : wordAt s Config.spAddr = Config.spAddr) (target : Word) :
    callEffect s target = refuse .stackAliasesSp := by
  rw [callEffect, memRead_spAddr, res_ok_bind, if_pos h]

/-- A store or count through either form at this address has this outcome. -/
theorem storing_refused {addr : Word} (hw : ¬ writable s addr) {x : Res Word} (hx : x = .ok addr) :
    (∀ r, outcome (x >>= storeEffect s r) = .refused (accessRefusal addr)) ∧
      ∀ count, outcome (x >>= countEffect s count) = .refused (accessRefusal addr) := by
  subst hx
  exact ⟨fun r => by rw [res_ok_bind, storeEffect_refused hw]; rfl,
    fun count => by rw [res_ok_bind, countEffect_refused hw]; rfl⟩

end

/-- Settles O21: each instruction is refused at the first of its accesses that is not possible. -/
theorem storesAndStackRefused : Obligations.StoresAndStackRefused := by
  intro s addr sp word
  refine ⟨fun hw ref ha i hi => ?memory, fun hw r ha i hi => ?viaRegister, fun i hi => ⟨fun hw => ?push, fun he => ?aliased⟩,
    exec_ret_refused, fun he => ?retAlias, fun k hk hpre hstop => ?clr, fun hapart k hk hpre => ⟨fun hr => ?source,
    fun hr hw => ?dest⟩, fun k hk hpre hstop => ?touch, fun hr hd hw => ?mantissa⟩
  case memory =>
    obtain ⟨hstore, hcount⟩ := storing_refused hw ha
    simp only [List.mem_cons, List.not_mem_nil, or_false] at hi
    rcases hi with rfl | rfl | rfl | rfl
    · exact hstore .A
    · exact hstore .B
    · exact hcount 1#16
    · exact hcount (-1#16)
  case viaRegister =>
    obtain ⟨hstore, hcount⟩ := storing_refused hw ha
    simp only [List.mem_cons, List.not_mem_nil, or_false] at hi
    rcases hi with rfl | rfl | rfl | rfl
    · exact hstore .A
    · exact hstore .B
    · exact hcount 1#16
    · exact hcount (-1#16)
  case push =>
    rw [calls_target hi, callEffect_refused hw]
    rfl
  case aliased =>
    rw [calls_target hi, callEffect_aliased he]
    rfl
  case retAlias => exact exec_ret_aliased (by change sp - 1#16 = _; rw [he]; rfl)
  case clr => exact outcome_stop (clearFour_refused hk hpre hstop) _
  case source =>
    rw [exec_xfr_apart hapart]
    exact outcome_stop (copyFour_refused hk hpre fun u hu =>
      copyWord_source_refused (mt (readable_congr hu _).mp hr) _) _
  case dest =>
    rw [exec_xfr_apart hapart]
    exact outcome_stop (copyFour_refused hk hpre fun u hu =>
      copyWord_dest_refused ((readable_congr hu _).mpr hr) (mt (writable_congr hu _).mp hw)) _
  case touch => exact outcome_stop (touchFour_refused hk hpre hstop) _
  case mantissa =>
    have hmr := mantReadable_of_four hr
    rw [exec_mdi_touched hr, mantVal_decimal hmr hd, res_ok_bind]
    exact outcome_stop (setMant_refused hmr hw _) _

/-! ## What XFR leaves -/

/-- The state after the words `v 0`, `v 1`, … are stored from `base` on. -/
def storeRun (s : State) (base : Word) (v : Nat → Word) : Nat → State
  | 0 => s
  | count + 1 => storedAt (storeRun s base v count) (wordNo base count) (v count)

theorem wordNo_ne (base : Word) {i j : Nat} (hi : i < 4) (hj : j < 4) (h : i ≠ j) : wordNo base i ≠ wordNo base j := by
  intro he
  have hij := congrArg BitVec.toNat ((BitVec.add_right_inj _).mp he)
  simp only [BitVec.toNat_ofNat] at hij
  omega

theorem wordNo_toNat {base : Word} (hb : base.toNat < 32768) {k : Nat} (hk : k < 4) :
    (wordNo base k).toNat = base.toNat + k := by
  rw [wordNo, BitVec.toNat_add, BitVec.toNat_ofNat]
  omega

section
variable {s : State} {base : Word} {v : Nat → Word}

theorem storeRun_plat (s : State) (base : Word) (v : Nat → Word) (count : Nat) : (storeRun s base v count).plat = s.plat := by
  induction count with
  | zero => rfl
  | succ count ih => rw [storeRun, storedAt_plat, ih]

theorem storeRun_registers (s : State) (base : Word) (v : Nat → Word) (count : Nat) :
    sameRegisters s (storeRun s base v count) ∧ (storeRun s base v count).p = s.p := by
  induction count with
  | zero => exact ⟨⟨rfl, rfl, rfl, rfl, rfl, rfl⟩, rfl⟩
  | succ count ih => exact ih

theorem storeRun_mem_wf (hmem : s.mem.wf = true) {count : Nat} (hw : ∀ k, k < count → writable s (wordNo base k)) :
    (storeRun s base v count).mem.wf = true := by
  induction count with
  | zero => exact hmem
  | succ count ih => exact storedAt_mem_wf (ih fun k hk => hw k (by omega)) (hw count (by omega)).1 _

theorem wordAt_storeRun_other {x : Word} {count : Nat} (hx : ∀ k, k < count → x ≠ wordNo base k) :
    wordAt (storeRun s base v count) x = wordAt s x := by
  induction count with
  | zero => rfl
  | succ count ih =>
    rw [storeRun, wordAt_storedAt_other (hx count (by omega)), ih fun k hk => hx k (by omega)]

theorem wordAt_storeRun (hmem : s.mem.wf = true) {count : Nat} (hcount : count ≤ 4)
    (hw : ∀ k, k < count → writable s (wordNo base k)) {k : Nat} (hk : k < count) :
    wordAt (storeRun s base v count) (wordNo base k) = v k := by
  induction count with
  | zero => omega
  | succ count ih =>
    have hmem' := storeRun_mem_wf (v := v) (count := count) hmem fun j hj => hw j (by omega)
    rw [storeRun, wordAt_storedAt hmem' (hw count (by omega)).1]
    by_cases heq : k = count
    case pos => rw [heq, if_pos rfl]
    case neg =>
      rw [if_neg (wordNo_ne base (by omega) (by omega) heq)]
      exact ih (by omega) (fun j hj => hw j (by omega)) (by omega)

/-- Ascending copies between ranges that coincide or are apart read no word that they have written over. -/
theorem copyFour_apart {source dest : Word} (h : Apart source dest)
    (hrw : ∀ k, k < 4 → readable s (wordNo source k) ∧ writable s (wordNo dest k)) :
    copyFour s source dest = .ok (storeRun s dest (fun k => wordAt s (wordNo source k)) 4) := by
  obtain ⟨⟨hs15, -⟩, hd15, -⟩ := hrw 0 (by omega)
  have hsource := toNat_lt_of_bit15 (wordNo_zero source ▸ hs15)
  have hdest := toNat_lt_of_bit15 (wordNo_zero dest ▸ hd15)
  have hfresh : ∀ k, k < 4 → ∀ j, j < k → wordNo source k ≠ wordNo dest j := by
    intro k hk j hj he
    have hnat := congrArg BitVec.toNat he
    rw [wordNo_toNat hsource hk, wordNo_toNat hdest (by omega)] at hnat
    rcases h with rfl | h | h <;> omega
  rw [copyFour_eq_inOrder]
  refine inOrder_ok (states := storeRun s dest fun k => wordAt s (wordNo source k)) fun k _ hk => ?_
  have hk : k < 4 := by omega
  have hplat := storeRun_plat s dest (fun k => wordAt s (wordNo source k)) k
  obtain ⟨hr, hw⟩ := hrw k hk
  refine (copyWord_ok_iff _ _ _ _).mpr ⟨(readable_congr hplat _).mpr hr, (writable_congr hplat _).mpr hw, ?_⟩
  rw [wordAt_storeRun_other (hfresh k hk)]
  rfl

end

theorem not_mem_fourAddrs {base x : Word} (hx : x ∉ [base, base + 1#16, base + 2#16, base + 3#16]) {k : Nat} (hk : k < 4) :
    x ≠ wordNo base k := fun he => hx (he ▸ mem_fourAddrs base hk)

/-- Settles O42: four stores of the old words, or the refusal of the overlap before any access. -/
theorem transferCopiesFourWords : Obligations.TransferCopiesFourWords := by
  intro s
  refine ⟨fun hmem hrw hapart => ?copy, fun hne h1 h2 => ?overlap⟩
  case overlap =>
    have hov : partlyOverlap s.a s.b = true := by simp [partlyOverlap, hne, h1, h2]
    change execXfr s = _
    rw [execXfr, if_pos hov]
    rfl
  case copy =>
    have hex := exec_xfr_apart hapart
    rw [copyFour_apart hapart hrw, res_ok_bind] at hex
    have hw := fun k hk => (hrw k hk).2
    obtain ⟨hregs, hp⟩ := storeRun_registers s s.b (fun k => wordAt s (wordNo s.a k)) 4
    obtain ⟨-, -, he, hdma, hplat, -⟩ := hregs
    have hnext : (storeRun s s.b (fun k => wordAt s (wordNo s.a k)) 4).p + 1#16 = s.p + 1#16 := by rw [hp]
    generalize hu : storeRun s s.b (fun k => wordAt s (wordNo s.a k)) 4 = u at *
    have hwords : ∀ x, wordAt ((u.unlisted .A).unlisted .B).advance x = wordAt u x := fun x => by
      rw [wordAt, wordAt, advance_mem, unlisted_mem, unlisted_mem]
    refine ⟨_, hex, fun k hk => ?_, fun x _ hx => ?_, by simpa using he, by simpa using hdma, by simpa using hplat,
      fun hfree => ?_, by simpa using hnext, by simpa using hnext, ?_⟩
    · rw [hwords, ← hu]
      exact wordAt_storeRun hmem (Nat.le_refl 4) hw hk
    · rw [hwords, ← hu]
      exact wordAt_storeRun_other fun k hk => not_mem_fourAddrs hx hk
    · rw [unlisted_unchanged u .A (hplat ▸ hfree), unlisted_unchanged u .B (hplat ▸ hfree)]
      rw [← hu]
      exact (storeRun_registers s s.b _ 4).1
    · rw [advance_mem, unlisted_mem, unlisted_mem, ← hu]
      exact storeRun_mem_wf hmem hw

end Sys2Proof.Machine
end

section
/-! The mantissa shifts MRX and MRY, and NRM (44_mac.md R184, R185, R195): their loops over a list of digits in closed
form, and the states they end in. -/

namespace Sys2Proof.Machine

/-! ## What a stored mantissa leaves -/

section
variable {s t : State} {base : Word} (hmem : s.mem.wf = true) (hw : mantWritable s base)
include hmem hw

/-- A state whose memory is that after `SetMant` holds its digits, and every other word as before. -/
theorem holds_digits (hl : layoutOk s.plat.mantLayout = true) {digits : List Nibble} (hd : digits.length = 12)
    (htmem : t.mem = (mantStored s base digits).mem) (htplat : t.plat = s.plat) :
    digitsAt t base = digits ∧ sameWordsExcept (mantAddrs s base) s t ∧ t.mem.wf = true := by
  have hword : ∀ x, wordAt t x = wordAt (mantStored s base digits) x := fun x => by rw [wordAt, wordAt, htmem]
  refine ⟨?_, fun x _ hx => (hword x).trans (wordAt_mantStored_other hx digits), htmem ▸ mantStored_mem_wf hmem hw digits⟩
  exact (digitsAt_congr (htplat.trans (mantStored_plat s base digits).symm) fun x _ => hword x).trans
    (digitsAt_mantStored hmem hw hl hd)

end

/-! ## Right shifts -/

/-- R184: the digits before `n + 1` right shifts as one row: the zeros that come in last, the first digit in, the mantissa. -/
def shiftRow (n : Nat) (fill : Nibble) (digits : List Nibble) : List Nibble := List.replicate n 0#4 ++ fill :: digits

theorem shiftRow_length (n : Nat) (fill : Nibble) (digits : List Nibble) :
    (shiftRow n fill digits).length = n + 1 + digits.length := by
  simp only [shiftRow, List.length_append, List.length_replicate, List.length_cons]
  omega

/-- R184: a right shift moves the row along by one. -/
theorem shiftRow_dropLast (n : Nat) (fill : Nibble) {digits : List Nibble} (hd : digits ≠ []) :
    shiftRow n 0#4 (fill :: digits.dropLast) = (shiftRow (n + 1) fill digits).dropLast := by
  rw [shiftRow, shiftRow, List.replicate_succ', List.append_assoc, List.dropLast_append_of_ne_nil (by simp),
    List.singleton_append, List.dropLast_cons_of_ne_nil (by simp), List.dropLast_cons_of_ne_nil hd]

theorem length_twelve_ne_nil {digits : List Nibble} (hd : digits.length = 12) : digits ≠ [] := by
  rintro rfl
  cases hd

theorem getD_eleven {digits : List Nibble} (hd : digits.length = 12) : digits.getD 11 0#4 = digits.getLastD 0#4 := by
  rw [List.getLastD_eq_getLast?, List.getLast?_eq_getElem?, hd, List.getD_eq_getElem?_getD]

theorem take_eleven {digits : List Nibble} (hd : digits.length = 12) : digits.take 11 = digits.dropLast := by
  rw [List.dropLast_eq_take, hd]

/-- R184: the mantissa after the shifts is the row's first twelve digits, and the digit out is its thirteenth. -/
theorem shiftDigitsRight_eq (n : Nat) (fill : Nibble) {digits : List Nibble} (hd : digits.length = 12) (out : Nibble) :
    shiftDigitsRight (n + 1) fill digits out = ((shiftRow n fill digits).take 12, (shiftRow n fill digits).getD 12 0#4) := by
  induction n generalizing fill digits out with
  | zero =>
    change (fill :: digits.dropLast, digits.getLastD 0#4) = (fill :: digits.take 11, digits.getD 11 0#4)
    rw [take_eleven hd, getD_eleven hd]
  | succ n ih =>
    have hlen : (fill :: digits.dropLast).length = 12 := by simp [hd]
    have hrow : 13 < (shiftRow (n + 1) fill digits).length := by rw [shiftRow_length]; omega
    rw [shiftDigitsRight, ih 0#4 hlen, shiftRow_dropLast n fill (length_twelve_ne_nil hd), List.dropLast_eq_take,
      List.take_take, Nat.min_eq_left (by omega), List.getD_eq_getElem?_getD, List.getElem?_take_of_lt (by omega),
      List.getD_eq_getElem?_getD]

/-- R184: clearing the count's four bits of B subtracts the count. -/
theorem clearCount_toNat (b : Word) : (b &&& 0xFFF0#16).toNat = b.toNat - b.toNat % 16 := by
  have hb : b &&& 0xFFF0#16 = (b >>> 4) <<< 4 := by
    apply BitVec.eq_of_getLsbD_eq
    intro k hk
    have hm : ∀ k, k < 16 → (0xFFF0#16).getLsbD k = !decide (k < 4) := by decide
    rw [BitVec.getLsbD_and, hm k hk, BitVec.getLsbD_shiftLeft, BitVec.getLsbD_ushiftRight, decide_eq_true hk, Bool.true_and]
    by_cases h4 : k < 4
    case pos => simp [h4]
    case neg => simp [h4, show 4 + (k - 4) = k by omega]
  have hlt := b.isLt
  rw [hb, BitVec.toNat_shiftLeft, BitVec.toNat_ushiftRight, Nat.shiftRight_eq_div_pow, Nat.shiftLeft_eq]
  omega

theorem lowNibble_toNat (x : Word) : (x.extractLsb' 0 4).toNat = x.toNat % 16 := by
  rw [BitVec.extractLsb'_toNat]
  rfl

/-- The state after `n` right shifts of the mantissa at `base`, `row` being the digits before them. -/
def shiftedRight (s : State) (base : Word) (row : List Nibble) : State :=
  ((((mantStored s base (row.take 12)).setReg .A ((row.getD 12 0#4).setWidth 16)).setReg .B (s.b &&& 0xFFF0#16)).setE
    0b0000#4).advance

theorem shiftRightEffect_writable {s : State} {base : Word} (hw : mantWritable s base)
    (hl : layoutOk s.plat.mantLayout = true) {n : Nat} (hn : s.b.toNat % 16 = n + 1) :
    shiftRightEffect s base = .ok (shiftedRight s base (shiftRow n (s.a.extractLsb' 0 4) (digitsAt s base))) := by
  rw [shiftRightEffect, lowNibble_toNat, hn, if_neg (Nat.succ_ne_zero n), mant_writable hw, res_ok_bind,
    shiftDigitsRight_eq n _ (digitsAt_length hl base)]
  dsimp only
  rw [setMant_writable hw, res_ok_bind]
  rfl

theorem shiftRightEffect_zero {s : State} {base : Word} (hn : s.b.toNat % 16 = 0) :
    shiftRightEffect s base = refuse .mrxCountZero := by
  rw [shiftRightEffect, lowNibble_toNat, if_pos hn]

/-- R184, R185: MRX works on AR1, MRY on AR2; both are RW on every platform. -/
theorem exec_mrx_mry (s : State) {i : Instr} {base : Word}
    (h : i = .mrx ∧ base = Config.ar1Base ∨ i = .mry ∧ base = Config.ar2Base) :
    exec i s = outcome (shiftRightEffect s base) ∧ mantWritable s base := by
  rcases h with ⟨rfl, rfl⟩ | ⟨rfl, rfl⟩
  · exact ⟨rfl, mantWritable_ar1 s⟩
  · exact ⟨rfl, mantWritable_ar2 s⟩

/-- Settles O43: n shifts leave the row's first twelve digits. -/
theorem mantissaRightShiftClosedForm : Obligations.MantissaRightShiftClosedForm := by
  intro s i base hi n moved
  obtain ⟨hex, hw⟩ := exec_mrx_mry s hi
  refine ⟨fun hn => ?_, fun hmem hl hn => ?_⟩
  · rw [hex, shiftRightEffect_zero hn]
    rfl
  · have hrow : moved.length = n - 1 + 1 + 12 := by rw [← digitsAt_length hl base]; exact shiftRow_length _ _ _
    have hnext := shiftRightEffect_writable hw hl (n := n - 1) (by omega)
    rw [hnext] at hex
    obtain ⟨hdigits, hwords, hwf⟩ := holds_digits (t := shiftedRight s base moved) hmem hw hl
      (digits := moved.take 12) (by rw [List.length_take]; omega) rfl rfl
    exact ⟨_, hex, hdigits, BitVec.toNat_setWidth_of_le (by omega), clearCount_toNat s.b, rfl, rfl, rfl, rfl, rfl, rfl,
      hwords, hwf⟩

/-! ## Normalization -/

theorem normalizeDigits_done {fuel : Nat} {tail : List Nibble} (h : fuel = 0 ∨ tail.headD 0#4 ≠ 0#4) (count : Nat) :
    normalizeDigits fuel tail count = (tail, count) := by
  cases fuel with
  | zero => rfl
  | succ fuel =>
    rcases h with h | h
    · cases h
    · rw [normalizeDigits, if_neg h]

/-- R195: leading zeros go round to the end one by one, as far as the count of rotations allows. -/
theorem normalizeDigits_eq (zeros extra : Nat) {tail : List Nibble} (h : extra = 0 ∨ tail.headD 0#4 ≠ 0#4) (count : Nat) :
    normalizeDigits (zeros + extra) (List.replicate zeros 0#4 ++ tail) count =
      (tail ++ List.replicate zeros 0#4, count + zeros) := by
  induction zeros generalizing tail count with
  | zero => simpa using normalizeDigits_done h count
  | succ zeros ih =>
    have htail : extra = 0 ∨ (tail ++ [0#4]).headD 0#4 ≠ 0#4 := by
      refine h.imp_right fun hne => ?_
      cases tail with
      | nil => exact absurd rfl hne
      | cons x rest => exact hne
    rw [show zeros + 1 + extra = zeros + extra + 1 by omega, List.replicate_succ, List.cons_append, normalizeDigits,
      List.headD_cons, if_pos rfl, List.tail_cons, List.append_assoc, ih htail, List.append_assoc, List.singleton_append,
      Nat.add_assoc, Nat.add_comm 1 zeros]

/-- The number of leading zero digits. -/
def leadingZeros (digits : List Nibble) : Nat := (digits.takeWhile (fun digit => digit == 0#4)).length

theorem takeWhile_leadingZeros (digits : List Nibble) :
    digits.takeWhile (fun digit => digit == 0#4) = List.replicate (leadingZeros digits) 0#4 :=
  List.eq_replicate_of_mem fun x hx => beq_iff_eq.mp (List.all_eq_true.mp List.all_takeWhile x hx)

theorem drop_leadingZeros (digits : List Nibble) :
    digits.drop (leadingZeros digits) = digits.dropWhile (fun digit => digit == 0#4) := by
  have hsplit := List.takeWhile_append_dropWhile (p := fun digit => digit == 0#4) (l := digits)
  calc digits.drop (leadingZeros digits)
    _ = (digits.takeWhile (fun digit => digit == 0#4) ++ digits.dropWhile (fun digit => digit == 0#4)).drop
          (leadingZeros digits) := by rw [hsplit]
    _ = digits.dropWhile (fun digit => digit == 0#4) := List.drop_left

theorem replicate_leadingZeros (digits : List Nibble) :
    List.replicate (leadingZeros digits) 0#4 ++ digits.drop (leadingZeros digits) = digits := by
  rw [drop_leadingZeros, ← takeWhile_leadingZeros]
  exact List.takeWhile_append_dropWhile

theorem headD_drop_leadingZeros {digits : List Nibble} (h : leadingZeros digits < digits.length) :
    (digits.drop (leadingZeros digits)).headD 0#4 ≠ 0#4 := by
  have hne : digits.drop (leadingZeros digits) ≠ [] := by simpa using h
  rw [drop_leadingZeros] at hne ⊢
  rw [List.headD_eq_head?_getD, List.head?_eq_some_head hne]
  simpa using List.head_dropWhile_not (fun digit => digit == 0#4) hne

theorem leadingZeros_le (digits : List Nibble) : leadingZeros digits ≤ digits.length :=
  (List.takeWhile_sublist _).length_le

/-- R195: at most twelve rotations move all leading zeros of twelve digits. -/
theorem normalizeDigits_twelve {digits : List Nibble} (hd : digits.length = 12) :
    normalizeDigits 12 digits 0 =
      (digits.drop (leadingZeros digits) ++ List.replicate (leadingZeros digits) 0#4, leadingZeros digits) := by
  have hle := leadingZeros_le digits
  have hhead : 12 - leadingZeros digits = 0 ∨ (digits.drop (leadingZeros digits)).headD 0#4 ≠ 0#4 := by
    by_cases hc : leadingZeros digits < digits.length
    case pos => exact .inr (headD_drop_leadingZeros hc)
    case neg => exact .inl (by omega)
  have h := normalizeDigits_eq (leadingZeros digits) (12 - leadingZeros digits) hhead 0
  rwa [replicate_leadingZeros, Nat.add_sub_cancel' (hd ▸ hle), Nat.zero_add] at h

/-- The state after NRM. -/
def normalized (s : State) (digits : List Nibble) (count : Nat) : State :=
  (((mantStored s Config.ar2Base digits).setReg .B (BitVec.ofNat 16 count)).setE (overflowE (count == 12))).advance

theorem exec_nrm {s : State} (hl : layoutOk s.plat.mantLayout = true) {digits : List Nibble}
    (h : digitsAt s Config.ar2Base = digits) :
    exec .nrm s = .next (normalized s (digits.drop (leadingZeros digits) ++ List.replicate (leadingZeros digits) 0#4)
      (leadingZeros digits)) := by
  have hlen : digits.length = 12 := h ▸ digitsAt_length hl Config.ar2Base
  change execNrm s = _
  rw [execNrm, mant_writable (mantWritable_ar2 s), res_ok_bind, h, normalizeDigits_twelve hlen]
  dsimp only
  rw [setMant_writable (mantWritable_ar2 s), res_ok_bind]
  rfl

/-- Settles O53: the rotations stop at the first digit that is not zero, or after twelve. -/
theorem normalizationRotatesOutLeadingZeros : Obligations.NormalizationRotatesOutLeadingZeros := by
  intro s hmem hl digits c
  have hlen : digits.length = 12 := digitsAt_length hl Config.ar2Base
  have hc : c ≤ 12 := hlen ▸ leadingZeros_le digits
  obtain ⟨hdigits, hwords, hwf⟩ := holds_digits (t := normalized s (digits.drop c ++ List.replicate c 0#4) c) hmem
    (mantWritable_ar2 s) hl (digits := digits.drop c ++ List.replicate c 0#4) (by simp; omega) rfl rfl
  refine ⟨_, exec_nrm hl rfl, hdigits, ?_, ?_, rfl, rfl, rfl, rfl, rfl, rfl, hwords, hwf⟩
  · change (BitVec.ofNat 16 c).toNat = c
    rw [BitVec.toNat_ofNat]
    omega
  · change overflowE (c == 12) = _
    by_cases h12 : c = 12 <;> simp [overflowE, h12]

end Sys2Proof.Machine
end

section
/-! Decimal arithmetic (44_mac.md R189 to R194, R196, R197): operands and their refusals, the value that an instruction
leaves in a mantissa, and FDV's loop in closed form. -/

namespace Sys2Proof.Machine

/-! ## Operands -/

/-- R197: the two values of E that give a decimal carry-in. -/
def CarryIn (e : Nibble) (dc : Nat) : Prop := e = 0b0000#4 ∧ dc = 0 ∨ e = 0b1111#4 ∧ dc = 1

theorem decimalCarryIn_ok {e : Nibble} {dc : Nat} (h : CarryIn e dc) : decimalCarryIn e = .ok dc := by
  rcases h with ⟨rfl, rfl⟩ | ⟨rfl, rfl⟩ <;> rfl

theorem carryIn_le {e : Nibble} {dc : Nat} (h : CarryIn e dc) : dc ≤ 1 := by
  rcases h with ⟨-, rfl⟩ | ⟨-, rfl⟩ <;> omega

theorem carryIn_of_e {e : Nibble} (h : e = 0b0000#4 ∨ e = 0b1111#4) : ∃ dc, CarryIn e dc :=
  h.elim (fun h => ⟨0, .inl ⟨h, rfl⟩⟩) fun h => ⟨1, .inr ⟨h, rfl⟩⟩

theorem decimalCarryIn_refused {e : Nibble} (h0 : e ≠ 0b0000#4) (h1 : e ≠ 0b1111#4) :
    decimalCarryIn e = refuse .dcUndefined := by
  rw [decimalCarryIn, if_neg h0, if_neg h1]

section
variable {s : State} {base : Word}

theorem mantVal_refused (hr : mantReadable s base) (hd : ¬ decimalAt s base) : mantVal s base = refuse .nonBcdDigit := by
  rw [mantVal, (mant_ok_iff s base _).mpr ⟨hr, rfl⟩, res_ok_bind]
  exact if_neg hd

theorem setMantVal_writable (hw : mantWritable s base) (v : Nat) :
    setMantVal s base v = .ok (mantStored s base (decimalDigits 12 v)) := (setMantVal_ok_iff s base v _).mpr ⟨hw, rfl⟩

theorem mantVal_ar1 (hd : decimalAt s Config.ar1Base) : mantVal s Config.ar1Base = .ok (valueAt s Config.ar1Base) :=
  mantVal_decimal (mantReadable_of_writable (mantWritable_ar1 s)) hd

theorem mantVal_ar2 (hd : decimalAt s Config.ar2Base) : mantVal s Config.ar2Base = .ok (valueAt s Config.ar2Base) :=
  mantVal_decimal (mantReadable_of_writable (mantWritable_ar2 s)) hd

theorem mantVal_ar1_refused (hd : ¬ decimalAt s Config.ar1Base) : mantVal s Config.ar1Base = refuse .nonBcdDigit :=
  mantVal_refused (mantReadable_of_writable (mantWritable_ar1 s)) hd

theorem mantVal_ar2_refused (hd : ¬ decimalAt s Config.ar2Base) : mantVal s Config.ar2Base = refuse .nonBcdDigit :=
  mantVal_refused (mantReadable_of_writable (mantWritable_ar2 s)) hd

end

theorem bind_refused {α β : Type} {x : Res α} {r : Refusal} (h : x = refuse r) (f : α → Res β) :
    (x >>= f) = refuse r := by
  rw [h]
  rfl

/-- R196: two operands read one after the other are refused for a digit of either. -/
theorem operands_refused {s : State} {x y : Word} (hx : mantReadable s x) (hy : mantReadable s y)
    (hd : ¬ decimalAt s x ∨ ¬ decimalAt s y) (f : Nat → Nat → Res State) :
    (mantVal s x >>= fun v => mantVal s y >>= f v) = refuse .nonBcdDigit := by
  by_cases hdx : decimalAt s x
  case neg => exact bind_refused (mantVal_refused hx hdx) _
  case pos =>
    rw [mantVal_decimal hx hdx, res_ok_bind]
    exact bind_refused (mantVal_refused hy (hd.resolve_left fun h => h hdx)) _

/-- Settles O54: the carry-in comes first, then the operands, AR2 before AR1 or (FDV) after it. -/
theorem decimalOperandsRefused : Obligations.DecimalOperandsRefused := by
  intro s
  refine ⟨fun h0 h1 i hi => ?carry, fun he hd i hi => ?digit, fun hd => ?cmx, fun hd => ?cmy, fun hr hd => ?mdi⟩
  case carry =>
    have hdc := decimalCarryIn_refused h0 h1
    simp only [List.mem_cons, List.not_mem_nil, or_false] at hi
    rcases hi with rfl | rfl | rfl <;> exact outcome_stop hdc _
  case digit =>
    obtain ⟨dc, hdc⟩ := carryIn_of_e he
    have h1 := mantReadable_of_writable (mantWritable_ar1 s)
    have h2 := mantReadable_of_writable (mantWritable_ar2 s)
    have hcarry : ∀ {f : Nat → Res State}, f dc = refuse .nonBcdDigit →
        outcome (decimalCarryIn s.e >>= f) = .refused .nonBcdDigit := fun hf => by
      rw [decimalCarryIn_ok hdc, res_ok_bind, hf, outcome_refuse]
    simp only [List.mem_cons, List.not_mem_nil, or_false] at hi
    rcases hi with rfl | rfl | rfl
    · exact hcarry (operands_refused h2 h1 hd _)
    · exact hcarry (operands_refused h2 h1 hd _)
    · exact hcarry (operands_refused h1 h2 hd.symm _)
  case cmx => exact outcome_stop (mantVal_ar1_refused hd) _
  case cmy => exact outcome_stop (mantVal_ar2_refused hd) _
  case mdi =>
    rw [exec_mdi_touched hr]
    exact outcome_stop (mantVal_refused (mantReadable_of_four hr) hd) _

/-! ## The value left behind -/

/-- A state whose memory is that after `SetMantVal` has its value there, and every other word as before. -/
theorem holds_value {s t : State} {base : Word} (hmem : s.mem.wf = true) (hw : mantWritable s base)
    (hl : layoutOk s.plat.mantLayout = true) {v : Nat} (hv : v < mantModulus)
    (htmem : t.mem = (mantStored s base (decimalDigits 12 v)).mem) (htplat : t.plat = s.plat) :
    valueAt t base = v ∧ decimalAt t base ∧ sameWordsExcept (mantAddrs s base) s t ∧ t.mem.wf = true := by
  obtain ⟨hdigits, hwords, hwf⟩ := holds_digits hmem hw hl (decimalDigits_length 12 v) htmem htplat
  refine ⟨?_, ?_, hwords, hwf⟩
  · rw [valueAt, hdigits, digitsValue_decimalDigits]
    exact Nat.mod_eq_of_lt hv
  · rw [decimalAt, hdigits]
    exact decimalDigits_allDecimal 12 v

theorem mantModulus_eq : mantModulus = 10 ^ 12 := rfl

/-- The state after a decimal operation whose own list leaves A out: the value, E, and A by MAC_UNLISTED_REGS (D19). -/
def valueStored (s : State) (base : Word) (v : Nat) (e : Nibble) : State :=
  (((mantStored s base (decimalDigits 12 v)).setE e).unlisted .A).advance

theorem valueStored_completes {s : State} {i : Instr} {base : Word} (hmem : s.mem.wf = true) (hw : mantWritable s base)
    (hl : layoutOk s.plat.mantLayout = true) {v : Nat} (hv : v < mantModulus) {e : Nibble}
    (h : exec i s = .next (valueStored s base v e)) :
    ∃ t, exec i s = .next t ∧ valueAt t base = v ∧ decimalAt t base ∧ t.e = e ∧ t.b = s.b ∧
      (s.plat.unlistedRegs = .unchanged → t.a = s.a ∧ t.freeCount = s.freeCount) ∧
      t.p = s.p + 1#16 ∧ t.m = s.p + 1#16 ∧ t.dmaWait = s.dmaWait ∧ t.plat = s.plat ∧
      sameWordsExcept (mantAddrs s base) s t ∧ t.mem.wf = true := by
  obtain ⟨hval, hdec, hwords, hwf⟩ := holds_value (t := valueStored s base v e) hmem hw hl hv
    (by simp [valueStored]) (by simp [valueStored])
  refine ⟨_, h, hval, hdec, by simp [valueStored], by simp [valueStored], fun hu => by simp [valueStored, unlisted_unchanged, hu],
    by simp [valueStored], by simp [valueStored], by simp [valueStored], by simp [valueStored], hwords, hwf⟩

theorem overflowE_eq (p : Prop) [Decidable p] : overflowE (decide p) = if p then 0b0001#4 else 0b0000#4 := by
  by_cases h : p <;> simp [overflowE, h]

section
variable {s : State} {dc : Nat} (h1 : decimalAt s Config.ar1Base) (h2 : decimalAt s Config.ar2Base) (hdc : CarryIn s.e dc)
include h1 h2 hdc

theorem exec_fxa {v : Nat} (hv : valueAt s Config.ar2Base + valueAt s Config.ar1Base + dc = v) :
    exec .fxa s = .next (valueStored s Config.ar2Base (v % mantModulus) (overflowE (decide (mantModulus ≤ v)))) := by
  change execFxa s = _
  rw [execFxa, decimalCarryIn_ok hdc, res_ok_bind, mantVal_ar2 h2, res_ok_bind, mantVal_ar1 h1, res_ok_bind]
  dsimp only
  rw [hv, setMantVal_writable (mantWritable_ar2 s), res_ok_bind]
  rfl

/-- The state after FMP: the value, the overflows in A, E cleared, B by MAC_UNLISTED_REGS (D19). -/
def multiplied (s : State) (v : Nat) : State :=
  ((((mantStored s Config.ar2Base (decimalDigits 12 (v % mantModulus))).setReg .A (BitVec.ofNat 16 (v / mantModulus))).setE
    0b0000#4).unlisted .B).advance

theorem exec_fmp {v : Nat} (hv : valueAt s Config.ar2Base + s.b.toNat % 16 * valueAt s Config.ar1Base + dc = v) :
    exec .fmp s = .next (multiplied s v) := by
  change execFmp s = _
  rw [execFmp, decimalCarryIn_ok hdc, res_ok_bind, mantVal_ar2 h2, res_ok_bind, mantVal_ar1 h1, res_ok_bind]
  dsimp only
  rw [lowNibble_toNat, hv, setMantVal_writable (mantWritable_ar2 s), res_ok_bind]
  rfl

end

/-- Settles O46: the exact sum modulo 10^12, and whether it reached it. -/
theorem fixedPointAddition : Obligations.FixedPointAddition := by
  intro s dc hmem hl h1 h2 hdc v
  have hex := exec_fxa h1 h2 hdc (v := v) rfl
  rw [overflowE_eq] at hex
  exact valueStored_completes hmem (mantWritable_ar2 s) hl (Nat.mod_lt v (by decide)) hex

/-- R190: fifteen additions overflow at most fifteen times. -/
theorem product_overflows {v1 v2 dc n : Nat} (h1 : v1 < mantModulus) (h2 : v2 < mantModulus) (hdc : dc ≤ 1) (hn : n < 16) :
    (v2 + n * v1 + dc) / mantModulus < 65536 := by
  have hprod : n * v1 ≤ 15 * v1 := Nat.mul_le_mul_right v1 (by omega)
  rw [mantModulus_eq] at *
  omega

/-- Settles O47: the exact sum of products, its remainder in AR2 and its quotient in A. -/
theorem fastMultiply : Obligations.FastMultiply := by
  intro s dc hmem hl h1 h2 hdc v
  have hquot : v / mantModulus < 65536 :=
    product_overflows (valueAt_lt hl h1) (valueAt_lt hl h2) (carryIn_le hdc) (Nat.mod_lt _ (by omega))
  obtain ⟨hval, hdec, hwords, hwf⟩ := holds_value (t := multiplied s v) hmem (mantWritable_ar2 s) hl
    (Nat.mod_lt v (by decide)) (by simp [multiplied]) (by simp [multiplied])
  refine ⟨_, exec_fmp h1 h2 hdc rfl, hval, hdec, ?_, by simp [multiplied],
    fun hu => by simp [multiplied, unlisted_unchanged, hu], by simp [multiplied], by simp [multiplied],
    by simp [multiplied], by simp [multiplied], hwords, hwf⟩
  rw [multiplied, advance_a, unlisted_B_a, setE_a, setReg_A_a, BitVec.toNat_ofNat]
  exact Nat.mod_eq_of_lt hquot

/-! ## Ten's complement -/

/-- R192, R193: CMX works on AR1, CMY on AR2; both are RW on every platform. -/
theorem exec_cmx_cmy (s : State) {i : Instr} {base : Word}
    (h : i = .cmx ∧ base = Config.ar1Base ∨ i = .cmy ∧ base = Config.ar2Base) :
    exec i s = outcome (tensComplementEffect s base) ∧ mantWritable s base := by
  rcases h with ⟨rfl, rfl⟩ | ⟨rfl, rfl⟩
  · exact ⟨rfl, mantWritable_ar1 s⟩
  · exact ⟨rfl, mantWritable_ar2 s⟩

theorem tensComplementEffect_decimal {s : State} {base : Word} (hw : mantWritable s base) (hd : decimalAt s base) :
    tensComplementEffect s base = .ok (valueStored s base ((mantModulus - valueAt s base) % mantModulus) 0b0000#4) := by
  rw [tensComplementEffect, mantVal_decimal (mantReadable_of_writable hw) hd, res_ok_bind, setMantVal_writable hw,
    res_ok_bind]
  rfl

theorem tensComplementEffect_refused {s : State} {base : Word} (hw : mantWritable s base) (hd : ¬ decimalAt s base) :
    tensComplementEffect s base = refuse .nonBcdDigit := bind_refused (mantVal_refused (mantReadable_of_writable hw) hd) _

/-- Settles O50: the complement's value is below 10^12, so twelve digits hold it. -/
theorem tensComplement : Obligations.TensComplement := by
  intro s i base hi hmem hl hd
  obtain ⟨hex, hw⟩ := exec_cmx_cmy s hi
  rw [tensComplementEffect_decimal hw hd] at hex
  exact valueStored_completes hmem hw hl (Nat.mod_lt _ (by decide)) hex

/-- Decimal digits are the digits of their value. -/
theorem decimalDigits_digitsValue {count : Nat} {digits : List Nibble} (hlen : digits.length = count)
    (h : allDecimal digits = true) : decimalDigits count (digitsValue digits) = digits := by
  induction count generalizing digits with
  | zero => exact (List.eq_nil_of_length_eq_zero hlen).symm
  | succ count ih =>
    have hne : digits ≠ [] := List.ne_nil_of_length_eq_add_one hlen
    rw [← List.dropLast_concat_getLast hne] at h ⊢
    simp only [allDecimal, List.all_append, List.all_cons, List.all_nil, Bool.and_true, Bool.and_eq_true,
      decide_eq_true_eq] at h
    obtain ⟨hinit, hlast⟩ := h
    have hdiv : (10 * digitsValue digits.dropLast + (digits.getLast hne).toNat) / 10 = digitsValue digits.dropLast := by
      omega
    have hmod : (10 * digitsValue digits.dropLast + (digits.getLast hne).toNat) % 10 = (digits.getLast hne).toNat := by
      omega
    rw [digitsValue_append_single, decimalDigits, hdiv, hmod, ih (by rw [List.length_dropLast, hlen]; rfl) hinit,
      ← ofNat_of_toNat rfl]

theorem digitsAt_of_value {s t : State} {base : Word} (hs : layoutOk s.plat.mantLayout = true)
    (ht : layoutOk t.plat.mantLayout = true) (hds : decimalAt s base) (hdt : decimalAt t base)
    (h : valueAt t base = valueAt s base) : digitsAt t base = digitsAt s base := by
  rw [← decimalDigits_digitsValue (digitsAt_length ht base) hdt, ← decimalDigits_digitsValue (digitsAt_length hs base) hds]
  exact congrArg _ h

theorem tensComplement_twice {v : Nat} (h : v < 10 ^ 12) : (10 ^ 12 - (10 ^ 12 - v) % 10 ^ 12) % 10 ^ 12 = v := by
  omega

/-- Settles O51: the second complement has the first value, and decimal digits are determined by their value. -/
theorem tensComplementTwiceRestores : Obligations.TensComplementTwiceRestores := by
  intro s t i base hi hmem hl h
  obtain ⟨hex, hw⟩ := exec_cmx_cmy s hi
  have hd : decimalAt s base := by
    refine Classical.byContradiction fun hd => ?_
    rw [hex, tensComplementEffect_refused hw hd] at h
    cases h
  obtain ⟨t', ht, hval, hdec, -, -, -, -, -, -, hplat, -, hwf⟩ := tensComplement s i base hi hmem hl hd
  obtain rfl : t' = t := by rw [ht] at h; cases h; rfl
  obtain ⟨u, hu, hval', hdec', -, -, -, -, -, -, hplat', -, -⟩ := tensComplement t' i base hi hwf (hplat ▸ hl) hdec
  refine ⟨u, hu, digitsAt_of_value hl (by rw [hplat', hplat]; exact hl) hd hdec' ?_⟩
  rw [hval', hval]
  exact tensComplement_twice (valueAt_lt hl hd)

/-! ## Increment -/

/-- Settles O52: the one value that overflows goes to 10^11. -/
theorem mantissaDecimalIncrement : Obligations.MantissaDecimalIncrement := by
  intro s hmem hl hr hw hd
  have hlt := valueAt_lt hl hd
  have hnew : (if valueAt s s.a = mantModulus - 1 then 10 ^ 11 else valueAt s s.a + 1) < mantModulus := by
    rw [mantModulus_eq] at *
    split <;> omega
  have hex := exec_mdi_touched hr
  rw [mantVal_decimal (mantReadable_of_writable hw) hd, res_ok_bind, setMantVal_writable hw, res_ok_bind, overflowE_eq] at hex
  simp only [decide_eq_true_eq] at hex
  exact valueStored_completes hmem hw hl hnew hex

end Sys2Proof.Machine
end

section
/-! FDV (44_mac.md R191): the loop that the spec writes, and its closed form, which the model computes. -/

namespace Sys2Proof.Machine

/-! ## The loop -/

/-- R191: `q` additions of `v1` stay below 10^12, and the next one, which leaves `r`, does not. -/
def EndsAfter (v1 sum q r : Nat) : Prop :=
  sum + q * v1 < mantModulus ∧ mantModulus ≤ sum + (q + 1) * v1 ∧ r = sum + (q + 1) * v1 - mantModulus

theorem endsAfter_zero {v1 sum r : Nat} (hs : sum < mantModulus) (ho : mantModulus ≤ sum + v1) :
    EndsAfter v1 sum 0 r ↔ r = sum + v1 - mantModulus := by
  simp [EndsAfter, hs, ho]

/-- One addition without overflow is the first of them. -/
theorem endsAfter_succ (v1 sum q r : Nat) : EndsAfter v1 sum (q + 1) r ↔ EndsAfter v1 (sum + v1) q r := by
  have h : ∀ k, sum + (k + 1) * v1 = sum + v1 + k * v1 := fun k => by rw [Nat.succ_mul]; omega
  rw [EndsAfter, EndsAfter, h, h]

section
variable {v1 : Nat}

theorem fdvLoop_overflow {fuel v2 c counted : Nat} (h : mantModulus ≤ v2 + v1 + c) :
    fdvLoop (fuel + 1) v1 v2 c counted = some (counted, (v2 + v1 + c) % mantModulus) := by
  rw [fdvLoop]
  exact if_pos h

theorem fdvLoop_next {fuel v2 c counted : Nat} (h : v2 + v1 + c < mantModulus) :
    fdvLoop (fuel + 1) v1 v2 c counted = fdvLoop fuel v1 (v2 + v1 + c) 0 (counted + 1) := by
  rw [fdvLoop]
  refine (if_neg (Nat.not_le.mpr h)).trans ?_
  rw [Nat.mod_eq_of_lt h]

/-- The loop answers exactly when its fuel reaches the addition that overflows. -/
theorem fdvLoop_eq_some_iff (hv1 : v1 < mantModulus) {fuel v2 c counted k r : Nat} (hs : v2 + c < mantModulus) :
    fdvLoop fuel v1 v2 c counted = some (k, r) ↔ ∃ q, q < fuel ∧ k = counted + q ∧ EndsAfter v1 (v2 + c) q r := by
  induction fuel generalizing v2 c counted with
  | zero => exact iff_of_false (fun h => by cases h) fun ⟨q, hq, _⟩ => by omega
  | succ fuel ih =>
    have hcomm : v2 + v1 + c = v2 + c + v1 := by omega
    by_cases ho : mantModulus ≤ v2 + v1 + c
    case pos =>
      have hmod : (v2 + v1 + c) % mantModulus = v2 + c + v1 - mantModulus := by
        rw [Nat.mod_eq_sub_mod ho, Nat.mod_eq_of_lt (by omega), hcomm]
      rw [fdvLoop_overflow ho, hmod, Option.some_inj, Prod.mk.injEq]
      constructor
      · rintro ⟨rfl, rfl⟩
        exact ⟨0, by omega, rfl, (endsAfter_zero hs (hcomm ▸ ho)).mpr rfl⟩
      · rintro ⟨q, -, rfl, hq⟩
        cases q with
        | zero => exact ⟨rfl, ((endsAfter_zero hs (hcomm ▸ ho)).mp hq).symm⟩
        | succ q =>
          obtain ⟨hlt, -⟩ := (endsAfter_succ _ _ _ _).mp hq
          exact absurd hlt (Nat.not_lt.mpr (Nat.le_trans (hcomm ▸ ho) (Nat.le_add_right _ _)))
    case neg =>
      have hlt : v2 + v1 + c < mantModulus := Nat.not_le.mp ho
      rw [fdvLoop_next hlt, ih (v2 := v2 + v1 + c) (c := 0) hlt, Nat.add_zero, hcomm]
      constructor
      · rintro ⟨q, hq, rfl, hend⟩
        exact ⟨q + 1, by omega, by omega, (endsAfter_succ _ _ _ _).mpr hend⟩
      · rintro ⟨q, hq, rfl, hend⟩
        cases q with
        | zero =>
          obtain ⟨-, hover, -⟩ := hend
          omega
        | succ q => exact ⟨q, by omega, by omega, (endsAfter_succ _ _ _ _).mp hend⟩

/-! ## The closed form -/

theorem fdvResult_full {v2 dc : Nat} (h : mantModulus ≤ v2 + dc) : fdvResult v1 v2 dc = some (0, v1) := by
  rw [fdvResult]
  exact if_pos h

theorem fdvResult_zero {v2 dc : Nat} (h : v2 + dc < mantModulus) : fdvResult 0 v2 dc = none := by
  rw [fdvResult]
  exact (if_neg (Nat.not_le.mpr h)).trans (if_pos rfl)

theorem fdvResult_quotient {v2 dc : Nat} (h : v2 + dc < mantModulus) (hv1 : v1 ≠ 0) :
    fdvResult v1 v2 dc = some ((mantModulus - 1 - (v2 + dc)) / v1,
      v2 + dc + ((mantModulus - 1 - (v2 + dc)) / v1 + 1) * v1 - mantModulus) := by
  rw [fdvResult]
  exact (if_neg (Nat.not_le.mpr h)).trans (if_neg hv1)

/-- R191: the number of additions without overflow is a quotient. -/
theorem endsAfter_iff_quotient (hv1 : v1 ≠ 0) {sum q r : Nat} (hs : sum < mantModulus) :
    EndsAfter v1 sum q r ↔ q = (mantModulus - 1 - sum) / v1 ∧ r = sum + (q + 1) * v1 - mantModulus := by
  have hq : q = (mantModulus - 1 - sum) / v1 ↔ sum + q * v1 < mantModulus ∧ mantModulus ≤ sum + (q + 1) * v1 := by
    rw [eq_comm, Nat.div_eq_iff (Nat.pos_of_ne_zero hv1), Nat.succ_mul]
    omega
  rw [EndsAfter, hq, and_assoc]

/-- R191: the closed form is what the loop answers, with as many additions as it takes. -/
theorem fdvResult_eq_some_iff (hv1 : v1 < mantModulus) {v2 dc q r : Nat} (hs : v2 + dc ≤ mantModulus) :
    fdvResult v1 v2 dc = some (q, r) ↔ ∃ fuel, fdvLoop fuel v1 v2 dc 0 = some (q, r) := by
  by_cases hfull : mantModulus ≤ v2 + dc
  case pos =>
    have hloop : ∀ fuel, fdvLoop (fuel + 1) v1 v2 dc 0 = some (0, v1) := fun fuel => by
      rw [fdvLoop_overflow (by omega), show v2 + v1 + dc = mantModulus + v1 by omega, Nat.add_mod_left,
        Nat.mod_eq_of_lt hv1]
    rw [fdvResult_full hfull]
    refine ⟨fun h => ⟨1, (hloop 0).trans h⟩, fun ⟨fuel, h⟩ => ?_⟩
    cases fuel with
    | zero => cases h
    | succ fuel => exact (hloop fuel).symm.trans h
  case neg =>
    have hlt : v2 + dc < mantModulus := Nat.not_le.mp hfull
    have hloop : (∃ fuel, fdvLoop fuel v1 v2 dc 0 = some (q, r)) ↔ EndsAfter v1 (v2 + dc) q r := by
      simp only [fdvLoop_eq_some_iff hv1 hlt, Nat.zero_add]
      exact ⟨fun ⟨_, _, _, hq, h⟩ => hq ▸ h, fun h => ⟨q + 1, q, by omega, rfl, h⟩⟩
    rw [hloop]
    by_cases hzero : v1 = 0
    case pos =>
      subst hzero
      rw [fdvResult_zero hlt]
      exact iff_of_false (fun h => by cases h) fun ⟨_, hover, _⟩ => by omega
    case neg =>
      rw [fdvResult_quotient hlt hzero, endsAfter_iff_quotient hzero hlt, Option.some_inj, Prod.mk.injEq, eq_comm]
      exact and_congr_right fun hq => by rw [hq, eq_comm]

theorem fdvResult_isSome_iff {v2 dc : Nat} : (∃ q r, fdvResult v1 v2 dc = some (q, r)) ↔ v1 ≠ 0 ∨ mantModulus ≤ v2 + dc := by
  by_cases hfull : mantModulus ≤ v2 + dc
  case pos => exact iff_of_true ⟨_, _, fdvResult_full hfull⟩ (.inr hfull)
  case neg =>
    have hlt : v2 + dc < mantModulus := Nat.not_le.mp hfull
    by_cases hzero : v1 = 0
    case pos =>
      subst hzero
      rw [fdvResult_zero hlt]
      exact iff_of_false (fun ⟨_, _, h⟩ => by cases h) fun h => h.elim (fun h => h rfl) hfull
    case neg => exact iff_of_true ⟨_, _, fdvResult_quotient hlt hzero⟩ (.inl hzero)

/-- The remainder that FDV leaves is a mantissa. -/
theorem fdvResult_lt (hv1 : v1 < mantModulus) {v2 dc q r : Nat} (h : fdvResult v1 v2 dc = some (q, r)) :
    r < mantModulus := by
  by_cases hfull : mantModulus ≤ v2 + dc
  case pos =>
    rw [fdvResult_full hfull] at h
    cases h
    exact hv1
  case neg =>
    have hlt : v2 + dc < mantModulus := Nat.not_le.mp hfull
    have hzero : v1 ≠ 0 := by
      rintro rfl
      rw [fdvResult_zero hlt] at h
      cases h
    rw [fdvResult_quotient hlt hzero] at h
    cases h
    obtain ⟨hbelow, -, -⟩ := (endsAfter_iff_quotient hzero hlt).mpr ⟨rfl, rfl⟩
    rw [Nat.succ_mul]
    omega

end

/-! ## FDV -/

/-- The state after FDV: the remainder, the count added to B, E cleared, A by MAC_UNLISTED_REGS (D19). -/
def divided (s : State) (q r : Nat) : State :=
  ((((mantStored s Config.ar2Base (decimalDigits 12 r)).setReg .B (s.b + BitVec.ofNat 16 q)).setE 0b0000#4).unlisted
    .A).advance

section
variable {s : State} {dc : Nat} (h1 : decimalAt s Config.ar1Base) (h2 : decimalAt s Config.ar2Base) (hdc : CarryIn s.e dc)
include h1 h2 hdc

theorem exec_fdv {q r : Nat} (h : fdvResult (valueAt s Config.ar1Base) (valueAt s Config.ar2Base) dc = some (q, r)) :
    exec .fdv s = .next (divided s q r) := by
  change execFdv s = _
  rw [execFdv, decimalCarryIn_ok hdc, res_ok_bind, mantVal_ar1 h1, res_ok_bind, mantVal_ar2 h2, res_ok_bind, h]
  dsimp only
  rw [setMantVal_writable (mantWritable_ar2 s), res_ok_bind]
  rfl

theorem exec_fdv_hangs (h : fdvResult (valueAt s Config.ar1Base) (valueAt s Config.ar2Base) dc = none) :
    exec .fdv s = .fault .hangFdv := by
  change execFdv s = _
  rw [execFdv, decimalCarryIn_ok hdc, res_ok_bind, mantVal_ar1 h1, res_ok_bind, mantVal_ar2 h2, res_ok_bind, h]
  rfl

/-- What FDV leaves where the closed form has a result. -/
theorem fdv_completes (hmem : s.mem.wf = true) (hl : layoutOk s.plat.mantLayout = true) {q r : Nat}
    (h : fdvResult (valueAt s Config.ar1Base) (valueAt s Config.ar2Base) dc = some (q, r)) :
    ∃ t, exec .fdv s = .next t ∧ valueAt t Config.ar2Base = r ∧ decimalAt t Config.ar2Base ∧
      t.b = s.b + BitVec.ofNat 16 q ∧ t.e = 0b0000#4 ∧
      (s.plat.unlistedRegs = .unchanged → t.a = s.a ∧ t.freeCount = s.freeCount) ∧
      t.p = s.p + 1#16 ∧ t.m = s.p + 1#16 ∧ t.dmaWait = s.dmaWait ∧ t.plat = s.plat ∧
      sameWordsExcept (mantAddrs s Config.ar2Base) s t ∧ t.mem.wf = true := by
  obtain ⟨hval, hdec, hwords, hwf⟩ := holds_value (t := divided s q r) hmem (mantWritable_ar2 s) hl
    (fdvResult_lt (valueAt_lt hl h1) h) (by simp [divided]) (by simp [divided])
  exact ⟨_, exec_fdv h1 h2 hdc h, hval, hdec, by simp [divided], by simp [divided],
    fun hu => by simp [divided, unlisted_unchanged, hu], by simp [divided], by simp [divided], by simp [divided],
    by simp [divided], hwords, hwf⟩

end

/-- R197: AR2 and the carry-in together are at most 10^12. -/
theorem value_add_carry_le {s : State} {base : Word} {dc : Nat} (hl : layoutOk s.plat.mantLayout = true)
    (hd : decimalAt s base) (hdc : CarryIn s.e dc) : valueAt s base + dc ≤ mantModulus := by
  have hlt := valueAt_lt hl hd
  have hle := carryIn_le hdc
  omega

/-- Settles O48: the closed form answers exactly what the loop does, and FDV hangs where neither answers. -/
theorem fastDivideIsTheLoop : Obligations.FastDivideIsTheLoop := by
  intro s dc hmem hl h1 h2 hdc v1 v2
  have hsum : v2 + dc ≤ mantModulus := value_add_carry_le hl h2 hdc
  have hiff : ∀ {q r}, fdvResult v1 v2 dc = some (q, r) ↔ _ := fdvResult_eq_some_iff (valueAt_lt hl h1) hsum
  refine ⟨fun fuel q r h => fdv_completes h1 h2 hdc hmem hl (hiff.mpr ⟨fuel, h⟩), fun h => ?hangs, ?ends⟩
  case hangs =>
    refine exec_fdv_hangs h1 h2 hdc (Option.eq_none_iff_forall_ne_some.mpr fun ⟨q, r⟩ hsome => ?_)
    obtain ⟨fuel, hloop⟩ := hiff.mp hsome
    rw [h fuel] at hloop
    cases hloop
  case ends =>
    have hfull : mantModulus ≤ v2 + dc ↔ v2 + dc = 10 ^ 12 := ⟨fun h => Nat.le_antisymm hsum h, fun h => h ▸ Nat.le_refl _⟩
    rw [← hfull, ← fdvResult_isSome_iff]
    exact ⟨fun ⟨fuel, q, r, h⟩ => ⟨q, r, hiff.mpr ⟨fuel, h⟩⟩, fun ⟨q, r, h⟩ => (hiff.mp h).imp fun _ hf => ⟨q, r, hf⟩⟩

/-- Settles O49: the two results of the closed form. -/
theorem fastDivideCompletes : Obligations.FastDivideCompletes := by
  intro s dc hmem hl h1 h2 hdc v1 sum q
  refine ⟨fun hv1 hlt => ?quotient, fun hfull => ?full⟩
  case quotient =>
    obtain ⟨t, hex, hval, -, hb, he, -⟩ := fdv_completes h1 h2 hdc hmem hl (fdvResult_quotient hlt hv1)
    exact ⟨t, hex, hb, hval, he⟩
  case full =>
    obtain ⟨t, hex, hval, -, hb, he, -⟩ := fdv_completes h1 h2 hdc hmem hl (fdvResult_full (Nat.le_of_eq hfull.symm))
    exact ⟨t, hex, hb.trans (BitVec.add_zero _), hval, he⟩

end Sys2Proof.Machine
end

section
/-! The reset state (70_reset_and_hazards.md R230). -/

namespace Sys2Proof.Machine

/-- Settles O55: empty memory is canonical, and the default platform lists no words and places the digits in order. -/
theorem resetState : Obligations.ResetState :=
  have hrows : encUnknownOk [] := ⟨fun _ h => absurd h List.not_mem_nil, List.nodup_nil, List.Pairwise.nil⟩
  ⟨rfl, rfl, ⟨rfl, fun _ => rfl⟩, rfl, hrows, by decide⟩

end Sys2Proof.Machine
end
